-- ==== Sys2Proof/Word.lean ====
section
/-! DEFINITION. The two word sizes of PNGE and the size of its memory space. -/

namespace Sys2Proof

/-- A register, a command word, a CRC value (R8): 32 bits. -/
abbrev Word := BitVec 32

/-- A byte of memory (R9). -/
abbrev Byte := BitVec 8

/-- The number of byte addresses: the memory space spans 0 to 0xFFFFFFFF (R49, `ADDR_W` = 32 in R7).
An address is held as a `Nat`, because every window check is made in unbounded arithmetic (R80, R81, R204). -/
abbrev addrLimit : Nat := 4294967296

end Sys2Proof
end

