-- ==== Sys2Proof/Syntax.lean ====
section
/-! DEFINITION. The commands of PNGE: one constructor for each row of spec/opcode_table.json. -/

namespace Sys2Proof

/-- The 11 commands of R102. A command word has no register fields and no immediates (R100): every operand
is a register that the command reads (R103), so no constructor carries an argument. -/
inductive Instr where
  /-- CRC, OP 0x01 (R132) -/
  | crc
  /-- EMIT_SIG, OP 0x02 (R152) -/
  | emitSig
  /-- EMIT_CHUNK, OP 0x03 (R155) -/
  | emitChunk
  /-- EMIT_IEND, OP 0x04 (R158) -/
  | emitIend
  /-- EMIT_IHDR, OP 0x05 (R161) -/
  | emitIhdr
  /-- EMIT_PLTE, OP 0x06 (R164) -/
  | emitPlte
  /-- EMIT_TRNS, OP 0x07 (R167) -/
  | emitTrns
  /-- EMIT_IDAT, OP 0x08 (R170) -/
  | emitIdat
  /-- SIZE, OP 0x09 (R193) -/
  | size
  /-- COMPRESS, OP 0x0A (R212) -/
  | compress
  /-- BUILD, OP 0x0B (R232) -/
  | build
  deriving DecidableEq, Repr

end Sys2Proof
end

