-- ==== Sys2Proof/WellFormed.lean ====
section
/-! DEFINITION. What a well-formed command word is (R100, R102). An instruction of this hardware carries no
operand, so a term of `Instr` has nothing to check; the checks are those on a command word. -/

namespace Sys2Proof

/-- The field OP, bits 7:0 of a command word (R100). -/
def WellFormed.op (w : Word) : Nat := (w.extractLsb' 0 8).toNat

/-- The field MBZ, bits 31:8 of a command word, is zero (R100). -/
def WellFormed.mbzZero (w : Word) : Bool := w.extractLsb' 8 24 == 0#24

/-- OP is one of the 11 opcodes of R102, 0x01 to 0x0B. -/
def WellFormed.opInTable (w : Word) : Bool := decide (1 ≤ WellFormed.op w ∧ WellFormed.op w ≤ 11)

/-- A command word that selects a command: both checks of R101 pass. -/
def WellFormed.commandWord (w : Word) : Bool := WellFormed.mbzZero w && WellFormed.opInTable w

end Sys2Proof
end

