-- ==== Sys2Proof/Decode.lean ====
section
/-! DEFINITION. The decoder of command words (R100 to R105), total on every 32-bit word, and the encoder written
from the same table. -/

namespace Sys2Proof

/-- Why a word is `ILLEGAL_WORD` (R101, R104). Both reasons complete the command with the error ILLEGAL. -/
inductive DecodeReject where
  /-- a nonzero bit in [31:8] -/
  | mustBeZero
  /-- OP is 0x00 or 0x0C to 0xFF -/
  | noSuchOpcode
  deriving DecidableEq, Repr

/-- OP, bits 7:0 of a command word (R100). -/
def opField (w : Word) : Nat := (w.extractLsb' 0 8).toNat

/-- MBZ, bits 31:8 of a command word (R100). -/
def mbzField (w : Word) : Nat := (w.extractLsb' 8 24).toNat

/-- The opcode map of R102, read by opcode. Every other value is illegal (R104). -/
def commandOfOp : Nat → Option Instr
  | 0x01 => some .crc
  | 0x02 => some .emitSig
  | 0x03 => some .emitChunk
  | 0x04 => some .emitIend
  | 0x05 => some .emitIhdr
  | 0x06 => some .emitPlte
  | 0x07 => some .emitTrns
  | 0x08 => some .emitIdat
  | 0x09 => some .size
  | 0x0A => some .compress
  | 0x0B => some .build
  | _ => none

/-- `Decode(w)` of R101. -/
def decode (w : Word) : Except DecodeReject Instr :=
  if mbzField w ≠ 0 then .error .mustBeZero
  else
    match commandOfOp (opField w) with
    | some i => .ok i
    | none => .error .noSuchOpcode

/-- The opcode of a command, the column OP of R102. -/
def opcode : Instr → Nat
  | .crc => 0x01
  | .emitSig => 0x02
  | .emitChunk => 0x03
  | .emitIend => 0x04
  | .emitIhdr => 0x05
  | .emitPlte => 0x06
  | .emitTrns => 0x07
  | .emitIdat => 0x08
  | .size => 0x09
  | .compress => 0x0A
  | .build => 0x0B

/-- The command word of a command, the column "word" of R102: OP in bits 7:0, zeros in 31:8. -/
def encode (i : Instr) : Word := BitVec.ofNat 32 (opcode i)

/-- What the decoder reads from an instruction whose bits are `w`, numbered as spec/opcode_table.json numbers
them. A command is one 32-bit bus write (R105), so bit k of the row is bit k of the word written to `CMD`. -/
def decodeTableWord (nbits w : Nat) : Option Instr :=
  match decode (BitVec.ofNat 32 (w % 2 ^ nbits)) with
  | .ok i => some i
  | .error _ => none

end Sys2Proof
end

