-- ==== Sys2Proof/Config.lean ====
section
/-! DEFINITION. The parameters of one PNGE (R7) as plain data, the types of the backend link (R202, R205), and
the free values: opaque constants without a body, of which nothing can be proved. -/

namespace Sys2Proof

/-- The direction of a memory-port access (R72). -/
inductive Dir where
  | read
  | write
  deriving DecidableEq, Repr, Inhabited

/-- A range of addresses at which the memory port refuses accesses of one direction (R72). -/
structure Region where
  base : Nat
  size : Nat
  dir : Dir
  deriving DecidableEq, Repr, Inhabited

/-- A function from naturals to naturals with finitely many exceptions: `other` everywhere except at the listed
rows. `Bound_A` and `Bound_B` are asked only at the finitely many values of `PixSize` (R190, R192), so every
function the spec admits is one of these there. -/
structure Table where
  rows : List (Nat × Nat)
  other : Nat
  deriving DecidableEq, Repr, Inhabited

/-- `TRNS_BYTES(ct)` (R7): the tRNS payload of each colour type, of the length R115 gives it. -/
structure TrnsBytes where
  truecolour : Vector Byte 6
  greyscale : Vector Byte 2
  indexed : Vector Byte 1
  deriving DecidableEq, Repr, Inhabited

/-- The value of `PLTE_ENTRY0` by decision D17 (R7, R114, R163). -/
def decidedPlteEntry0 : Vector Byte 3 := Vector.replicate 3 0#8

/-- The value of `TRNS_BYTES` by decision D18 (R7, R115, R166). -/
def decidedTrnsBytes : TrnsBytes := ⟨Vector.replicate 6 0#8, Vector.replicate 2 0#8, Vector.replicate 1 0#8⟩

/-- The parameters of R7 that are fixed for one PNGE, held as plain data so that a state can be written out. The
constants of R7 (`ADDR_W`, `WIDTH_MAX`, `DEPTHS`, `LEVEL_A`, `ID_VALUE`) are definitions of the model.
`MemOK` is the complement of the finite list `refused`: over 2^32 addresses and two directions every predicate is
one of these. `REG_BASE` is a multiple of 256 (R7), so it is given by its page. `LEVEL_B_MIN` and `LEVEL_B_MAX`
satisfy 0 <= MIN <= MAX <= 15 (R201), so they are given by the minimum and how far the maximum lies above it. -/
structure Platform where
  /-- `REG_BASE / 256` -/
  regPage : Nat
  /-- `LEVEL_B_MIN` -/
  levelBMin : Fin 16
  /-- `LEVEL_B_MAX` is the smaller of 15 and `LEVEL_B_MIN + levelBSpan` -/
  levelBSpan : Fin 16
  /-- `Bound_A` -/
  boundA : Table
  /-- `Bound_B` -/
  boundB : Table
  /-- the accesses `MemOK` refuses -/
  refused : List Region
  /-- `PLTE_ENTRY0`, an argument fixed for one PNGE (U8) -/
  plteEntry0 : Vector Byte 3
  /-- `TRNS_BYTES`, an argument fixed for one PNGE (U8) -/
  trnsBytes : TrnsBytes
  deriving DecidableEq, Repr, Inhabited

/-- The two deflate providers (R200). -/
inductive Provider where
  | a
  | b
  deriving DecidableEq, Repr, Inhabited

/-- The level a request carries (R202): provider A's "default" sentinel, or the number in `CCFG.LEVEL`. -/
inductive Level where
  | dflt
  | explicit (n : BitVec 4)
  deriving DecidableEq, Repr, Inhabited

/-- The five strategies, in the order of R112. -/
inductive Strategy where
  | dflt
  | filtered
  | huffmanOnly
  | fixed
  | runLength
  deriving DecidableEq, Repr, Inhabited

/-- The request record of R202. Its `input` field is `Zeros(n)` and so is a function of `n` (`Request.input`). -/
structure Request where
  prov : Provider
  level : Level
  strat : Option Strategy
  n : Nat
  deriving DecidableEq, Repr, Inhabited

/-- `Request.input` of R202: the blank pixel buffer `Zeros(n)` (R194). -/
def Request.input (r : Request) : List Byte := List.replicate r.n 0#8

/-- The one response of the backend to a request (R205). -/
inductive Answer where
  | ok (z : List Byte)
  | fail
  deriving DecidableEq, Repr, Inhabited

/-- FREE VALUE. The parameters of the PNGE that `State.reset` describes, but for the two that D17 and D18 decide
(`Config.platformByDecision`). The spec leaves them OPEN (R7). See notes/assumptions/1.md. -/
opaque Config.platform : Platform

/-- The parameters after reset: the OPEN ones free, `PLTE_ENTRY0` and `TRNS_BYTES` as D17 and D18 decide them (R7).
See notes/assumptions/19.md. -/
def Config.platformByDecision : Platform :=
  { Config.platform with plteEntry0 := decidedPlteEntry0, trnsBytes := decidedTrnsBytes }

/-- FREE VALUE. What the memory holds at an address nothing has written (R76): one value for each address, so
that two reads with no write between agree (U14). See notes/assumptions/2.md. -/
opaque Config.unwrittenByte : Nat → Byte

/-- FREE VALUE. The n-th drawn byte: the value of a byte the spec calls unspecified (R85, R87, R210, R282).
See notes/assumptions/3.md. -/
opaque Config.freeByte : Nat → Byte

/-- FREE VALUE. The n-th drawn word: a read while busy (R45), a CRC the spec leaves open (R85, R87).
See notes/assumptions/3.md. -/
opaque Config.freeWord : Nat → Word

/-- FREE VALUE. The n-th drawn latency: how many inputs at most act between the acceptance of a command and its
completion (R296). See notes/assumptions/4.md. -/
opaque Config.freeLatency : Nat → Nat

/-- FREE VALUE. The n-th drawn backend response, used where the list of answers in the state is empty
(R205 to R209). See notes/assumptions/5.md. -/
opaque Config.freeAnswer : Nat → Answer

end Sys2Proof
end

