-- ==== Sys2Proof/Machine/State.lean ====
section
/-! DEFINITION. The state of PNGE (R20 to R50) with its agents' inputs (R6), the reasons a step can stop, and the
state after reset (R280). Plain data throughout. -/

namespace Sys2Proof.Machine

/-- The reasons the machine stops (R270). -/
inductive Fault where
  /-- Raised by COMPRESS and BUILD when the backend answers `Ok(z)` with `z` longer than `Bound_P(n)`: "a case the
  spec leaves with no meaning. That is a backend response outside rules R206 to R209" (R270, U17). Safe: the
  machine stops where a real engine would go on in a way the spec does not give. -/
  | backendOverrun
  deriving DecidableEq, Repr

/-- The reasons an instruction has no meaning. "The model refuses nothing that decodes" (R270). -/
inductive Refusal where
  /-- Raised by no arm of `exec`: every command of the table has its meaning. Safe. -/
  | notModelled (mnemonic : String)
  deriving DecidableEq, Repr

/-- The values of `STATUS.ECODE` (R251). The values 9 to 15 are never produced (U23). -/
inductive ErrCode where
  | noError
  | illegal
  | cfgInvalid
  | alloc
  | backend
  | bounds
  | noidat
  | addr
  | mem
  deriving DecidableEq, Repr

/-- `CTRL` (R25). -/
structure Ctrl where
  ieDone : Bool
  ieErr : Bool
  deriving DecidableEq, Repr

/-- `STATUS` (R26). -/
structure Status where
  busy : Bool
  done : Bool
  err : Bool
  ovr : Bool
  ecode : ErrCode
  idatv : Bool
  deriving DecidableEq, Repr

/-- What the outside can do to PNGE: bus transactions on the register window (R79), the host's own accesses to the
shared memory (R49, R70), the polling loop WAIT (R107), and the reset input (R281). -/
inductive Input where
  /-- a write of `data`, `size` bytes wide, at the bus address `addr` -/
  | busWrite (addr size : Nat) (data : Word)
  /-- a read, `size` bytes wide, at the bus address `addr` -/
  | busRead (addr size : Nat)
  /-- the host writes one byte of the shared memory by its own path -/
  | memWrite (a : Word) (b : Byte)
  /-- the host reads one byte of the shared memory by its own path -/
  | memRead (a : Word)
  /-- WAIT: the host reads STATUS again and again until BUSY is 0 -/
  | waitIdle
  /-- `rst` is asserted -/
  | assertReset
  /-- `rst` is deasserted -/
  | releaseReset
  deriving DecidableEq, Repr

/-- What the last input got back. -/
inductive Response where
  /-- nothing to answer -/
  | quiet
  /-- an accepted register read returns this word -/
  | data (w : Word)
  /-- a host memory read returns this byte -/
  | byte (b : Byte)
  /-- an accepted register write -/
  | written
  /-- the register window refuses the access (R79, R259) -/
  | busError
  /-- the access touches no byte of the register window: it is not PNGE's -/
  | notSelected
  /-- PNGE is in reset and accepts no register access (R281) -/
  | notAccepted
  deriving DecidableEq, Repr

/-- The memory: the bytes something has written, in strictly rising order of address (R50: `u32 -> Option byte`).
An address that is not listed is one nothing has written (R76). -/
abbrev Memory := List Host.Cell

/-- The state: the record of R50, the reset input, the agents around the engine (R6), and the model's own
counters for free values. -/
structure State where
  /-- the reset input is asserted (R281) -/
  rst : Bool
  ctrl : Ctrl
  status : Status
  cfg : Word
  ccfg : Word
  type : Word
  srcAddr : Word
  srcLen : Word
  outBase : Word
  outCap : Word
  outPos : Word
  scrBase : Word
  scrCap : Word
  idatLen : Word
  result : Word
  crc : Word
  /-- the command word accepted and not yet completed (R50) -/
  pending : Option Word
  mem : Memory
  /-- what the outside will do, the next first -/
  inputs : List Input
  /-- what the last input got back -/
  resp : Response
  /-- what the backend will answer to the requests to come, the next first -/
  answers : List Answer
  /-- the requests sent to the backend since reset, the oldest first -/
  sent : List Request
  /-- how many more inputs may act before the pending command completes -/
  busyLeft : Nat
  /-- the addresses the host has written while the pending command ran (R87) -/
  raced : List Nat
  /-- how many free values have been drawn -/
  draws : Nat
  /-- the parameters of this PNGE (R7) -/
  plat : Platform
  deriving DecidableEq, Repr

/-- The state after reset (R280), with `rst` deasserted. Memory is not reset (R283): nothing is listed. The
OPEN parameters of the PNGE are free, `PLTE_ENTRY0` and `TRNS_BYTES` are the decided ones (R7), and the backend's
answers to come are free (none is listed). -/
def State.reset : State where
  rst := false
  ctrl := ⟨false, false⟩
  status := ⟨false, false, false, false, .noError, false⟩
  cfg := 0#32
  ccfg := 0#32
  type := 0#32
  srcAddr := 0#32
  srcLen := 0#32
  outBase := 0#32
  outCap := 0#32
  outPos := 0#32
  scrBase := 0#32
  scrCap := 0#32
  idatLen := 0#32
  result := 0#32
  crc := 0#32
  pending := none
  mem := []
  inputs := []
  resp := .quiet
  answers := []
  sent := []
  busyLeft := 0
  raced := []
  draws := 0
  plat := Config.platformByDecision

end Sys2Proof.Machine
end

