-- ==== Sys2Proof/Machine/Ops.lean ====
section
/-! DEFINITION. The shared operations: memory, the memory port with its refusals and open bytes, the window checks,
the start and the two completions of a command (the error completion of R254 is this hardware's exception entry),
and the exchange with the backend. -/

namespace Sys2Proof.Machine

/-! ### Memory -/

/-- The byte memory holds at `a`, or `none` where nothing has written it (R50). -/
def Memory.get : Memory → Nat → Option Byte
  | [], _ => none
  | (k, b) :: t, a => if a = k then some b else Memory.get t a

/-- One byte written at `a`; the list stays in rising order. -/
def Memory.set : Memory → Nat → Byte → Memory
  | [], a, b => [(a, b)]
  | (k, c) :: t, a, b =>
    if a < k then (a, b) :: (k, c) :: t
    else if a = k then (a, b) :: t
    else (k, c) :: Memory.set t a b

/-- Every address of the list is above `a`. -/
def Memory.above (a : Nat) (m : Memory) : Bool := m.all fun c => decide (a < c.1)

/-- The canonical form: addresses strictly rising, all of them addresses of the memory space. An unlisted address
holds no written byte, so no entry can equal what an unlisted address holds. -/
def Memory.wf : Memory → Bool
  | [] => true
  | (k, _) :: t => decide (k < addrLimit) && Memory.above k t && Memory.wf t

/-- What an unlisted address reads as: a free value of that address (R76, U14). -/
def Memory.unlisted (a : Nat) : Byte := Config.unwrittenByte a

/-- The byte a read of address `a` finds in a memory. -/
def Memory.byteAt (m : Memory) (a : Nat) : Byte := (m.get a).getD (Memory.unlisted a)

/-- The byte a read of address `a` finds in a state. -/
def State.peek (s : State) (a : Nat) : Byte := s.mem.byteAt a

/-! ### The memory port -/

/-- `MemOK(a, dir)` (R72). -/
def memOk (plat : Platform) (a : Nat) (dir : Dir) : Bool :=
  !plat.refused.any fun r => decide (r.dir = dir ∧ r.base ≤ a ∧ a < r.base + r.size)

/-- What a command changes at the memory port: the memory, and the count of free values drawn. -/
structure Port where
  mem : Memory
  draws : Nat
  deriving DecidableEq, Repr

/-- The port of a state. -/
def State.port (s : State) : Port := ⟨s.mem, s.draws⟩

/-- What the accesses of one command depend on besides the port: the parameters, and which addresses are open,
that is, lie in an overlap of the command's windows (R85) or were written by the host while it ran (R87). -/
structure Env where
  plat : Platform
  isOpen : Nat → Bool

/-- The environment of a command in state `s` whose windows overlap at the addresses `ovl`. -/
def State.env (s : State) (ovl : Nat → Bool) : Env :=
  ⟨s.plat, fun a => ovl a || s.raced.contains a⟩

/-- The result of a run of byte accesses: all performed, or one refused (R72) after the ones before it. -/
inductive Access (α : Type) where
  | done (x : α) (p : Port)
  | refused (p : Port)
  deriving DecidableEq, Repr

/-- Accesses in sequence; a refusal ends it, and what was written still stands (R72, R254). -/
def Access.andThen {α β : Type} (x : Access α) (f : α → Port → Access β) : Access β :=
  match x with
  | .done v p => f v p
  | .refused p => .refused p

/-- One byte read (R71). At an open address the value is free (R85, R87); the flag says so. -/
def readByte (e : Env) (a : Nat) (p : Port) : Access (Byte × Bool) :=
  if memOk e.plat a .read then
    if e.isOpen a then .done (Config.freeByte p.draws, true) ⟨p.mem, p.draws + 1⟩
    else .done (p.mem.byteAt a, false) p
  else .refused p

/-- One byte written (R71). At an open address the value that lands is free (R85, R87). -/
def writeByte (e : Env) (a : Nat) (b : Byte) (p : Port) : Access Unit :=
  if memOk e.plat a .write then
    if e.isOpen a then .done () ⟨p.mem.set a (Config.freeByte p.draws), p.draws + 1⟩
    else .done () ⟨p.mem.set a b, p.draws⟩
  else .refused p

/-- `MemWrite(a, len(s), s)`: the bytes in order at ascending addresses (R71). -/
def writeBytes (e : Env) : Nat → List Byte → Port → Access Unit
  | _, [], p => .done () p
  | a, b :: t, p => (writeByte e a b p).andThen fun _ q => writeBytes e (a + 1) t q

/-- `MemRead(a, n)`: `n` bytes at ascending addresses (R71), and whether one of them was open. -/
def readBytes (e : Env) : Nat → Nat → Port → Access (List Byte × Bool)
  | _, 0, p => .done ([], false) p
  | a, n + 1, p =>
    (readByte e a p).andThen fun x q =>
      (readBytes e (a + 1) n q).andThen fun y r => .done (x.1 :: y.1, x.2 || y.2) r

/-- The payload copy of R155, R170 and R231: byte `i` is read just before it is written, and each is read once
(R78). The result is the payload as read, and whether a byte of it was open. -/
def copyBytes (e : Env) : Nat → Nat → Nat → Port → Access (List Byte × Bool)
  | _, _, 0, p => .done ([], false) p
  | src, dst, n + 1, p =>
    (readByte e src p).andThen fun x q =>
      (writeByte e dst x.1 q).andThen fun _ r =>
        (copyBytes e (src + 1) (dst + 1) n r).andThen fun y t => .done (x.1 :: y.1, x.2 || y.2) t

/-- `n` bytes from `base` on get free values: bytes the spec leaves unspecified (R85, R210, R282). -/
def havoc : Nat → Nat → Port → Port
  | _, 0, p => p
  | base, n + 1, p => havoc (base + 1) n ⟨p.mem.set base (Config.freeByte p.draws), p.draws + 1⟩

/-! ### Windows -/

/-- Address `a` is one of the `n` addresses from `base` on. -/
def inRange (base n a : Nat) : Bool := decide (base ≤ a ∧ a < base + n)

/-- Address `a` is in both ranges (R85). -/
def inBoth (b1 n1 b2 n2 a : Nat) : Bool := inRange b1 n1 a && inRange b2 n2 a

/-- The first address that can be in both ranges. -/
def bothBase (b1 b2 : Nat) : Nat := max b1 b2

/-- How many addresses are in both ranges. -/
def bothLen (b1 n1 b2 n2 : Nat) : Nat := min (b1 + n1) (b2 + n2) - max b1 b2

/-- No windows overlap: the command has one window only, or none. -/
def noOverlap : Nat → Bool := fun _ => false

/-- `OUT_BASE + OUT_POS`, where an output command writes (R38). -/
def State.outAddr (s : State) : Nat := s.outBase.toNat + s.outPos.toNat

/-- The range of `n` bytes at `base` runs past address 0xFFFFFFFF (R80, R81, R170, R204). -/
def pastEnd (base n : Nat) : Bool := decide (0 < n ∧ base + n - 1 > 0xFFFFFFFF)

/-- `OutCheck(n)` of R80: the error it raises, if it raises one. -/
def outCheck (s : State) (n : Nat) : Option ErrCode :=
  if s.outPos.toNat + n > s.outCap.toNat then some .bounds
  else if pastEnd s.outAddr n then some .addr
  else none

/-- `SrcCheck()` of R81. -/
def srcCheck (s : State) : Option ErrCode :=
  if pastEnd s.srcAddr.toNat s.srcLen.toNat then some .addr else none

/-! ### The start and the completions of a command -/

/-- What an accepted command word does to the state (R27, R28, R32): BUSY is set, DONE, ERR and ECODE are cleared,
and the word is the pending one. The engine's turn comes next. -/
def startCommand (w : Word) (s : State) : State :=
  { s with
    status := { s.status with busy := true, done := false, err := false, ecode := .noError }
    pending := some w
    busyLeft := 0
    raced := [] }

/-- The error completion of R254 with code `e`: this hardware's way of taking an exception. Memory keeps what was
written; no register but STATUS changes (R255). -/
def errorCompletion (s : State) (e : ErrCode) (p : Port) : State :=
  { s with
    status := { s.status with busy := false, err := true, ecode := e, idatv := false }
    pending := none
    mem := p.mem
    busyLeft := 0
    raced := []
    draws := p.draws }

/-- The success completion of R256, after the command's register writes. -/
def successCompletion (s : State) (p : Port) : State :=
  { s with
    status := { s.status with busy := false, done := true }
    pending := none
    mem := p.mem
    busyLeft := 0
    raced := []
    draws := p.draws }

/-- The register writes of an output command that wrote `n` bytes (R151): OUT_POS and RESULT. -/
def advanceOut (s : State) (n : Nat) : State :=
  { s with outPos := BitVec.ofNat 32 (s.outPos.toNat + n), result := BitVec.ofNat 32 n }

/-- The write of the register CRC (R42). -/
def writeCrc (s : State) (c : Word) : State := { s with crc := c }

/-- The write of STATUS.IDATV (R29). -/
def writeIdatv (s : State) (v : Bool) : State := { s with status := { s.status with idatv := v } }

/-- The write of IDAT_LEN (R40). -/
def writeIdatLen (s : State) (n : Nat) : State := { s with idatLen := BitVec.ofNat 32 n }

/-- The write of RESULT (R41). -/
def writeResult (s : State) (w : Word) : State := { s with result := w }

/-! ### The backend -/

/-- `Bound_P(n)` (R204). -/
def Table.at (t : Table) (n : Nat) : Nat := ((t.rows.find? fun r => r.1 == n).map Prod.snd).getD t.other

/-- `Bound_P(n)` of the provider `P` (R204). -/
def bound (plat : Platform) (prov : Provider) (n : Nat) : Nat :=
  match prov with
  | .a => Table.at plat.boundA n
  | .b => Table.at plat.boundB n

/-- A drawn response cut to the bound: the draws range over the responses R209 admits. -/
def cutAnswer (b : Nat) : Answer → Answer
  | .ok z => .ok (z.take b)
  | .fail => .fail

/-- The one exchange with the backend (R205): the request is sent, and the next answer comes back. Where the state
lists no answer, the answer is a free value within the bound (R206 to R209). -/
def askBackend (s : State) (r : Request) (b : Nat) : Answer × State :=
  match s.answers with
  | a :: rest => (a, { s with answers := rest, sent := s.sent ++ [r] })
  | [] => (cutAnswer b (Config.freeAnswer s.draws), { s with draws := s.draws + 1, sent := s.sent ++ [r] })

end Sys2Proof.Machine
end

