-- ==== Sys2Proof/Machine/Operands.lean ====
section
/-! DEFINITION. The fields of CFG and CCFG with their checks, the colour type, type tags and byte strings, and the
fixed payloads (R33 to R36, R108 to R116, R160 to R166, R191, R201, R202). -/

namespace Sys2Proof.Machine

/-! ### Byte strings -/

/-- `BE32(v)`: network byte order (R11, R73). -/
def be32 (v : Word) : List Byte :=
  [v.extractLsb' 24 8, v.extractLsb' 16 8, v.extractLsb' 8 8, v.extractLsb' 0 8]

/-- `Tag(t)`: bits [31:24] are the first byte on the wire (R108). -/
def tag (t : Word) : List Byte :=
  [t.extractLsb' 24 8, t.extractLsb' 16 8, t.extractLsb' 8 8, t.extractLsb' 0 8]

/-- `Zeros(n)` (R11). -/
def zeros (n : Nat) : List Byte := List.replicate n 0#8

/-- The tag words of the chunks PNGE populates (R109). -/
def tagIHDR : Word := 0x49484452#32
/-- "PLTE" -/
def tagPLTE : Word := 0x504C5445#32
/-- "IDAT" -/
def tagIDAT : Word := 0x49444154#32
/-- "IEND" -/
def tagIEND : Word := 0x49454E44#32
/-- "tRNS" -/
def tagTRNS : Word := 0x74524E53#32

/-- The 18 words of the chunk-type enumeration (R109). -/
def tagTable : List Word :=
  [tagIHDR, tagPLTE, tagIDAT, tagIEND, tagTRNS,
   0x6348524D#32, 0x67414D41#32, 0x69434350#32, 0x73424954#32, 0x73524742#32, 0x69545874#32, 0x74455874#32,
   0x7A545874#32, 0x624B4744#32, 0x68495354#32, 0x70485973#32, 0x73504C54#32, 0x74494D45#32]

/-- `ValidTag(t)` (R109). -/
def validTag (t : Word) : Bool := tagTable.contains t

/-- The signature (R111). -/
def signature : List Byte := [0x89#8, 0x50#8, 0x4E#8, 0x47#8, 0x0D#8, 0x0A#8, 0x1A#8, 0x0A#8]

/-- The constant IEND chunk (R116). -/
def iendBytes : List Byte :=
  [0x00#8, 0x00#8, 0x00#8, 0x00#8, 0x49#8, 0x45#8, 0x4E#8, 0x44#8, 0xAE#8, 0x42#8, 0x60#8, 0x82#8]

/-- The trailer of the IEND chunk, which CRC receives (R158, R232). -/
def iendCrc : Word := 0xAE426082#32

/-- `PLTE_ENTRY0` (R114, R163), the parameter of this PNGE (R7). -/
def plteEntry0 (plat : Platform) : List Byte := plat.plteEntry0.toList

/-! ### CFG -/

/-- The non-reserved bits of CFG (R33). -/
def cfgMask : Word := 0x031F03FF#32

/-- CFG.WIDTH, bits 9:0. -/
def cfgWidth (cfg : Word) : Nat := (cfg.extractLsb' 0 10).toNat

/-- CFG.DEPTH, bits 20:16. -/
def cfgDepth (cfg : Word) : Nat := (cfg.extractLsb' 16 5).toNat

/-- CFG.GREY, bit 24. -/
def cfgGrey (cfg : Word) : Bool := cfg.getLsbD 24

/-- CFG.IDX, bit 25, which also requests the palette. -/
def cfgIdx (cfg : Word) : Bool := cfg.getLsbD 25

/-- The colour types CFG can select (R34). -/
inductive ColourType where
  | greyscale
  | truecolour
  | indexed
  deriving DecidableEq, Repr

/-- The number of a colour type in the IHDR chunk (R34). -/
def colourCode : ColourType → Byte
  | .greyscale => 0#8
  | .truecolour => 2#8
  | .indexed => 3#8

/-- `CT(CFG)` (R34): undefined where both GREY and IDX are 1. -/
def colourType (cfg : Word) : Option ColourType :=
  match cfgGrey cfg, cfgIdx cfg with
  | true, false => some .greyscale
  | false, true => some .indexed
  | false, false => some .truecolour
  | true, true => none

/-- A CFG that has passed `ImgCfgOK`: width, depth and colour type. -/
structure ImgCfg where
  width : Nat
  depth : Nat
  ct : ColourType
  deriving DecidableEq, Repr

/-- The largest legal width (R7). -/
def widthMax : Nat := 512

/-- The legal bit depths (R7). -/
def depths : List Nat := [1, 2, 4, 8, 16]

/-- `ImgCfgOK(CFG)` (R191). -/
def imgCfgOk (cfg : Word) : Bool :=
  decide (1 ≤ cfgWidth cfg ∧ cfgWidth cfg ≤ widthMax) && depths.contains (cfgDepth cfg)
    && !(cfgGrey cfg && cfgIdx cfg)

/-- The image configuration of a CFG that passes `ImgCfgOK`; `none` where the check fails (R191). -/
def imgCfg (cfg : Word) : Option ImgCfg :=
  if imgCfgOk cfg then (colourType cfg).map fun ct => ⟨cfgWidth cfg, cfgDepth cfg, ct⟩ else none

/-- The palette flag of an image: it is CFG.IDX (R34). -/
def ImgCfg.palette (g : ImgCfg) : Bool := g.ct == .indexed

/-- `IHDRPayload(CFG)` (R113, R160). -/
def ihdrPayload (g : ImgCfg) : List Byte :=
  be32 (BitVec.ofNat 32 g.width) ++ be32 (BitVec.ofNat 32 g.width)
    ++ [BitVec.ofNat 8 g.depth, colourCode g.ct, 0x00#8, 0x00#8, 0x00#8]

/-- `TrnsLen(ct)` (R115). -/
def trnsLen : ColourType → Nat
  | .truecolour => 6
  | .greyscale => 2
  | .indexed => 1

/-- `TRNS_BYTES(ct)` (R115, R166), the parameter of this PNGE (R7). -/
def trnsPayload (plat : Platform) (g : ImgCfg) : List Byte :=
  match g.ct with
  | .truecolour => plat.trnsBytes.truecolour.toList
  | .greyscale => plat.trnsBytes.greyscale.toList
  | .indexed => plat.trnsBytes.indexed.toList

/-! ### CCFG -/

/-- The non-reserved bits of CCFG (R35). -/
def ccfgMask : Word := 0x00010F1F#32

/-- CCFG.LEVEL, bits 3:0. -/
def ccfgLevel (c : Word) : BitVec 4 := c.extractLsb' 0 4

/-- CCFG.LDEF, bit 4. -/
def ccfgLdef (c : Word) : Bool := c.getLsbD 4

/-- CCFG.STRAT, bits 10:8. -/
def ccfgStrat (c : Word) : BitVec 3 := c.extractLsb' 8 3

/-- CCFG.STRATO, bit 11. -/
def ccfgStrato (c : Word) : Bool := c.getLsbD 11

/-- CCFG.PROV, bit 16. -/
def ccfgProv (c : Word) : Provider := if c.getLsbD 16 then .b else .a

/-- The strategy codes of R112. -/
def strategyOfCode (n : Nat) : Option Strategy :=
  match n with
  | 0 => some .dflt
  | 1 => some .filtered
  | 2 => some .huffmanOnly
  | 3 => some .fixed
  | 4 => some .runLength
  | _ => none

/-- `LEVEL_B_MIN` (R201). -/
def levelBMin (plat : Platform) : Nat := plat.levelBMin.val

/-- `LEVEL_B_MAX` (R201). -/
def levelBMax (plat : Platform) : Nat := min 15 (plat.levelBMin.val + plat.levelBSpan.val)

/-- `CmpCfgOK(CCFG)` (R201): each provider's own range (R203). -/
def cmpCfgOk (plat : Platform) (c : Word) : Bool :=
  match ccfgProv c with
  | .a =>
    (ccfgLdef c || decide (1 ≤ (ccfgLevel c).toNat ∧ (ccfgLevel c).toNat ≤ 9))
      && (!ccfgStrato c || decide ((ccfgStrat c).toNat ≤ 4))
  | .b =>
    !ccfgLdef c
      && decide (levelBMin plat ≤ (ccfgLevel c).toNat ∧ (ccfgLevel c).toNat ≤ levelBMax plat)
      && !ccfgStrato c

/-- The level of a request (R202). -/
def requestLevel (c : Word) : Level :=
  match ccfgProv c, ccfgLdef c with
  | .a, true => .dflt
  | _, _ => .explicit (ccfgLevel c)

/-- The strategy of a request (R202). -/
def requestStrat (c : Word) : Option Strategy :=
  if ccfgStrato c then strategyOfCode (ccfgStrat c).toNat else none

end Sys2Proof.Machine
end

