-- ==== Sys2Proof/Machine/Sizer.lean ====
section
/-! DEFINITION. The pixel buffer sizer and the command SIZE (R190 to R194). -/

namespace Sys2Proof.Machine

/-- Division rounded up (R10). -/
def ceilDiv8 (n : Nat) : Nat := (n + 7) / 8

/-- `PixSize(CFG)` (R190), the source's formulas as written: one rounding over the whole image for truecolour and
indexed, one for each row for greyscale. -/
def pixSize (g : ImgCfg) : Nat :=
  match g.ct with
  | .truecolour => g.width * g.width * 3 * g.depth / 8 + g.width
  | .greyscale => (ceilDiv8 (g.width * g.depth) + 1) * g.width
  | .indexed => g.width * g.width * g.depth / 8 + g.width

/-- SIZE, OP 0x09 (R193). -/
def execSize (s : State) : Host.Outcome State Fault Refusal :=
  match imgCfg s.cfg with
  | none => .next (errorCompletion s .cfgInvalid s.port)
  | some g => .next (successCompletion (writeResult s (BitVec.ofNat 32 (pixSize g))) s.port)

end Sys2Proof.Machine
end

