-- ==== Sys2Proof/Machine/Compress.lean ====
section
/-! DEFINITION. The compression backend interface and the command COMPRESS (R200 to R214). -/

namespace Sys2Proof.Machine

/-- `Req(CFG, CCFG)` (R202). -/
def request (g : ImgCfg) (c : Word) : Request where
  prov := ccfgProv c
  level := requestLevel c
  strat := requestStrat c
  n := pixSize g

/-- How `Compress()` ends (R211): with an error, with the payload written, or with a response outside R209. -/
inductive Compressed where
  /-- the error, and the state with the memory port as the error leaves it -/
  | err (e : ErrCode) (s : State) (p : Port)
  /-- the payload length, the bound it was checked against, and the state after the exchange -/
  | done (len bnd : Nat) (s : State) (p : Port)
  /-- the response is longer than the bound -/
  | overrun
  deriving DecidableEq, Repr

/-- The response written to the scratch window (R209, R210): the payload, then free values up to the bound.
DESIGN CHOICE: where a write of it is refused, the bytes before it stay exact (R254), for BUILD with overlapping windows
(R85) too. See notes/assumptions/27.md. -/
def takeAnswer (s : State) (b : Nat) (a : Answer) : Compressed :=
  match a with
  | .fail => .err .backend s s.port
  | .ok [] => .err .backend s s.port
  | .ok (z0 :: z) =>
    if (z0 :: z).length ≤ b then
      match writeBytes (s.env noOverlap) s.scrBase.toNat (z0 :: z) s.port with
      | .refused p => .err .mem s p
      | .done _ p =>
        .done (z0 :: z).length b s (havoc (s.scrBase.toNat + (z0 :: z).length) (b - (z0 :: z).length) p)
    else .overrun

/-- `ScrCheck(P, n)` of R204 with `B = Bound_P(n)`: the error it raises, if it raises one. -/
def scrCheck (s : State) (b : Nat) : Option ErrCode :=
  if b > s.scrCap.toNat then some .alloc
  else if pastEnd s.scrBase.toNat b then some .addr
  else none

/-- `Compress()` (R211). -/
def runCompress (s : State) : Compressed :=
  match imgCfg s.cfg with
  | none => .err .cfgInvalid s s.port
  | some g =>
    if cmpCfgOk s.plat s.ccfg then
      match scrCheck s (bound s.plat (ccfgProv s.ccfg) (pixSize g)) with
      | some e => .err e s s.port
      | none =>
        takeAnswer (askBackend s (request g s.ccfg) (bound s.plat (ccfgProv s.ccfg) (pixSize g))).2
          (bound s.plat (ccfgProv s.ccfg) (pixSize g))
          (askBackend s (request g s.ccfg) (bound s.plat (ccfgProv s.ccfg) (pixSize g))).1
    else .err .cfgInvalid s s.port

/-- COMPRESS, OP 0x0A (R212). -/
def execCompress (s : State) : Host.Outcome State Fault Refusal :=
  match runCompress s with
  | .err e t p => .next (errorCompletion t e p)
  | .done len _ t p =>
    .next (successCompletion (writeIdatv (writeResult (writeIdatLen t len) (BitVec.ofNat 32 len)) true) p)
  | .overrun => .fault .backendOverrun

end Sys2Proof.Machine
end

