-- ==== Sys2Proof/Machine/Crc.lean ====
section
/-! DEFINITION. The CRC32 engine and the command CRC (R130 to R134). -/

namespace Sys2Proof.Machine

/-- One shift of the accumulator, least significant bit first (R130). -/
def crcBit (c : Word) : Word :=
  if c.getLsbD 0 then (c >>> 1) ^^^ 0xEDB88320#32 else c >>> 1

/-- `n` shifts of the accumulator. -/
def crcShift : Nat → Word → Word
  | 0, c => c
  | n + 1, c => crcShift n (crcBit c)

/-- One byte enters the accumulator (R130). -/
def crcByte (c : Word) (b : Byte) : Word := crcShift 8 (c ^^^ b.setWidth 32)

/-- The accumulator after the bytes of `s`, in string order (R130). -/
def crcUpdate (c : Word) (s : List Byte) : Word := s.foldl crcByte c

/-- `CRC32(s)` (R130). -/
def crc32 (s : List Byte) : Word := crcUpdate 0xFFFFFFFF#32 s ^^^ 0xFFFFFFFF#32

/-- `ChunkCRC(t, p)` (R131). -/
def chunkCrc (t : Word) (p : List Byte) : Word := crc32 (tag t ++ p)

/-- CRC, OP 0x01 (R132). The tag is not checked. -/
def execCrc (s : State) : Host.Outcome State Fault Refusal :=
  match srcCheck s with
  | some e => .next (errorCompletion s e s.port)
  | none =>
    match readBytes (s.env noOverlap) s.srcAddr.toNat s.srcLen.toNat s.port with
    | .refused p => .next (errorCompletion s .mem p)
    | .done x p =>
      .next (successCompletion (writeResult (writeCrc s (chunkCrc s.type x.1)) (chunkCrc s.type x.1)) p)

end Sys2Proof.Machine
end

