-- ==== Sys2Proof/Machine/Serialize.lean ====
section
/-! DEFINITION. The chunk serializer: EMIT_SIG, EMIT_CHUNK, EMIT_IEND, EMIT_IHDR, EMIT_PLTE, EMIT_TRNS and
EMIT_IDAT (R150 to R170). -/

namespace Sys2Proof.Machine

/-- `Chunk(t, p)` (R110, R150). -/
def chunk (t : Word) (p : List Byte) : List Byte :=
  be32 (BitVec.ofNat 32 p.length) ++ tag t ++ p ++ be32 (chunkCrc t p)

/-- `Emit(n, s)` of R151 and the success completion. `done` is the state whose other registers the command writes. -/
def emit (s : State) (bytes : List Byte) (done : State) : Host.Outcome State Fault Refusal :=
  match outCheck s bytes.length with
  | some e => .next (errorCompletion s e s.port)
  | none =>
    match writeBytes (s.env noOverlap) s.outAddr bytes s.port with
    | .refused p => .next (errorCompletion s .mem p)
    | .done _ p => .next (successCompletion (advanceOut done bytes.length) p)

/-- The CRC a chunk carries, and the CRC its command reports. They are `ChunkCRC` over the payload just copied
(R156); where a byte of the payload was open both are free, since both derive from it (R85, R87). -/
def copiedCrc (t : Word) (x : List Byte × Bool) (p : Port) : (Word × Word) × Port :=
  if x.2 then ((Config.freeWord p.draws, Config.freeWord (p.draws + 1)), ⟨p.mem, p.draws + 2⟩)
  else ((chunkCrc t x.1, chunkCrc t x.1), p)

/-- A chunk whose payload is copied from memory (R155, R170, R231): length and tag, then the payload byte by byte,
then the CRC. The result is the CRC the command reports. -/
def copyChunk (e : Env) (t : Word) (src len o : Nat) (p : Port) : Access Word :=
  (writeBytes e o (be32 (BitVec.ofNat 32 len) ++ tag t) p).andThen fun _ q =>
    (copyBytes e src (o + 8) len q).andThen fun x r =>
      (writeBytes e (o + 8 + len) (be32 (copiedCrc t x r).1.1) (copiedCrc t x r).2).andThen fun _ u =>
        .done (copiedCrc t x r).1.2 u

/-- EMIT_SIG, OP 0x02 (R152): CRC is unchanged. -/
def execEmitSig (s : State) : Host.Outcome State Fault Refusal :=
  emit s signature s

/-- EMIT_CHUNK, OP 0x03 (R155). -/
def execEmitChunk (s : State) : Host.Outcome State Fault Refusal :=
  if validTag s.type then
    match srcCheck s with
    | some e => .next (errorCompletion s e s.port)
    | none =>
      match outCheck s (s.srcLen.toNat + 12) with
      | some e => .next (errorCompletion s e s.port)
      | none =>
        match copyChunk (s.env (inBoth s.srcAddr.toNat s.srcLen.toNat s.outAddr (s.srcLen.toNat + 12)))
            s.type s.srcAddr.toNat s.srcLen.toNat s.outAddr s.port with
        | .refused p => .next (errorCompletion s .mem p)
        | .done c p => .next (successCompletion (advanceOut (writeCrc s c) (s.srcLen.toNat + 12)) p)
  else .next (errorCompletion s .cfgInvalid s.port)

/-- EMIT_IEND, OP 0x04 (R158): the constant, and its trailer in CRC. -/
def execEmitIend (s : State) : Host.Outcome State Fault Refusal :=
  emit s iendBytes (writeCrc s iendCrc)

/-- EMIT_IHDR, OP 0x05 (R161). -/
def execEmitIhdr (s : State) : Host.Outcome State Fault Refusal :=
  match imgCfg s.cfg with
  | none => .next (errorCompletion s .cfgInvalid s.port)
  | some g => emit s (chunk tagIHDR (ihdrPayload g)) (writeCrc s (chunkCrc tagIHDR (ihdrPayload g)))

/-- EMIT_PLTE, OP 0x06 (R164): it does not read CFG. -/
def execEmitPlte (s : State) : Host.Outcome State Fault Refusal :=
  emit s (chunk tagPLTE (plteEntry0 s.plat)) (writeCrc s (chunkCrc tagPLTE (plteEntry0 s.plat)))

/-- EMIT_TRNS, OP 0x07 (R167). -/
def execEmitTrns (s : State) : Host.Outcome State Fault Refusal :=
  match imgCfg s.cfg with
  | none => .next (errorCompletion s .cfgInvalid s.port)
  | some g =>
    emit s (chunk tagTRNS (trnsPayload s.plat g)) (writeCrc s (chunkCrc tagTRNS (trnsPayload s.plat g)))

/-- EMIT_IDAT, OP 0x08 (R169, R170). -/
def execEmitIdat (s : State) : Host.Outcome State Fault Refusal :=
  if s.status.idatv then
    if pastEnd s.scrBase.toNat s.idatLen.toNat then .next (errorCompletion s .addr s.port)
    else
      match outCheck s (s.idatLen.toNat + 12) with
      | some e => .next (errorCompletion s e s.port)
      | none =>
        match copyChunk (s.env (inBoth s.scrBase.toNat s.idatLen.toNat s.outAddr (s.idatLen.toNat + 12)))
            tagIDAT s.scrBase.toNat s.idatLen.toNat s.outAddr s.port with
        | .refused p => .next (errorCompletion s .mem p)
        | .done c p =>
          .next (successCompletion (writeIdatv (advanceOut (writeCrc s c) (s.idatLen.toNat + 12)) false) p)
  else .next (errorCompletion s .noidat s.port)

end Sys2Proof.Machine
end

