-- ==== Sys2Proof/Machine/Build.lean ====
section
/-! DEFINITION. The image assembler and the command BUILD (R230 to R235). -/

namespace Sys2Proof.Machine

/-- The part of an image before its IDAT chunk (R230): signature, IHDR, PLTE where the palette is requested, tRNS. -/
def imageHead (plat : Platform) (g : ImgCfg) : List Byte :=
  signature ++ chunk tagIHDR (ihdrPayload g)
    ++ (if g.palette then chunk tagPLTE (plteEntry0 plat) else [])
    ++ chunk tagTRNS (trnsPayload plat g)

/-- `Image(CFG, z)` (R117, R230) of a PNGE with these parameters. -/
def image (plat : Platform) (g : ImgCfg) (z : List Byte) : List Byte :=
  imageHead plat g ++ chunk tagIDAT z ++ iendBytes

/-- `ImageLen(CFG, L)` (R233). -/
def imageLen (g : ImgCfg) (len : Nat) : Nat :=
  8 + 25 + (if g.palette then 15 else 0) + (trnsLen g.ct + 12) + (len + 12) + 12

/-- Phase 3 of BUILD (R231): every byte ascending from `o`, the payload read back from the scratch window. -/
def writeImage (e : Env) (g : ImgCfg) (src len o : Nat) (p : Port) : Access Unit :=
  (writeBytes e o (imageHead e.plat g) p).andThen fun _ q =>
    (copyChunk e tagIDAT src len (o + (imageHead e.plat g).length) q).andThen fun _ r =>
      writeBytes e (o + (imageHead e.plat g).length + (len + 12)) iendBytes r

/-- The CRC a successful BUILD reports: the trailer of IEND (R232). Where the scratch window overlaps the output
range R85 leaves CRC open, and it is free. -/
def buildCrc (overlapLen : Nat) (p : Port) : Word × Port :=
  if overlapLen = 0 then (iendCrc, p) else (Config.freeWord p.draws, ⟨p.mem, p.draws + 1⟩)

/-- The addresses of the scratch window in the output range of an image of `T` bytes (R85). -/
def buildOverlap (s : State) (T : Nat) : Nat → Bool :=
  inBoth s.scrBase.toNat s.scrCap.toNat s.outAddr T

/-- The scratch bytes `Compress()` wrote that lie in the output range get free values (R85). -/
def openOverlap (s : State) (bnd T : Nat) (p : Port) : Port :=
  havoc (bothBase s.scrBase.toNat s.outAddr) (bothLen s.scrBase.toNat bnd s.outAddr T) p

/-- Phases 2 and 3 of BUILD (R231) and its completion (R232), after the payload of `len` bytes has been written.
DESIGN CHOICE: where the output check fails, the payload bytes written to the scratch window stay exact (R254), in an
overlap with the output range too, which R85 alone would leave open. See notes/assumptions/27.md. -/
def assemble (g : ImgCfg) (len bnd : Nat) (s : State) (p : Port) : Host.Outcome State Fault Refusal :=
  match outCheck s (imageLen g len) with
  | some e => .next (errorCompletion s e p)
  | none =>
    match writeImage (s.env (buildOverlap s (imageLen g len))) g s.scrBase.toNat len s.outAddr
        (openOverlap s bnd (imageLen g len) p) with
    | .refused q => .next (errorCompletion s .mem q)
    | .done _ q =>
      .next (successCompletion
        (writeIdatv (writeCrc (writeIdatLen (advanceOut s (imageLen g len)) len)
          (buildCrc (bothLen s.scrBase.toNat s.scrCap.toNat s.outAddr (imageLen g len)) q).1) false)
        (buildCrc (bothLen s.scrBase.toNat s.scrCap.toNat s.outAddr (imageLen g len)) q).2)

/-- BUILD, OP 0x0B (R231, R232). -/
def execBuild (s : State) : Host.Outcome State Fault Refusal :=
  match imgCfg s.cfg with
  | none => .next (errorCompletion s .cfgInvalid s.port)
  | some g =>
    match runCompress s with
    | .err e t p => .next (errorCompletion t e p)
    | .done len bnd t p => assemble g len bnd t p
    | .overrun => .fault .backendOverrun

end Sys2Proof.Machine
end

