-- ==== Sys2Proof/Machine/Flags.lean ====
section
/-! DEFINITION. STATUS and CTRL as words, the write-one-to-clear rule, and the interrupt output
(R25, R26, R31, R251, R260). -/

namespace Sys2Proof.Machine

/-- The number of an error code in `STATUS.ECODE` (R251). -/
def ErrCode.code : ErrCode → BitVec 4
  | .noError => 0#4
  | .illegal => 1#4
  | .cfgInvalid => 2#4
  | .alloc => 3#4
  | .backend => 4#4
  | .bounds => 5#4
  | .noidat => 6#4
  | .addr => 7#4
  | .mem => 8#4

/-- One bit of a register, from its flag. -/
def flagBit (b : Bool) : BitVec 1 := BitVec.ofBool b

/-- The word a read of STATUS returns: IDATV in bit 8, ECODE in 7:4, OVR, ERR, DONE, BUSY in 3 to 0, the reserved
bits 0 (R26). -/
def statusWord (t : Status) : Word :=
  0#23 ++ flagBit t.idatv ++ t.ecode.code ++ flagBit t.ovr ++ flagBit t.err ++ flagBit t.done ++ flagBit t.busy

/-- The word a read of CTRL returns: IE_ERR in bit 1, IE_DONE in bit 0 (R25). -/
def ctrlWord (c : Ctrl) : Word := 0#30 ++ flagBit c.ieErr ++ flagBit c.ieDone

/-- The fields a write of CTRL sets (R25). -/
def ctrlOfWord (w : Word) : Ctrl := ⟨w.getLsbD 0, w.getLsbD 1⟩

/-- A write of `w` to STATUS (R31). -/
def statusClear (w : Word) (t : Status) : Status :=
  { t with
    done := t.done && !w.getLsbD 1
    err := t.err && !w.getLsbD 2
    ecode := if w.getLsbD 2 then .noError else t.ecode
    ovr := t.ovr && !w.getLsbD 3 }

/-- STATUS.OVR is set: a write was dropped because the engine was busy (R30, R44). -/
def setOvr (s : State) : State := { s with status := { s.status with ovr := true } }

/-- The interrupt output (R260). -/
def State.irq (s : State) : Bool :=
  (s.ctrl.ieDone && s.status.done) || (s.ctrl.ieErr && s.status.err)

end Sys2Proof.Machine
end

