-- ==== Sys2Proof/Machine/Bus.lean ====
section
/-! DEFINITION. The register window and what the outside does to PNGE: register reads and writes (R22 to R45), bus
errors (R79), the host's own memory accesses (R87), the host's pseudo-instructions (R107), and reset (R281 to R284). -/

namespace Sys2Proof.Machine

/-! ### The register map -/

/-- The 17 registers of R22. -/
inductive Reg where
  | id
  | ctrl
  | status
  | cmd
  | cfg
  | ccfg
  | type
  | srcAddr
  | srcLen
  | outBase
  | outCap
  | outPos
  | scrBase
  | scrCap
  | idatLen
  | result
  | crc
  deriving DecidableEq, Repr

/-- The offset of a register in the window (R22). -/
def regOffset : Reg → Nat
  | .id => 0x00
  | .ctrl => 0x04
  | .status => 0x08
  | .cmd => 0x0C
  | .cfg => 0x10
  | .ccfg => 0x14
  | .type => 0x18
  | .srcAddr => 0x1C
  | .srcLen => 0x20
  | .outBase => 0x24
  | .outCap => 0x28
  | .outPos => 0x2C
  | .scrBase => 0x30
  | .scrCap => 0x34
  | .idatLen => 0x38
  | .result => 0x3C
  | .crc => 0x40

/-- The registers in the order of R22. -/
def allRegs : List Reg :=
  [.id, .ctrl, .status, .cmd, .cfg, .ccfg, .type, .srcAddr, .srcLen, .outBase, .outCap, .outPos, .scrBase, .scrCap,
   .idatLen, .result, .crc]

/-- The register at an offset; `none` at a reserved offset (R43). -/
def regAt (k : Nat) : Option Reg := allRegs.find? fun r => regOffset r == k

/-- `ID_VALUE` (R24). -/
def idValue : Word := 0x504E4707#32

/-- The registers whose write is dropped while BUSY = 1 (R44), CMD among them. -/
def isOperandReg : Reg → Bool
  | .cmd | .cfg | .ccfg | .type | .srcAddr | .srcLen | .outBase | .outCap | .outPos | .scrBase | .scrCap => true
  | .id | .ctrl | .status | .idatLen | .result | .crc => false

/-! ### Register reads -/

/-- The value a register holds, as a read with BUSY = 0 returns it (R22 to R42). -/
def regValue (s : State) : Reg → Word
  | .id => idValue
  | .ctrl => ctrlWord s.ctrl
  | .status => statusWord s.status
  | .cmd => 0#32
  | .cfg => s.cfg
  | .ccfg => s.ccfg
  | .type => s.type
  | .srcAddr => s.srcAddr
  | .srcLen => s.srcLen
  | .outBase => s.outBase
  | .outCap => s.outCap
  | .outPos => s.outPos
  | .scrBase => s.scrBase
  | .scrCap => s.scrCap
  | .idatLen => s.idatLen
  | .result => s.result
  | .crc => s.crc

/-- The registers whose read is unspecified while BUSY = 1 (R45). -/
def openWhileBusy : Reg → Bool
  | .outPos | .idatLen | .result | .crc => true
  | .id | .ctrl | .status | .cmd | .cfg | .ccfg | .type | .srcAddr | .srcLen | .outBase | .outCap | .scrBase
  | .scrCap => false

/-- A read of STATUS while BUSY = 1: IDATV is a free bit, the other fields are current (R45). -/
def busyStatus (s : State) : Word :=
  statusWord { s.status with idatv := (Config.freeWord s.draws).getLsbD 0 }

/-- The word a register read returns, and how many free values it draws (R45). -/
def readReg (s : State) (r : Reg) : Word × Nat :=
  if s.status.busy then
    if openWhileBusy r then (Config.freeWord s.draws, 1)
    else if r = .status then (busyStatus s, 1)
    else (regValue s r, 0)
  else (regValue s r, 0)

/-- The word a read of an offset returns; a reserved offset reads 0 (R43). -/
def readOffset (s : State) (k : Nat) : Word × Nat :=
  match regAt k with
  | some r => readReg s r
  | none => (0#32, 0)

/-! ### Register writes -/

/-- An accepted write of a command word to CMD (R27, R28, R32). How many inputs act before the command completes is
a free value (R296). A word that selects no command ends at once (R32, R101): none acts before that. -/
def acceptCommand (w : Word) (s : State) : State :=
  match decode w with
  | .ok _ => { startCommand w s with busyLeft := Config.freeLatency s.draws, draws := s.draws + 1 }
  | .error _ => startCommand w s

/-- What a write stores in a register that no busy engine guards (R22, R23, R25, R31, R32). Reserved bits are held as
0. Writes of RO registers are ignored. -/
def storeReg (r : Reg) (w : Word) (s : State) : State :=
  match r with
  | .id => s
  | .ctrl => { s with ctrl := ctrlOfWord w }
  | .status => { s with status := statusClear w s.status }
  | .cmd => acceptCommand w s
  | .cfg => { s with cfg := w &&& cfgMask }
  | .ccfg => { s with ccfg := w &&& ccfgMask }
  | .type => { s with type := w }
  | .srcAddr => { s with srcAddr := w }
  | .srcLen => { s with srcLen := w }
  | .outBase => { s with outBase := w }
  | .outCap => { s with outCap := w }
  | .outPos => { s with outPos := w }
  | .scrBase => { s with scrBase := w }
  | .scrCap => { s with scrCap := w }
  | .idatLen => s
  | .result => s
  | .crc => s

/-- A host write of a register: dropped, with OVR set, where R44 says so. -/
def writeReg (r : Reg) (w : Word) (s : State) : State :=
  if s.status.busy && isOperandReg r then setOvr s else storeReg r w s

/-- A write at an offset; a reserved offset ignores it (R43). -/
def writeOffset (s : State) (k : Nat) (w : Word) : State :=
  match regAt k with
  | some r => writeReg r w s
  | none => s

/-! ### Bus transactions -/

/-- `REG_BASE` (R7). -/
def regBase (plat : Platform) : Nat := 256 * plat.regPage

/-- What the bus makes of an access (R79). -/
inductive BusAccess where
  /-- an aligned 32-bit access at this offset -/
  | word (k : Nat)
  /-- any other access that touches the window -/
  | error
  /-- an access that touches no byte of the window -/
  | elsewhere
  deriving DecidableEq, Repr

/-- The access of `size` bytes at bus address `a` (R79). -/
def busAccess (plat : Platform) (a size : Nat) : BusAccess :=
  if a + size ≤ regBase plat ∨ regBase plat + 256 ≤ a ∨ size = 0 then .elsewhere
  else if size = 4 ∧ regBase plat ≤ a ∧ a % 4 = 0 then .word (a - regBase plat)
  else .error

/-- A bus write. -/
def busWrite (s : State) (a size : Nat) (w : Word) : State :=
  match busAccess s.plat a size with
  | .elsewhere => { s with resp := .notSelected }
  | .error => { s with resp := .busError }
  | .word k => if s.rst then { s with resp := .notAccepted } else { writeOffset s k w with resp := .written }

/-- A bus read. -/
def busRead (s : State) (a size : Nat) : State :=
  match busAccess s.plat a size with
  | .elsewhere => { s with resp := .notSelected }
  | .error => { s with resp := .busError }
  | .word k =>
    if s.rst then { s with resp := .notAccepted }
    else { s with resp := .data (readOffset s k).1, draws := s.draws + (readOffset s k).2 }

/-! ### The host's memory accesses -/

/-- The commands that write the output window (R70). -/
def usesOutput : Instr → Bool
  | .emitSig | .emitChunk | .emitIend | .emitIhdr | .emitPlte | .emitTrns | .emitIdat | .build => true
  | .crc | .size | .compress => false

/-- The commands that read or write the scratch window (R70). -/
def usesScratch : Instr → Bool
  | .emitIdat | .compress | .build => true
  | .crc | .emitSig | .emitChunk | .emitIend | .emitIhdr | .emitPlte | .emitTrns | .size => false

/-- A host read of address `a` is open: it lies in the output or scratch window of the running command (R87).
DESIGN CHOICE: once the command has completed no read is open, although R86 and R88 order only the accesses that follow
a read of STATUS with BUSY = 0. See notes/assumptions/25.md. -/
def hostReadOpen (s : State) (a : Nat) : Bool :=
  match s.pending with
  | none => false
  | some w =>
    match decode w with
    | .error _ => false
    | .ok i =>
      (usesOutput i && inRange s.outBase.toNat s.outCap.toNat a)
        || (usesScratch i && inRange s.scrBase.toNat (max s.scrCap.toNat s.idatLen.toNat) a)

/-- The host writes a byte by its own path. While a command runs the address is noted (R87). -/
def hostWrite (s : State) (a : Word) (b : Byte) : State :=
  { s with
    mem := s.mem.set a.toNat b
    raced := if s.status.busy then a.toNat :: s.raced else s.raced
    resp := .quiet }

/-- The host reads a byte by its own path. With no command running it sees every write of the completed ones
(notes/assumptions/25.md). -/
def hostRead (s : State) (a : Word) : State :=
  if hostReadOpen s a.toNat then { s with resp := .byte (Config.freeByte s.draws), draws := s.draws + 1 }
  else { s with resp := .byte (s.peek a.toNat) }

/-! ### Reset -/

/-- How long the output range of a command can be (R80, R282). For BUILD the payload is at most the bound (R209). -/
def outRangeLen (s : State) : Instr → Nat
  | .crc => 0
  | .emitSig => 8
  | .emitChunk => s.srcLen.toNat + 12
  | .emitIend => 12
  | .emitIhdr => 25
  | .emitPlte => 15
  | .emitTrns =>
    match imgCfg s.cfg with
    | some g => trnsLen g.ct + 12
    | none => 0
  | .emitIdat => s.idatLen.toNat + 12
  | .size => 0
  | .compress => 0
  | .build =>
    match imgCfg s.cfg with
    | some g => imageLen g (bound s.plat (ccfgProv s.ccfg) (pixSize g))
    | none => 0

/-- The length of the bound-sized scratch range of a command (R282). -/
def scrRangeLen (s : State) : Instr → Nat
  | .compress | .build =>
    match imgCfg s.cfg with
    | some g => bound s.plat (ccfgProv s.ccfg) (pixSize g)
    | none => 0
  | .crc | .emitSig | .emitChunk | .emitIend | .emitIhdr | .emitPlte | .emitTrns | .emitIdat | .size => 0

/-- The part of a range that lies in the memory space. -/
def clipLen (base n : Nat) : Nat := min n (addrLimit - base)

/-- What reset does to the memory of a running command: its output range and its bound-sized scratch range get free
values (R282). With no command running memory is unchanged (R283). -/
def abandon (s : State) : Port :=
  match s.pending with
  | none => s.port
  | some w =>
    match decode w with
    | .error _ => s.port
    | .ok i =>
      havoc s.scrBase.toNat (clipLen s.scrBase.toNat (scrRangeLen s i))
        (havoc s.outAddr (clipLen s.outAddr (outRangeLen s i)) s.port)

/-- `rst` is asserted (R280 to R284): registers take their reset values, a running command is abandoned, and the
backend is reset with PNGE, so no answer of it outlives the reset. -/
def resetState (s : State) : State :=
  { State.reset with
    rst := true
    mem := (abandon s).mem
    draws := (abandon s).draws
    inputs := s.inputs
    plat := s.plat }

/-! ### Inputs -/

/-- WAIT (R107): one read of STATUS; the loop goes on while BUSY is 1. DESIGN CHOICE: in reset, where the read is not
accepted (R281), the loop ends after that one read. See notes/assumptions/26.md. -/
def waitIdle (s : State) : State :=
  if s.rst then { s with resp := .notAccepted }
  else if s.status.busy then
    { s with resp := .data (busyStatus s), draws := s.draws + 1, inputs := .waitIdle :: s.inputs }
  else { s with resp := .data (statusWord s.status) }

/-- What one input does. -/
def performInput (x : Input) (s : State) : State :=
  match x with
  | .busWrite a size w => busWrite s a size w
  | .busRead a size => busRead s a size
  | .memWrite a b => hostWrite s a b
  | .memRead a => hostRead s a
  | .waitIdle => waitIdle s
  | .assertReset => resetState s
  | .releaseReset => { s with rst := false, resp := .quiet }

/-- The outside's turn: the next input acts. With no input left nothing happens, and all state survives (R269). -/
def inputTurn (s : State) : State :=
  match s.inputs with
  | [] => s
  | x :: rest => performInput x { s with inputs := rest, busyLeft := s.busyLeft - 1 }

/-- It is the engine's turn: the latency is used up, or the outside does nothing more (R296, R297). -/
def engineTurn (s : State) : Bool := s.busyLeft == 0 || s.inputs.isEmpty

/-- A pending word that selects no command completes with ILLEGAL (R101). -/
def illegalWord (s : State) : State := errorCompletion s .illegal s.port

/-! ### The host's programs (R106, R107) -/

/-- `WR REG, imm32` (R106). -/
def hostWr (plat : Platform) (r : Reg) (w : Word) : Input := .busWrite (regBase plat + regOffset r) 4 w

/-- `RD REG` (R106). -/
def hostRd (plat : Platform) (r : Reg) : Input := .busRead (regBase plat + regOffset r) 4

/-- `CMD MNEMONIC` (R106). -/
def hostCmd (plat : Platform) (i : Instr) : Input := hostWr plat .cmd (encode i)

/-- `RUN MNEMONIC` (R107). -/
def hostRun (plat : Platform) (i : Instr) : List Input := [hostCmd plat i, .waitIdle]

/-- `CLR` (R107). -/
def hostClr (plat : Platform) : List Input := [hostWr plat .status 0x0000000E#32]

/-- `OUTWIN b, c` (R107). -/
def hostOutWin (plat : Platform) (b c : Word) : List Input :=
  [hostWr plat .outBase b, hostWr plat .outCap c, hostWr plat .outPos 0#32]

/-- `SRCWIN a, n` (R107). -/
def hostSrcWin (plat : Platform) (a n : Word) : List Input := [hostWr plat .srcAddr a, hostWr plat .srcLen n]

/-- `SCRWIN b, c` (R107). -/
def hostScrWin (plat : Platform) (b c : Word) : List Input := [hostWr plat .scrBase b, hostWr plat .scrCap c]

end Sys2Proof.Machine
end

