-- ==== Sys2Proof/Machine/Dispatch.lean ====
section
/-! DEFINITION. One arm for each command: the meaning it calls. -/

namespace Sys2Proof.Machine

def exec (i : Instr) (s : State) : Host.Outcome State Fault Refusal :=
  match i with
  | .crc => Sys2Proof.Machine.execCrc s
  | .emitSig => Sys2Proof.Machine.execEmitSig s
  | .emitChunk => Sys2Proof.Machine.execEmitChunk s
  | .emitIend => Sys2Proof.Machine.execEmitIend s
  | .emitIhdr => Sys2Proof.Machine.execEmitIhdr s
  | .emitPlte => Sys2Proof.Machine.execEmitPlte s
  | .emitTrns => Sys2Proof.Machine.execEmitTrns s
  | .emitIdat => Sys2Proof.Machine.execEmitIdat s
  | .size => Sys2Proof.Machine.execSize s
  | .compress => Sys2Proof.Machine.execCompress s
  | .build => Sys2Proof.Machine.execBuild s

end Sys2Proof.Machine
end

