-- ==== Sys2Proof/Machine/Step.lean ====
section
/-! DEFINITION. One step of the machine: the engine runs the pending command, or the outside acts. -/

namespace Sys2Proof.Machine

/-- One step. PNGE has no program counter and fetches no instructions (R21, R90): the pending command word is what
it decodes and runs, in one transition (R5). In reset the engine does nothing (R281). -/
def step (s : State) : Host.Outcome State Fault Refusal :=
  if s.rst then .next (inputTurn s)
  else
    match s.pending with
    | none => .next (inputTurn s)
    | some w =>
      if engineTurn s then
        match decode w with
        | .ok i => exec i s
        | .error _ => .next (illegalWord s)
      else .next (inputTurn s)

/-- The state in which the next step runs the command word whose bits are `w`: the word has been accepted by CMD,
the engine's turn has come, and PNGE is out of reset. -/
def State.withFetchWord (s : State) (nbits w : Nat) : State :=
  startCommand (BitVec.ofNat 32 (w % 2 ^ nbits)) { s with rst := false }

end Sys2Proof.Machine
end

