-- ==== Sys2Proof/Safety.lean ====
section
/-! DEFINITION. The invariant of the machine, what a safe run is, and the terms the statements are written in. -/

namespace Sys2Proof.Machine

/-- What holds of every state a run reaches: the memory is in its canonical form; BUSY says that a command is
pending, and then DONE and ERR are 0 (R27, R28); DONE and ERR never hold together; ECODE is 0 exactly when ERR is 0
(R28); the reserved bits of CFG and CCFG are 0 (R23); a held payload is not empty (R207); nothing is noted of a
race, and no latency is left, while no command runs; in reset the flags and the interrupt enables are 0 (R280). -/
structure StateInv (s : State) : Prop where
  memWf : Memory.wf s.mem = true
  busyPending : s.status.busy = s.pending.isSome
  busyClear : s.status.busy = true → s.status.done = false ∧ s.status.err = false
  oneOutcome : ¬(s.status.done = true ∧ s.status.err = true)
  errCode : s.status.err = true ↔ s.status.ecode ≠ .noError
  cfgReserved : s.cfg &&& cfgMask = s.cfg
  ccfgReserved : s.ccfg &&& ccfgMask = s.ccfg
  payload : s.status.idatv = true → s.idatLen ≠ 0#32
  idle : s.status.busy = false → s.raced = [] ∧ s.busyLeft = 0
  inReset : s.rst = true → s.ctrl = State.reset.ctrl ∧ s.status = State.reset.status

/-- The backend keeps R206 to R209 for a request: a response is not longer than the bound, and it inflates to the
blank buffer. `inflate` is the OPEN inverse of each provider (`Inflate_A`, `Inflate_B` in R7): a hypothesis on the
backend that the engine does not compute (R208). An empty response counts as a failure (R207). -/
def answerAdmissible (inflate : Provider → List Byte → Option (List Byte)) (plat : Platform) (r : Request) :
    Answer → Prop
  | .fail => True
  | .ok z => z.length ≤ bound plat r.prov r.n ∧ (z ≠ [] → inflate r.prov z = some r.input)

/-- A run is safe as long as no step faults: the only fault is a backend response longer than its bound (R270). -/
def noFault (x : Host.Outcome State Fault Refusal) : Prop := ∀ f, x ≠ .fault f

/-! ### The terms of the statements -/

/-- The memory port admits every access of this direction to the `n` addresses from `base` on (R72). -/
def admits (s : State) (base n : Nat) (dir : Dir) : Prop :=
  ∀ a, base ≤ a → a < base + n → memOk s.plat a dir = true

/-- The host has written none of the `n` addresses from `base` on while the command ran (R87). -/
def unraced (s : State) (base n : Nat) : Prop := ∀ a, base ≤ a → a < base + n → a ∉ s.raced

/-- `OutCheck(n)` passes (R80), for `n > 0`. -/
def outFits (s : State) (n : Nat) : Prop :=
  s.outPos.toNat + n ≤ s.outCap.toNat ∧ s.outBase.toNat + s.outPos.toNat + n ≤ addrLimit

/-- The `n` bytes of memory from `base` on. -/
def bytesAt (s : State) (base n : Nat) : List Byte := (List.range n).map fun k => s.peek (base + k)

/-- No address lies in both ranges. -/
def disjoint (b1 n1 b2 n2 : Nat) : Prop := ∀ a, ¬((b1 ≤ a ∧ a < b1 + n1) ∧ (b2 ≤ a ∧ a < b2 + n2))

/-- Every byte outside the `n` addresses from `base` on reads as before. -/
def sameOutside (s t : State) (base n : Nat) : Prop :=
  ∀ a, a < base ∨ base + n ≤ a → t.peek a = s.peek a

/-- The bytes `bs` stand in memory from `base` on, but for addresses the host raced for in `s` (R87). -/
def standsAt (s t : State) (base : Nat) (bs : List Byte) : Prop :=
  ∀ k b, bs[k]? = some b → base + k ∉ s.raced → t.peek (base + k) = b

/-- `t` is the error completion of `s` with code `e` (R254, R255) that changes memory in no way: STATUS changes as
R254 says, the command is no longer pending, and nothing else changes. -/
def failed (s : State) (e : ErrCode) : State :=
  { s with
    status := { s.status with busy := false, err := true, ecode := e, idatv := false }
    pending := none
    busyLeft := 0
    raced := [] }

/-- STATUS after a success completion (R256). -/
def okStatus (s : State) : Status := { s.status with busy := false, done := true }

/-- A success completion of an output command (R151): OUT_POS has moved by `n` and does not wrap, RESULT is `n`, CRC
is `c`, IDATV is `v`, STATUS is as R256 says; every other register, and every byte outside the `n` bytes at
`OUT_BASE + OUT_POS`, is as before. -/
def outputDone (s t : State) (n : Nat) (c : Word) (v : Bool) : Prop :=
  t = { s with
        outPos := t.outPos, result := t.result, crc := c,
        status := { okStatus s with idatv := v },
        pending := none, busyLeft := 0, raced := [], mem := t.mem, draws := t.draws }
    ∧ t.outPos.toNat = s.outPos.toNat + n
    ∧ t.result.toNat = n
    ∧ sameOutside s t (s.outBase.toNat + s.outPos.toNat) n

/-- The bytes a fixed-content command emits in state `s` (R152, R158, R161, R164, R167), where its configuration
passes the check; `none` for the other commands and for a configuration that fails. -/
def fixedBytes (s : State) : Instr → Option (List Byte)
  | .emitSig => some signature
  | .emitIend => some iendBytes
  | .emitPlte => some (chunk tagPLTE (plteEntry0 s.plat))
  | .emitIhdr => (imgCfg s.cfg).map fun g => chunk tagIHDR (ihdrPayload g)
  | .emitTrns => (imgCfg s.cfg).map fun g => chunk tagTRNS (trnsPayload s.plat g)
  | .crc | .emitChunk | .emitIdat | .size | .compress | .build => none

/-- A chunk whose payload its command copies from memory: the tag, and where the payload stands. -/
structure Copied where
  tag : Word
  src : Nat
  len : Nat
  deriving DecidableEq, Repr

/-- The chunk EMIT_CHUNK or EMIT_IDAT copies in state `s` (R155, R170), where its first check passes; `none` for the
other commands, for a tag outside the enumeration and with no payload held. -/
def copied (s : State) : Instr → Option Copied
  | .emitChunk => if validTag s.type then some ⟨s.type, s.srcAddr.toNat, s.srcLen.toNat⟩ else none
  | .emitIdat => if s.status.idatv then some ⟨tagIDAT, s.scrBase.toNat, s.idatLen.toNat⟩ else none
  | .crc | .emitSig | .emitIend | .emitIhdr | .emitPlte | .emitTrns | .size | .compress | .build => none

/-- Where the payload stands in an image (R117, R231): after the chunks before IDAT, and IDAT's length and tag. -/
def payloadOffset (g : ImgCfg) : Nat :=
  8 + 25 + (if g.ct = .indexed then 15 else 0) + (trnsLen g.ct + 12) + 8

/-- The errors a command can raise (the rows of R252). -/
def allowedErrors : Instr → List ErrCode
  | .crc => [.addr, .mem]
  | .emitSig => [.bounds, .addr, .mem]
  | .emitChunk => [.cfgInvalid, .bounds, .addr, .mem]
  | .emitIend => [.bounds, .addr, .mem]
  | .emitIhdr => [.cfgInvalid, .bounds, .addr, .mem]
  | .emitPlte => [.bounds, .addr, .mem]
  | .emitTrns => [.cfgInvalid, .bounds, .addr, .mem]
  | .emitIdat => [.bounds, .noidat, .addr, .mem]
  | .size => [.cfgInvalid]
  | .compress => [.cfgInvalid, .alloc, .backend, .addr, .mem]
  | .build => [.cfgInvalid, .alloc, .backend, .bounds, .addr, .mem]

/-- A list of commands, each accepted by CMD and run to its completion (R32, R256); a stop ends it. -/
def runAll : List Instr → State → Host.Outcome State Fault Refusal
  | [], s => .next s
  | i :: t, s =>
    match exec i (startCommand (encode i) s) with
    | .next u => runAll t u
    | .fault f => .fault f
    | .refused r => .refused r

end Sys2Proof.Machine
end

