-- ==== Sys2Proof/Certificates/Slice0/Obligations.lean ====
section
/-! DEFINITION. The statements for the provers. -/

open Sys2Proof Sys2Proof.Machine

/-! ### Encoding -/

/-- Words written out from the table of R102 decode to the commands they stand for, and a word of zeros, OP 0x0C and
a word with bit 8 set select none. -/
def Obligations.TableWordsDecode : Prop :=
  decode 0b00000000000000000000000000000001#32 = .ok .crc
    ∧ decode 0b00000000000000000000000000000011#32 = .ok .emitChunk
    ∧ decode 0b00000000000000000000000000001001#32 = .ok .size
    ∧ decode 0b00000000000000000000000000001010#32 = .ok .compress
    ∧ decode 0b00000000000000000000000000001011#32 = .ok .build
    ∧ decode 0x00000000#32 = .error .noSuchOpcode
    ∧ decode 0x0000000C#32 = .error .noSuchOpcode
    ∧ decode 0x00000101#32 = .error .mustBeZero

/-- R101, R102: over all 2^32 words, a word decodes to a command exactly when it is that command's word. -/
def Obligations.DecodeIsExactlyTheTable : Prop :=
  ∀ (w : Word) (i : Instr), decode w = .ok i ↔ w = encode i

/-- R104: a pending word is illegal exactly when OP is 0x00, or 0x0C to 0xFF, or a bit of [31:8] is set; and where it
is, the engine's turn is the error completion with ILLEGAL and nothing else. -/
def Obligations.IllegalWordsComplete : Prop :=
  ∀ (s : State) (w : Word),
    ((∀ i, decode w ≠ .ok i) ↔ w.toNat % 256 = 0 ∨ 0x0C ≤ w.toNat % 256 ∨ w.toNat / 256 ≠ 0)
      ∧ (s.rst = false → s.pending = some w → (s.busyLeft = 0 ∨ s.inputs = []) → (∀ i, decode w ≠ .ok i) →
          step s = .next (failed s .illegal))

/-! ### The step -/

/-- A step runs the pending command: with PNGE out of reset and the engine's turn come (the latency used up, or
nothing more from outside: notes/assumptions/4.md), the step is `exec` of the command the pending word decodes to. -/
def Obligations.StepRunsThePendingCommand : Prop :=
  ∀ (s : State) (w : Word) (i : Instr), s.rst = false → s.pending = some w → decode w = .ok i →
    (s.busyLeft = 0 ∨ s.inputs = []) → step s = exec i s

/-- In every other state the outside acts: the next input, with the latency counted down (notes/assumptions/4.md);
with no input left the idle machine keeps all its state (R269). -/
def Obligations.StepLetsTheOutsideAct : Prop :=
  ∀ s : State, (s.rst = true ∨ s.pending = none ∨ (s.busyLeft ≠ 0 ∧ s.inputs ≠ [])) →
    (∀ x rest, s.inputs = x :: rest →
        step s = .next (performInput x { s with inputs := rest, busyLeft := s.busyLeft - 1 }))
      ∧ (s.inputs = [] → step s = .next s)

/-- R297: a command accepted and pending completes: after at most one step more than the latency left, BUSY is 0 and
exactly one of DONE and ERR is 1, unless reset is asserted meanwhile or the backend overruns its bound (R270). -/
def Obligations.AcceptedCommandFinishes : Prop :=
  ∀ (s : State) (w : Word), s.rst = false → s.pending = some w → s.status.busy = true → s.status.done = false →
    s.status.err = false → .assertReset ∉ s.inputs →
    ∃ k, k ≤ s.busyLeft + 1 ∧
      ((∃ t : State, Sys2Proof.core.run k s = .next t ∧ t.status.busy = false ∧ t.pending = none
          ∧ (t.status.done = !t.status.err))
        ∨ Sys2Proof.core.run k s = .fault Fault.backendOverrun)

/-! ### Reset -/

/-- R280: after reset ID reads 0x504E4707 and every other offset of the window 0; no command is pending, no request
has been sent, `irq` is deasserted; the commands that need CFG complete with CFG_INVALID; and PLTE_ENTRY0 and
TRNS_BYTES have the values R7 decides (that the state after reset holds them: notes/assumptions/19.md). -/
def Obligations.ResetValues : Prop :=
  readOffset State.reset 0x00 = (0x504E4707#32, 0)
    ∧ (∀ k, 0 < k → readOffset State.reset k = (0#32, 0))
    ∧ State.reset.pending = none ∧ State.reset.sent = [] ∧ State.reset.irq = false
    ∧ (∀ i, i = .emitIhdr ∨ i = .emitTrns ∨ i = .size ∨ i = .compress ∨ i = .build →
        exec i State.reset = .next (failed State.reset .cfgInvalid))
    ∧ State.reset.plat.plteEntry0.toList = [0x00#8, 0x00#8, 0x00#8]
    ∧ State.reset.plat.trnsBytes.truecolour.toList = List.replicate 6 0x00#8
    ∧ State.reset.plat.trnsBytes.greyscale.toList = List.replicate 2 0x00#8
    ∧ State.reset.plat.trnsBytes.indexed.toList = List.replicate 1 0x00#8

/-- R281 to R284: asserting `rst` gives the registers their reset values and abandons a command; with no command
pending no byte of memory changes, and with one only bytes of its output range and its bound-sized scratch range;
releasing `rst` changes nothing else. -/
def Obligations.ResetInputResets : Prop :=
  ∀ s : State,
    (performInput .assertReset s
        = { State.reset with
            rst := true, inputs := s.inputs, plat := s.plat,
            mem := (performInput .assertReset s).mem, draws := (performInput .assertReset s).draws })
      ∧ (s.pending = none → (performInput .assertReset s).mem = s.mem)
      ∧ (∀ i a, s.pending = some (encode i) →
          (a < s.outBase.toNat + s.outPos.toNat ∨ s.outBase.toNat + s.outPos.toNat + outRangeLen s i ≤ a) →
          (a < s.scrBase.toNat ∨ s.scrBase.toNat + scrRangeLen s i ≤ a) →
          (performInput .assertReset s).peek a = s.peek a)
      ∧ performInput .releaseReset s = { s with rst := false, resp := .quiet }

/-! ### The register window -/

/-- R23, with the masks of R25, R33 and R35: with BUSY = 0 a written RW register reads back the data with its
reserved bits 0, and every other register reads as before. R24, R25, R36 to R42: with BUSY = 0 a read returns the value
held; ID and CTRL read theirs in every state, CTRL with IE_DONE in bit 0 and IE_ERR in bit 1. -/
def Obligations.RegisterWriteReadsBack : Prop :=
  (∀ (s : State) (r : Reg) (m : Word) (w : Word), s.status.busy = false →
      (r, m) ∈ [(Reg.ctrl, 0x00000003#32), (.cfg, 0x031F03FF#32), (.ccfg, 0x00010F1F#32), (.type, 0xFFFFFFFF#32),
        (.srcAddr, 0xFFFFFFFF#32), (.srcLen, 0xFFFFFFFF#32), (.outBase, 0xFFFFFFFF#32), (.outCap, 0xFFFFFFFF#32),
        (.outPos, 0xFFFFFFFF#32), (.scrBase, 0xFFFFFFFF#32), (.scrCap, 0xFFFFFFFF#32)] →
      readReg (writeReg r w s) r = (w &&& m, 0)
        ∧ ∀ r', r' ≠ r → readReg (writeReg r w s) r' = readReg s r')
    ∧ (∀ s : State, s.status.busy = false →
        readReg s .cfg = (s.cfg, 0) ∧ readReg s .ccfg = (s.ccfg, 0) ∧ readReg s .type = (s.type, 0)
          ∧ readReg s .srcAddr = (s.srcAddr, 0) ∧ readReg s .srcLen = (s.srcLen, 0)
          ∧ readReg s .outBase = (s.outBase, 0) ∧ readReg s .outCap = (s.outCap, 0)
          ∧ readReg s .outPos = (s.outPos, 0) ∧ readReg s .scrBase = (s.scrBase, 0)
          ∧ readReg s .scrCap = (s.scrCap, 0) ∧ readReg s .idatLen = (s.idatLen, 0)
          ∧ readReg s .result = (s.result, 0) ∧ readReg s .crc = (s.crc, 0))
    ∧ ∀ s : State, readReg s .id = (0x504E4707#32, 0)
        ∧ (readReg s .ctrl).2 = 0
        ∧ ∀ k, (readReg s .ctrl).1.getLsbD k
            = (if k = 0 then s.ctrl.ieDone else if k = 1 then s.ctrl.ieErr else false)

/-- R22: with `rst` deasserted an aligned word write or read at `REG_BASE` plus a register's offset reaches that
register. R281: with `rst` asserted no word access to the window is accepted, and none changes a register; that it gets
the answer `notAccepted` is the model's choice (notes/assumptions/14.md). -/
def Obligations.BusReachesEveryRegister : Prop :=
  ∀ (s : State) (w : Word),
    (s.rst = false → ∀ r : Reg,
        performInput (.busWrite (regBase s.plat + regOffset r) 4 w) s = { writeReg r w s with resp := .written }
          ∧ performInput (.busRead (regBase s.plat + regOffset r) 4) s
              = { s with resp := .data (readReg s r).1, draws := s.draws + (readReg s r).2 })
      ∧ (s.rst = true → ∀ k, k ≤ 0xFC → k % 4 = 0 →
          performInput (.busWrite (regBase s.plat + k) 4 w) s = { s with resp := .notAccepted }
            ∧ performInput (.busRead (regBase s.plat + k) 4) s = { s with resp := .notAccepted })

/-- R79, R259: any other access that touches the window, a byte or half-word access or an address that is not a
multiple of 4, gets a bus error and changes no state of PNGE. That this covers accesses wider than a word or reaching in
from below (notes/assumptions/15.md), and that it holds in reset too (notes/assumptions/14.md), are the model's
choices. -/
def Obligations.BusErrorsChangeNothing : Prop :=
  ∀ (s : State) (a size : Nat) (w : Word), 0 < size → a < regBase s.plat + 256 → regBase s.plat < a + size →
    (size ≠ 4 ∨ a % 4 ≠ 0) →
    performInput (.busWrite a size w) s = { s with resp := .busError }
      ∧ performInput (.busRead a size) s = { s with resp := .busError }

/-- R43: a reserved offset reads 0, and a write to it has no effect and does not set OVR. -/
def Obligations.ReservedOffsetsReadZero : Prop :=
  ∀ (s : State) (k : Nat) (w : Word), 0x44 ≤ k → k ≤ 0xFC → k % 4 = 0 →
    readOffset s k = (0#32, 0) ∧ writeOffset s k w = s

/-- R31: what a write to STATUS clears; it is accepted while busy, and can then change only OVR. The word a read of
STATUS returns, with the places of R26 and the codes of R251: BUSY, DONE, ERR, OVR in bits 0 to 3, ECODE in 7:4, the
reserved bits 0, busy or not; IDATV in bit 8 with BUSY = 0 (R45 leaves that bit open while busy). -/
def Obligations.StatusWriteClears : Prop :=
  ∀ (s : State) (w : Word),
    writeReg .status w s
        = { s with status := { s.status with
            done := s.status.done && !w.getLsbD 1
            err := s.status.err && !w.getLsbD 2
            ecode := if w.getLsbD 2 then .noError else s.status.ecode
            ovr := s.status.ovr && !w.getLsbD 3 } }
      ∧ (StateInv s → s.status.busy = true →
          writeReg .status w s = { s with status := { s.status with ovr := s.status.ovr && !w.getLsbD 3 } })
      ∧ (readReg s .status).1.getLsbD 0 = s.status.busy ∧ (readReg s .status).1.getLsbD 1 = s.status.done
      ∧ (readReg s .status).1.getLsbD 2 = s.status.err ∧ (readReg s .status).1.getLsbD 3 = s.status.ovr
      ∧ ((readReg s .status).1.extractLsb' 4 4).toNat
          = (match s.status.ecode with
            | .noError => 0
            | .illegal => 1
            | .cfgInvalid => 2
            | .alloc => 3
            | .backend => 4
            | .bounds => 5
            | .noidat => 6
            | .addr => 7
            | .mem => 8)
      ∧ (∀ k, 9 ≤ k → (readReg s .status).1.getLsbD k = false)
      ∧ (s.status.busy = false → (readReg s .status).1.getLsbD 8 = s.status.idatv)

/-- R32: a write to CMD with BUSY = 0 is accepted, whatever the word: BUSY is set, DONE, ERR and
ECODE are cleared, the word is pending, OVR, IDATV and every other register keep their values; a word that selects no
command ends at once with ILLEGAL; with BUSY = 1 the write is dropped and sets OVR; CMD reads 0. That "at once" is the
very next step is the model's reading (DEDUCED, notes/assumptions/4.md). -/
def Obligations.CommandWordsAreAccepted : Prop :=
  ∀ (s : State) (w : Word),
    (s.status.busy = false →
        writeReg .cmd w s
          = { s with
              status := ⟨true, false, false, s.status.ovr, .noError, s.status.idatv⟩
              pending := some w
              raced := []
              busyLeft := (writeReg .cmd w s).busyLeft
              draws := (writeReg .cmd w s).draws }
        ∧ (s.rst = false → (∀ i, decode w ≠ .ok i) →
            step (writeReg .cmd w s) = .next (failed (writeReg .cmd w s) .illegal)))
      ∧ (s.status.busy = true → writeReg .cmd w s = { s with status := { s.status with ovr := true } })
      ∧ readReg s .cmd = (0#32, 0)

/-- R44: while BUSY = 1 a write of CMD or of an operand register changes nothing but OVR, which it sets; CTRL and
STATUS act as when idle; writes of ID, IDAT_LEN, RESULT, CRC and reserved offsets are ignored, busy or not. -/
def Obligations.BusyWritesAreDropped : Prop :=
  ∀ (s : State) (w : Word),
    (s.status.busy = true →
        ∀ r ∈ [Reg.cmd, .cfg, .ccfg, .type, .srcAddr, .srcLen, .outBase, .outCap, .outPos, .scrBase, .scrCap],
          writeReg r w s = { s with status := { s.status with ovr := true } })
      ∧ writeReg .ctrl w s = { s with ctrl := ⟨w.getLsbD 0, w.getLsbD 1⟩ }
      ∧ writeReg .status w s = { s with status := statusClear w s.status }
      ∧ (∀ r ∈ [Reg.id, .idatLen, .result, .crc], writeReg r w s = s)
      ∧ (∀ k, 0x44 ≤ k → k ≤ 0xFC → writeOffset s k w = s)

/-- R45: while BUSY = 1 the registers but OUT_POS, IDAT_LEN, RESULT, CRC and STATUS read their values, and a read of
STATUS returns the current BUSY, DONE, ERR, OVR and ECODE. -/
def Obligations.BusyReadsOfStableRegisters : Prop :=
  ∀ s : State, s.status.busy = true →
    (∀ r, r ≠ .outPos → r ≠ .idatLen → r ≠ .result → r ≠ .crc → r ≠ .status → readReg s r = (regValue s r, 0))
      ∧ (∀ k, k < 8 → (readReg s .status).1.getLsbD k = (statusWord s.status).getLsbD k)

/-- R260, R261: `irq` is (IE_DONE and DONE) or (IE_ERR and ERR) of the state as it stands; a write to STATUS takes out
what it clears, an accepted CMD write and reset deassert it, and a write to CTRL enables or disables each source at
once. -/
def Obligations.InterruptFollowsStatus : Prop :=
  ∀ s : State,
    (s.irq = ((s.ctrl.ieDone && s.status.done) || (s.ctrl.ieErr && s.status.err)))
      ∧ (∀ w, (writeReg .status w s).irq
          = ((s.ctrl.ieDone && (s.status.done && !w.getLsbD 1)) || (s.ctrl.ieErr && (s.status.err && !w.getLsbD 2))))
      ∧ (s.status.busy = false → ∀ w, (writeReg .cmd w s).irq = false)
      ∧ (performInput .assertReset s).irq = false
      ∧ (∀ w, (writeReg .ctrl w s).irq = ((w.getLsbD 0 && s.status.done) || (w.getLsbD 1 && s.status.err)))

/-! ### Memory as the host reaches it -/

/-- R49, R70, R86, R87, R107: a host write of a byte reads back and leaves every other byte; while BUSY = 1 its address
is noted (notes/assumptions/11.md), and no register of PNGE changes, busy or not. A host read returns what memory holds,
but while a command is pending in its output or scratch window, where it is open (notes/assumptions/12.md); it changes
nothing of PNGE. With nothing pending this holds before the host has read STATUS too: the model's choice
(notes/assumptions/25.md). WAIT reads STATUS, and stays the next input exactly while BUSY is 1; in reset it ends
unaccepted: the model's choice (notes/assumptions/26.md). -/
def Obligations.HostReachesMemory : Prop :=
  ∀ (s : State) (a : Word) (b : Byte),
    (performInput (.memWrite a b) s
        = { s with
            mem := (performInput (.memWrite a b) s).mem,
            raced := if s.status.busy then a.toNat :: s.raced else s.raced, resp := .quiet })
      ∧ (performInput (.memWrite a b) s).peek a.toNat = b
      ∧ (∀ x, x ≠ a.toNat → (performInput (.memWrite a b) s).peek x = s.peek x)
      ∧ (performInput (.memRead a) s
          = { s with
              resp := (performInput (.memRead a) s).resp, draws := (performInput (.memRead a) s).draws })
      ∧ (s.pending = none →
          performInput (.memRead a) s = { s with resp := .byte (s.peek a.toNat) }
            ∧ (performInput (.memRead a) (performInput (.memWrite a b) s)).resp = .byte b)
      ∧ ((a.toNat < s.outBase.toNat ∨ s.outBase.toNat + s.outCap.toNat ≤ a.toNat) →
          (a.toNat < s.scrBase.toNat ∨ s.scrBase.toNat + max s.scrCap.toNat s.idatLen.toNat ≤ a.toNat) →
          performInput (.memRead a) s = { s with resp := .byte (s.peek a.toNat) })
      ∧ (s.rst = false →
          performInput .waitIdle s
            = { s with
                resp := .data (readReg s .status).1, draws := s.draws + (readReg s .status).2,
                inputs := if s.status.busy then .waitIdle :: s.inputs else s.inputs })
      ∧ (s.rst = true → performInput .waitIdle s = { s with resp := .notAccepted })

/-! ### The invariant -/

/-- The invariant holds after reset. -/
def Obligations.ResetMeetsInv : Prop := StateInv State.reset

/-- Every step keeps the invariant, from every state that meets it. -/
def Obligations.StepKeepsInv : Prop :=
  ∀ s t : State, StateInv s → step s = .next t → StateInv t

/-! ### All commands -/

/-- R270: every command of every state completes, but for a backend response longer than its bound; then it stops in
the model's own fault. No command is refused. -/
def Obligations.EveryCommandCompletes : Prop :=
  ∀ (i : Instr) (s : State),
    (∃ t, exec i s = .next t)
      ∨ (exec i s = .fault .backendOverrun ∧ (i = .compress ∨ i = .build)
          ∧ ∃ g z rest, imgCfg s.cfg = some g ∧ s.answers = .ok z :: rest
              ∧ bound s.plat (ccfgProv s.ccfg) (pixSize g) < z.length)

/-- R28: an accepted CMD write clears DONE, ERR and ECODE, and after the completion exactly one of DONE and ERR is 1,
and ECODE is 0 exactly when ERR is 0; BUSY is 0 and nothing is pending. -/
def Obligations.CompletionSetsOneOutcome : Prop :=
  ∀ (i : Instr) (s t : State), s.status.busy = false → exec i (writeReg .cmd (encode i) s) = .next t →
    ((writeReg .cmd (encode i) s).status = ⟨true, false, false, s.status.ovr, .noError, s.status.idatv⟩)
      ∧ t.status.done = !t.status.err
      ∧ (t.status.ecode = .noError ↔ t.status.err = false)
      ∧ t.status.busy = false ∧ t.pending = none

/-- R255, with R254: an error completion changes STATUS as R254 says and no other register; besides it only memory,
the backend link and the model's own counters can have changed. -/
def Obligations.ErrorsArePrecise : Prop :=
  ∀ (i : Instr) (s t : State), s.status.err = false → exec i s = .next t → t.status.err = true →
    t = { failed s t.status.ecode with mem := t.mem, draws := t.draws, answers := t.answers, sent := t.sent }
      ∧ t.status.ecode ≠ .noError

/-- R252: the errors each command can raise. -/
def Obligations.ErrorsOfEachCommand : Prop :=
  ∀ (i : Instr) (s t : State), s.status.err = false → exec i s = .next t → t.status.err = true →
    t.status.ecode ∈ (match i with
      | .crc => [ErrCode.addr, .mem]
      | .emitSig => [.bounds, .addr, .mem]
      | .emitChunk => [.cfgInvalid, .bounds, .addr, .mem]
      | .emitIend => [.bounds, .addr, .mem]
      | .emitIhdr => [.cfgInvalid, .bounds, .addr, .mem]
      | .emitPlte => [.bounds, .addr, .mem]
      | .emitTrns => [.cfgInvalid, .bounds, .addr, .mem]
      | .emitIdat => [.bounds, .noidat, .addr, .mem]
      | .size => [.cfgInvalid]
      | .compress => [.cfgInvalid, .alloc, .backend, .addr, .mem]
      | .build => [.cfgInvalid, .alloc, .backend, .bounds, .addr, .mem])

/-- R36, R37, R38, R39, R25, R33, R35: no command writes CTRL, CFG, CCFG, TYPE, SRC_ADDR, SRC_LEN, OUT_BASE, OUT_CAP,
SCR_BASE or SCR_CAP; OVR, the inputs and the parameters of the PNGE stay as well. -/
def Obligations.CommandsKeepHostRegisters : Prop :=
  ∀ (i : Instr) (s t : State), exec i s = .next t →
    t.ctrl = s.ctrl ∧ t.cfg = s.cfg ∧ t.ccfg = s.ccfg ∧ t.type = s.type ∧ t.srcAddr = s.srcAddr
      ∧ t.srcLen = s.srcLen ∧ t.outBase = s.outBase ∧ t.outCap = s.outCap ∧ t.scrBase = s.scrBase
      ∧ t.scrCap = s.scrCap ∧ t.status.ovr = s.status.ovr ∧ t.rst = s.rst ∧ t.inputs = s.inputs
      ∧ t.plat = s.plat

/-- R29: what writes IDATV. A successful COMPRESS sets it; a successful EMIT_IDAT or BUILD and every error clear it;
no other command changes it, and no host write does. -/
def Obligations.PayloadOwnership : Prop :=
  (∀ (i : Instr) (s t : State), s.status.done = false → s.status.err = false → exec i s = .next t →
      t.status.idatv
        = (if t.status.err then false
          else if i = .compress then true
          else if i = .emitIdat ∨ i = .build then false
          else s.status.idatv))
    ∧ ∀ (r : Reg) (w : Word) (s : State), (writeReg r w s).status.idatv = s.status.idatv

/-- R21, R38: OUT_POS moves by RESULT when an output command succeeds, without wrap-around; it stays on every error
and for CRC, SIZE and COMPRESS. -/
def Obligations.OutPosMovesOnlyOnSuccess : Prop :=
  ∀ (i : Instr) (s t : State), s.status.err = false → exec i s = .next t →
    (t.status.err = true → t.outPos = s.outPos)
      ∧ (t.status.err = false → (i = .crc ∨ i = .size ∨ i = .compress) → t.outPos = s.outPos)
      ∧ (t.status.err = false → i ≠ .crc → i ≠ .size → i ≠ .compress →
          t.outPos.toNat = s.outPos.toNat + t.result.toNat)

/-- R70, R210: a command leaves every byte outside its output range, from `OUT_BASE + OUT_POS` on, and its
bound-sized scratch range, from SCR_BASE on, whether it succeeds or not; CRC and SIZE have neither range. -/
def Obligations.CommandsWriteOnlyTheirRanges : Prop :=
  ∀ (i : Instr) (s t : State) (a : Nat), exec i s = .next t →
    (a < s.outBase.toNat + s.outPos.toNat ∨ s.outBase.toNat + s.outPos.toNat + outRangeLen s i ≤ a) →
    (a < s.scrBase.toNat ∨ s.scrBase.toNat + scrRangeLen s i ≤ a) →
    t.peek a = s.peek a

/-- R254: an error ILLEGAL, CFG_INVALID, NOIDAT, ALLOC or BACKEND, and BOUNDS or ADDR in any command but BUILD,
changes no memory. -/
def Obligations.EarlyErrorsLeaveMemory : Prop :=
  ∀ (i : Instr) (s t : State), s.status.err = false → exec i s = .next t → t.status.err = true →
    (t.status.ecode ∈ [ErrCode.illegal, .cfgInvalid, .noidat, .alloc, .backend]
      ∨ (i ≠ .build ∧ t.status.ecode ∈ [ErrCode.bounds, .addr])) →
    t.mem = s.mem

/-! ### CRC -/

/-- R134: a byte at a time through a table of 256 entries gives the value of R130: the table's entry for a byte is
that byte shifted eight times. -/
def Obligations.CrcByTable : Prop :=
  ∀ (c : Word) (b : Byte),
    crcByte c b = (c >>> 8) ^^^ crcShift 8 ((c ^^^ b.setWidth 32) &&& 0x000000FF#32)

/-- R132: with the source window inside the memory space and its reads admitted, CRC computes the chunk CRC of TYPE
and the window, for every TYPE and every length, 0 among them; CRC and RESULT hold it and nothing else changes but
STATUS. -/
def Obligations.CrcCommandResult : Prop :=
  ∀ s : State, (s.srcLen.toNat = 0 ∨ s.srcAddr.toNat + s.srcLen.toNat ≤ addrLimit) →
    admits s s.srcAddr.toNat s.srcLen.toNat .read → unraced s s.srcAddr.toNat s.srcLen.toNat →
    exec .crc s
      = .next { s with
          crc := chunkCrc s.type (bytesAt s s.srcAddr.toNat s.srcLen.toNat)
          result := chunkCrc s.type (bytesAt s s.srcAddr.toNat s.srcLen.toNat)
          status := okStatus s, pending := none, busyLeft := 0, raced := [] }

/-- R132, R81, R72: CRC raises ADDR where the source window passes 0xFFFFFFFF, and MEM where a read is refused; no
register but STATUS and no memory changes. -/
def Obligations.CrcCommandErrors : Prop :=
  ∀ s : State,
    (0 < s.srcLen.toNat → addrLimit < s.srcAddr.toNat + s.srcLen.toNat → exec .crc s = .next (failed s .addr))
      ∧ (∀ a, s.srcAddr.toNat ≤ a → a < s.srcAddr.toNat + s.srcLen.toNat →
          s.srcAddr.toNat + s.srcLen.toNat ≤ addrLimit → memOk s.plat a .read = false →
          ∃ t, exec .crc s = .next t ∧ t = { failed s .mem with draws := t.draws })

/-! ### The fixed-content commands -/

/-- R152: EMIT_SIG writes the signature; CRC and IDATV are unchanged. -/
def Obligations.EmitSigWritesTheSignature : Prop :=
  ∀ s : State, outFits s 8 → admits s (s.outBase.toNat + s.outPos.toNat) 8 .write →
    ∃ t, exec .emitSig s = .next t ∧ outputDone s t 8 s.crc s.status.idatv
      ∧ standsAt s t (s.outBase.toNat + s.outPos.toNat)
          [0x89#8, 0x50#8, 0x4E#8, 0x47#8, 0x0D#8, 0x0A#8, 0x1A#8, 0x0A#8]

/-- R158: EMIT_IEND writes the constant IEND chunk and puts its trailer in CRC. R116: that constant is the chunk of tag
IEND with an empty payload. -/
def Obligations.EmitIendWritesTheConstant : Prop :=
  (∀ s : State, outFits s 12 → admits s (s.outBase.toNat + s.outPos.toNat) 12 .write →
      ∃ t, exec .emitIend s = .next t ∧ outputDone s t 12 0xAE426082#32 s.status.idatv
        ∧ standsAt s t (s.outBase.toNat + s.outPos.toNat)
            [0x00#8, 0x00#8, 0x00#8, 0x00#8, 0x49#8, 0x45#8, 0x4E#8, 0x44#8, 0xAE#8, 0x42#8, 0x60#8, 0x82#8])
    ∧ [0x00#8, 0x00#8, 0x00#8, 0x00#8, 0x49#8, 0x45#8, 0x4E#8, 0x44#8, 0xAE#8, 0x42#8, 0x60#8, 0x82#8]
        = chunk 0x49454E44#32 []
    ∧ iendBytes = chunk 0x49454E44#32 []

/-- R161, R160, R113: EMIT_IHDR writes the IHDR chunk of a configuration that passes the check. -/
def Obligations.EmitIhdrWritesTheHeader : Prop :=
  ∀ (s : State) (g : ImgCfg), imgCfg s.cfg = some g → outFits s 25 →
    admits s (s.outBase.toNat + s.outPos.toNat) 25 .write →
    ∃ t, exec .emitIhdr s = .next t
      ∧ outputDone s t 25 (chunkCrc 0x49484452#32 (ihdrPayload g)) s.status.idatv
      ∧ standsAt s t (s.outBase.toNat + s.outPos.toNat)
          ([0x00#8, 0x00#8, 0x00#8, 0x0D#8, 0x49#8, 0x48#8, 0x44#8, 0x52#8]
            ++ be32 (BitVec.ofNat 32 g.width) ++ be32 (BitVec.ofNat 32 g.width)
            ++ [BitVec.ofNat 8 g.depth, colourCode g.ct, 0x00#8, 0x00#8, 0x00#8]
            ++ be32 (chunkCrc 0x49484452#32 (ihdrPayload g)))

/-- R164, R163: EMIT_PLTE writes the one-entry palette chunk for every CFG, with the entry PLTE_ENTRY0 of this PNGE
(R7, U8: notes/assumptions/19.md); with the decided entry 00 00 00 (D17) its CRC is 0xA77A3DDA. -/
def Obligations.EmitPlteWritesThePalette : Prop :=
  ∀ s : State, outFits s 15 → admits s (s.outBase.toNat + s.outPos.toNat) 15 .write →
    ∃ t, exec .emitPlte s = .next t
      ∧ outputDone s t 15 (chunkCrc 0x504C5445#32 s.plat.plteEntry0.toList) s.status.idatv
      ∧ standsAt s t (s.outBase.toNat + s.outPos.toNat)
          ([0x00#8, 0x00#8, 0x00#8, 0x03#8, 0x50#8, 0x4C#8, 0x54#8, 0x45#8] ++ s.plat.plteEntry0.toList
            ++ be32 (chunkCrc 0x504C5445#32 s.plat.plteEntry0.toList))
      ∧ (s.plat.plteEntry0.toList = [0x00#8, 0x00#8, 0x00#8] → t.crc = 0xA77A3DDA#32)

/-- R167, R115, R166: EMIT_TRNS writes the transparency chunk with the 6, 2 or 1 bytes TRNS_BYTES of the colour type
of this PNGE (R7, U8: notes/assumptions/19.md); with the decided zeros (D18) its CRC is the value R167 gives. -/
def Obligations.EmitTrnsWritesTheTransparency : Prop :=
  ∀ (s : State) (g : ImgCfg) (k : Nat) (p : List Byte) (c : Word), imgCfg s.cfg = some g →
    (g.ct, k, p, c) ∈ [(ColourType.truecolour, 6, s.plat.trnsBytes.truecolour.toList, 0x6EA60791#32),
      (.greyscale, 2, s.plat.trnsBytes.greyscale.toList, 0x7693CD38#32),
      (.indexed, 1, s.plat.trnsBytes.indexed.toList, 0x40E6D866#32)] →
    outFits s (k + 12) → admits s (s.outBase.toNat + s.outPos.toNat) (k + 12) .write →
    p.length = k
      ∧ ∃ t, exec .emitTrns s = .next t
          ∧ outputDone s t (k + 12) (chunkCrc 0x74524E53#32 p) s.status.idatv
          ∧ standsAt s t (s.outBase.toNat + s.outPos.toNat)
              (be32 (BitVec.ofNat 32 k) ++ [0x74#8, 0x52#8, 0x4E#8, 0x53#8] ++ p
                ++ be32 (chunkCrc 0x74524E53#32 p))
          ∧ (p = List.replicate k 0x00#8 → t.crc = c)

/-- R80: the five fixed-content commands check the output window before the first byte: BOUNDS where the capacity is
too small, then ADDR where the range passes 0xFFFFFFFF; nothing is written. -/
def Obligations.FixedCommandsCheckTheWindow : Prop :=
  ∀ (i : Instr) (s : State) (bs : List Byte), fixedBytes s i = some bs →
    (s.outCap.toNat < s.outPos.toNat + bs.length → exec i s = .next (failed s .bounds))
      ∧ (s.outPos.toNat + bs.length ≤ s.outCap.toNat →
          addrLimit < s.outBase.toNat + s.outPos.toNat + bs.length → exec i s = .next (failed s .addr))

/-- R72, R254, R255: where the k-th output byte of a fixed-content command is the first the memory port refuses, the
command ends with MEM: the bytes before it hold their new values, every other byte and every register but STATUS is
as before. -/
def Obligations.FixedCommandsStopAtARefusedByte : Prop :=
  ∀ (i : Instr) (s : State) (bs : List Byte) (k : Nat), fixedBytes s i = some bs → outFits s bs.length →
    k < bs.length → admits s (s.outBase.toNat + s.outPos.toNat) k .write →
    memOk s.plat (s.outBase.toNat + s.outPos.toNat + k) .write = false →
    ∃ t, exec i s = .next t ∧ t = { failed s .mem with mem := t.mem, draws := t.draws }
      ∧ standsAt s t (s.outBase.toNat + s.outPos.toNat) (bs.take k)
      ∧ sameOutside s t (s.outBase.toNat + s.outPos.toNat) k

/-- R191, R33, R34: which CFG words pass the check, by the numbers of their fields, and the width, depth and colour
type the image then has; and a CFG that fails the check makes EMIT_IHDR, EMIT_TRNS, SIZE, COMPRESS and BUILD complete
with CFG_INVALID before any memory access and any backend request. -/
def Obligations.ImageConfigurationFields : Prop :=
  (∀ (c : Word) (g : ImgCfg), imgCfg c = some g ↔
      1 ≤ c.toNat % 1024 ∧ c.toNat % 1024 ≤ 512
        ∧ (c.toNat / 65536 % 32 = 1 ∨ c.toNat / 65536 % 32 = 2 ∨ c.toNat / 65536 % 32 = 4
            ∨ c.toNat / 65536 % 32 = 8 ∨ c.toNat / 65536 % 32 = 16)
        ∧ ¬(c.toNat / 16777216 % 2 = 1 ∧ c.toNat / 33554432 % 2 = 1)
        ∧ g.width = c.toNat % 1024 ∧ g.depth = c.toNat / 65536 % 32
        ∧ (colourCode g.ct).toNat
            = (if c.toNat / 16777216 % 2 = 1 then 0 else if c.toNat / 33554432 % 2 = 1 then 3 else 2))
    ∧ (∀ (i : Instr) (s : State), imgCfg s.cfg = none →
        (i = .emitIhdr ∨ i = .emitTrns ∨ i = .size ∨ i = .compress ∨ i = .build) →
        exec i s = .next (failed s .cfgInvalid))

/-! ### Chunks with a copied payload -/

/-- R155: with a tag of the enumeration, the windows inside the memory space, the accesses admitted, no overlap and no
host write to the payload, EMIT_CHUNK writes the chunk of TYPE and the source window, of every length. -/
def Obligations.EmitChunkWritesTheChunk : Prop :=
  ∀ s : State, validTag s.type = true →
    (s.srcLen.toNat = 0 ∨ s.srcAddr.toNat + s.srcLen.toNat ≤ addrLimit) → outFits s (s.srcLen.toNat + 12) →
    admits s s.srcAddr.toNat s.srcLen.toNat .read →
    admits s (s.outBase.toNat + s.outPos.toNat) (s.srcLen.toNat + 12) .write →
    disjoint s.srcAddr.toNat s.srcLen.toNat (s.outBase.toNat + s.outPos.toNat) (s.srcLen.toNat + 12) →
    unraced s s.srcAddr.toNat s.srcLen.toNat →
    ∃ t, exec .emitChunk s = .next t
      ∧ outputDone s t (s.srcLen.toNat + 12) (chunkCrc s.type (bytesAt s s.srcAddr.toNat s.srcLen.toNat))
          s.status.idatv
      ∧ standsAt s t (s.outBase.toNat + s.outPos.toNat)
          (be32 s.srcLen ++ tag s.type ++ bytesAt s s.srcAddr.toNat s.srcLen.toNat
            ++ be32 (chunkCrc s.type (bytesAt s s.srcAddr.toNat s.srcLen.toNat)))

/-- R85, for EMIT_CHUNK and EMIT_IDAT: where the payload's range overlaps the output range, or the host raced, the
command still completes with OUT_POS, RESULT and every byte outside the output range as the rules say; a length or tag
byte outside the overlap has its value; and a payload byte whose source and destination both lie outside the overlap is
copied (all but for addresses the host raced for). Which bytes are left open is the model's reading of R85
(notes/assumptions/8.md). -/
def Obligations.CopiedChunkUnderOverlap : Prop :=
  ∀ (i : Instr) (s : State) (c : Copied), copied s i = some c →
    (c.len = 0 ∨ c.src + c.len ≤ addrLimit) → outFits s (c.len + 12) → admits s c.src c.len .read →
    admits s (s.outBase.toNat + s.outPos.toNat) (c.len + 12) .write →
    ∃ t, exec i s = .next t
      ∧ outputDone s t (c.len + 12) t.crc (if i = .emitIdat then false else s.status.idatv)
      ∧ (∀ k b, (be32 (BitVec.ofNat 32 c.len) ++ tag c.tag)[k]? = some b →
          s.outBase.toNat + s.outPos.toNat + k ∉ s.raced →
          (s.outBase.toNat + s.outPos.toNat + k < c.src
            ∨ c.src + c.len ≤ s.outBase.toNat + s.outPos.toNat + k) →
          t.peek (s.outBase.toNat + s.outPos.toNat + k) = b)
      ∧ ∀ k, k < c.len → c.src + k ∉ s.raced → s.outBase.toNat + s.outPos.toNat + 8 + k ∉ s.raced →
          (c.src + k < s.outBase.toNat + s.outPos.toNat
            ∨ s.outBase.toNat + s.outPos.toNat + (c.len + 12) ≤ c.src + k) →
          (s.outBase.toNat + s.outPos.toNat + 8 + k < c.src
            ∨ c.src + c.len ≤ s.outBase.toNat + s.outPos.toNat + 8 + k) →
          t.peek (s.outBase.toNat + s.outPos.toNat + 8 + k) = s.peek (c.src + k)

/-- R109: `ValidTag` holds exactly for the 18 words. R155, R253: the checks of EMIT_CHUNK in their order, each before
any access: the tag, the source window, the capacity, the output range. R170, R253: the checks of EMIT_IDAT in their
order: NOIDAT without a payload, ADDR for the scratch range, BOUNDS and ADDR for the output range; each releases the
payload. A failed check changes nothing else but STATUS. -/
def Obligations.CopiedChunkChecksInOrder : Prop :=
  (∀ t : Word, validTag t = true ↔
      t ∈ [0x49484452#32, 0x504C5445#32, 0x49444154#32, 0x49454E44#32, 0x74524E53#32, 0x6348524D#32, 0x67414D41#32,
        0x69434350#32, 0x73424954#32, 0x73524742#32, 0x69545874#32, 0x74455874#32, 0x7A545874#32, 0x624B4744#32,
        0x68495354#32, 0x70485973#32, 0x73504C54#32, 0x74494D45#32])
    ∧ ∀ s : State,
        (validTag s.type = false → exec .emitChunk s = .next (failed s .cfgInvalid))
          ∧ (validTag s.type = true → 0 < s.srcLen.toNat → addrLimit < s.srcAddr.toNat + s.srcLen.toNat →
              exec .emitChunk s = .next (failed s .addr))
          ∧ (validTag s.type = true → (s.srcLen.toNat = 0 ∨ s.srcAddr.toNat + s.srcLen.toNat ≤ addrLimit) →
              s.outCap.toNat < s.outPos.toNat + (s.srcLen.toNat + 12) →
              exec .emitChunk s = .next (failed s .bounds))
          ∧ (validTag s.type = true → (s.srcLen.toNat = 0 ∨ s.srcAddr.toNat + s.srcLen.toNat ≤ addrLimit) →
              s.outPos.toNat + (s.srcLen.toNat + 12) ≤ s.outCap.toNat →
              addrLimit < s.outBase.toNat + s.outPos.toNat + (s.srcLen.toNat + 12) →
              exec .emitChunk s = .next (failed s .addr))
          ∧ (s.status.idatv = false → exec .emitIdat s = .next (failed s .noidat))
          ∧ (s.status.idatv = true → 0 < s.idatLen.toNat → addrLimit < s.scrBase.toNat + s.idatLen.toNat →
              exec .emitIdat s = .next (failed s .addr))
          ∧ (s.status.idatv = true → (s.idatLen.toNat = 0 ∨ s.scrBase.toNat + s.idatLen.toNat ≤ addrLimit) →
              s.outCap.toNat < s.outPos.toNat + (s.idatLen.toNat + 12) →
              exec .emitIdat s = .next (failed s .bounds))
          ∧ (s.status.idatv = true → (s.idatLen.toNat = 0 ∨ s.scrBase.toNat + s.idatLen.toNat ≤ addrLimit) →
              s.outPos.toNat + (s.idatLen.toNat + 12) ≤ s.outCap.toNat →
              addrLimit < s.outBase.toNat + s.outPos.toNat + (s.idatLen.toNat + 12) →
              exec .emitIdat s = .next (failed s .addr))

/-- R72, R254, R170, for EMIT_CHUNK and EMIT_IDAT: where the k-th byte of the chunk is the first that the memory port
refuses, be it the write of it or, for a payload byte, the read of its source just before, the command ends with MEM:
the first k bytes of the chunk are written and nothing else has changed but STATUS. -/
def Obligations.CopiedChunkStopsAtARefusedByte : Prop :=
  ∀ (i : Instr) (s : State) (c : Copied) (k : Nat), copied s i = some c →
    (c.len = 0 ∨ c.src + c.len ≤ addrLimit) → outFits s (c.len + 12) →
    disjoint c.src c.len (s.outBase.toNat + s.outPos.toNat) (c.len + 12) → unraced s c.src c.len →
    k < c.len + 12 → admits s (s.outBase.toNat + s.outPos.toNat) k .write →
    admits s c.src (min c.len (k - 8)) .read →
    (memOk s.plat (s.outBase.toNat + s.outPos.toNat + k) .write = false
      ∨ 8 ≤ k ∧ k < 8 + c.len ∧ memOk s.plat (c.src + (k - 8)) .read = false) →
    ∃ t, exec i s = .next t ∧ t = { failed s .mem with mem := t.mem, draws := t.draws }
      ∧ standsAt s t (s.outBase.toNat + s.outPos.toNat) ((chunk c.tag (bytesAt s c.src c.len)).take k)
      ∧ sameOutside s t (s.outBase.toNat + s.outPos.toNat) k

/-- R170: with a payload held, EMIT_IDAT writes the IDAT chunk of the IDAT_LEN bytes at SCR_BASE and releases the
payload; IDAT_LEN is unchanged. -/
def Obligations.EmitIdatWritesThePayload : Prop :=
  ∀ s : State, s.status.idatv = true →
    (s.idatLen.toNat = 0 ∨ s.scrBase.toNat + s.idatLen.toNat ≤ addrLimit) → outFits s (s.idatLen.toNat + 12) →
    admits s s.scrBase.toNat s.idatLen.toNat .read →
    admits s (s.outBase.toNat + s.outPos.toNat) (s.idatLen.toNat + 12) .write →
    disjoint s.scrBase.toNat s.idatLen.toNat (s.outBase.toNat + s.outPos.toNat) (s.idatLen.toNat + 12) →
    unraced s s.scrBase.toNat s.idatLen.toNat →
    ∃ t, exec .emitIdat s = .next t
      ∧ outputDone s t (s.idatLen.toNat + 12)
          (chunkCrc 0x49444154#32 (bytesAt s s.scrBase.toNat s.idatLen.toNat)) false
      ∧ standsAt s t (s.outBase.toNat + s.outPos.toNat)
          (be32 s.idatLen ++ [0x49#8, 0x44#8, 0x41#8, 0x54#8] ++ bytesAt s s.scrBase.toNat s.idatLen.toNat
            ++ be32 (chunkCrc 0x49444154#32 (bytesAt s s.scrBase.toNat s.idatLen.toNat)))

/-! ### The sizer -/

/-- R193, R190: SIZE puts the size of the source's formulas in RESULT and changes nothing else but STATUS. -/
def Obligations.SizeResult : Prop :=
  ∀ (s : State) (g : ImgCfg), imgCfg s.cfg = some g →
    ∃ t, exec .size s = .next t
      ∧ t = { s with result := t.result, status := okStatus s, pending := none, busyLeft := 0, raced := [] }
      ∧ t.result.toNat
          = (match g.ct with
            | .truecolour => g.width * g.width * 3 * g.depth / 8 + g.width
            | .greyscale => ((g.width * g.depth + 7) / 8 + 1) * g.width
            | .indexed => g.width * g.width * g.depth / 8 + g.width)

/-- R192: the bounds of the pixel buffer size: the products of the three formulas are at most 12582912, below 2^24, so
32-bit arithmetic gives the same sizes; the largest size is 1573376, at width 512, depth 16, truecolour; the smallest
is 1, at width 1, depth 1, truecolour or indexed. -/
def Obligations.PixelSizeBounds : Prop :=
  (∀ (c : Word) (g : ImgCfg), imgCfg c = some g →
      g.width * g.width * 3 * g.depth ≤ 12582912 ∧ g.width * g.width * g.depth ≤ 12582912
        ∧ g.width * g.depth + 7 ≤ 12582912 ∧ ((g.width * g.depth + 7) / 8 + 1) * g.width ≤ 12582912
        ∧ 12582912 < 2 ^ 24 ∧ (BitVec.ofNat 32 (pixSize g)).toNat = pixSize g
        ∧ 1 ≤ pixSize g ∧ pixSize g ≤ 1573376)
    ∧ pixSize ⟨512, 16, .truecolour⟩ = 1573376
    ∧ pixSize ⟨1, 1, .truecolour⟩ = 1 ∧ pixSize ⟨1, 1, .indexed⟩ = 1

/-! ### Compression -/

/-- R201: the check of CCFG by the numbers of its fields; `LEVEL_B_MIN` and `LEVEL_B_MAX` keep
0 <= MIN <= MAX <= 15; and a CCFG that fails it makes COMPRESS and BUILD complete with CFG_INVALID before any memory
access and any backend request. -/
def Obligations.CompressionConfiguration : Prop :=
  (∀ (p : Platform) (c : Word), cmpCfgOk p c = true ↔
      (c.toNat / 65536 % 2 = 0 →
          (c.toNat / 16 % 2 = 1 ∨ (1 ≤ c.toNat % 16 ∧ c.toNat % 16 ≤ 9))
            ∧ (c.toNat / 2048 % 2 = 0 ∨ c.toNat / 256 % 8 ≤ 4))
        ∧ (c.toNat / 65536 % 2 = 1 →
          c.toNat / 16 % 2 = 0 ∧ levelBMin p ≤ c.toNat % 16 ∧ c.toNat % 16 ≤ levelBMax p
            ∧ c.toNat / 2048 % 2 = 0))
    ∧ (∀ p : Platform, levelBMin p ≤ levelBMax p ∧ levelBMax p ≤ 15)
    ∧ (∀ (i : Instr) (s : State), cmpCfgOk s.plat s.ccfg = false → (i = .compress ∨ i = .build) →
        exec i s = .next (failed s .cfgInvalid))

/-- R202, R112: the request the engine builds from CFG and a CCFG that passes the check. -/
def Obligations.RequestCarriesTheConfiguration : Prop :=
  ∀ (p : Platform) (g : ImgCfg) (c : Word), cmpCfgOk p c = true →
    (request g c).n = pixSize g
      ∧ ((request g c).prov = .a ↔ c.toNat / 65536 % 2 = 0)
      ∧ ((request g c).level = .dflt ↔ c.toNat / 65536 % 2 = 0 ∧ c.toNat / 16 % 2 = 1)
      ∧ (∀ l, (request g c).level = .explicit l → l.toNat = c.toNat % 16)
      ∧ (c.toNat / 2048 % 2 = 0 → (request g c).strat = none)
      ∧ (c.toNat / 2048 % 2 = 1 →
          ((request g c).strat, c.toNat / 256 % 8) ∈ [(some Strategy.dflt, 0), (some .filtered, 1),
            (some .huffmanOnly, 2), (some .fixed, 3), (some .runLength, 4)])
      ∧ (request g c).input = List.replicate (pixSize g) 0#8

/-- R212, R205, R210: where the configuration passes, the scratch window admits the bound and the backend answers
`Ok(z)` within it, COMPRESS sends the one request, writes `z` to the scratch window, leaves every byte outside the
bound-sized range, and holds the payload: IDAT_LEN and RESULT are its length, IDATV is 1, OUT_POS and CRC are kept. -/
def Obligations.CompressHoldsThePayload : Prop :=
  ∀ (s : State) (g : ImgCfg) (z : List Byte) (rest : List Answer), imgCfg s.cfg = some g →
    cmpCfgOk s.plat s.ccfg = true →
    bound s.plat (ccfgProv s.ccfg) (pixSize g) ≤ s.scrCap.toNat →
    s.scrBase.toNat + bound s.plat (ccfgProv s.ccfg) (pixSize g) ≤ addrLimit →
    s.answers = .ok z :: rest → z ≠ [] → z.length ≤ bound s.plat (ccfgProv s.ccfg) (pixSize g) →
    admits s s.scrBase.toNat z.length .write →
    ∃ t, exec .compress s = .next t
      ∧ t = { s with
          idatLen := t.idatLen, result := t.result, status := { okStatus s with idatv := true },
          pending := none, busyLeft := 0, raced := [], mem := t.mem, draws := t.draws,
          answers := rest, sent := s.sent ++ [request g s.ccfg] }
      ∧ t.idatLen.toNat = z.length ∧ t.result.toNat = z.length
      ∧ standsAt s t s.scrBase.toNat z
      ∧ sameOutside s t s.scrBase.toNat (bound s.plat (ccfgProv s.ccfg) (pixSize g))

/-- R204, R206, R207, R253: the later errors of the compression phase, the same for COMPRESS and BUILD, in their
order: ALLOC and ADDR with no request sent, then BACKEND where the one answer is `Fail` or an empty payload; memory
and every register but STATUS are as before. -/
def Obligations.CompressionErrors : Prop :=
  ∀ (i : Instr) (s : State) (g : ImgCfg), (i = .compress ∨ i = .build) → imgCfg s.cfg = some g →
    cmpCfgOk s.plat s.ccfg = true →
    (s.scrCap.toNat < bound s.plat (ccfgProv s.ccfg) (pixSize g) → exec i s = .next (failed s .alloc))
      ∧ (bound s.plat (ccfgProv s.ccfg) (pixSize g) ≤ s.scrCap.toNat →
          0 < bound s.plat (ccfgProv s.ccfg) (pixSize g) →
          addrLimit < s.scrBase.toNat + bound s.plat (ccfgProv s.ccfg) (pixSize g) →
          exec i s = .next (failed s .addr))
      ∧ (∀ (a : Answer) (rest : List Answer), bound s.plat (ccfgProv s.ccfg) (pixSize g) ≤ s.scrCap.toNat →
          (bound s.plat (ccfgProv s.ccfg) (pixSize g) = 0
            ∨ s.scrBase.toNat + bound s.plat (ccfgProv s.ccfg) (pixSize g) ≤ addrLimit) →
          s.answers = a :: rest → (a = .fail ∨ a = .ok []) →
          exec i s
            = .next { failed s .backend with answers := rest, sent := s.sent ++ [request g s.ccfg] })

/-- R210, R254: where the k-th byte of the payload is the first the memory port refuses, COMPRESS and BUILD end with
MEM: the first k bytes of the payload are written, the rest of memory is as before. That this holds for BUILD with
overlapping windows too is the model's choice (notes/assumptions/27.md). -/
def Obligations.CompressionStopsAtARefusedByte : Prop :=
  ∀ (i : Instr) (s : State) (g : ImgCfg) (z : List Byte) (rest : List Answer) (k : Nat),
    (i = .compress ∨ i = .build) → imgCfg s.cfg = some g → cmpCfgOk s.plat s.ccfg = true →
    bound s.plat (ccfgProv s.ccfg) (pixSize g) ≤ s.scrCap.toNat →
    s.scrBase.toNat + bound s.plat (ccfgProv s.ccfg) (pixSize g) ≤ addrLimit →
    s.answers = .ok z :: rest → z.length ≤ bound s.plat (ccfgProv s.ccfg) (pixSize g) → k < z.length →
    admits s s.scrBase.toNat k .write → memOk s.plat (s.scrBase.toNat + k) .write = false →
    ∃ t, exec i s = .next t
      ∧ t = { failed s .mem with
          mem := t.mem, draws := t.draws, answers := rest, sent := s.sent ++ [request g s.ccfg] }
      ∧ standsAt s t s.scrBase.toNat (z.take k) ∧ sameOutside s t s.scrBase.toNat k

/-- R270: a backend response longer than the bound, which R209 excludes, stops COMPRESS and BUILD in the model's own
fault. That the model represents it by a fault is its own choice (notes/assumptions/6.md). -/
def Obligations.OverrunStopsCompression : Prop :=
  ∀ (i : Instr) (s : State) (g : ImgCfg) (z : List Byte) (rest : List Answer), (i = .compress ∨ i = .build) →
    imgCfg s.cfg = some g → cmpCfgOk s.plat s.ccfg = true →
    bound s.plat (ccfgProv s.ccfg) (pixSize g) ≤ s.scrCap.toNat →
    (bound s.plat (ccfgProv s.ccfg) (pixSize g) = 0
      ∨ s.scrBase.toNat + bound s.plat (ccfgProv s.ccfg) (pixSize g) ≤ addrLimit) →
    s.answers = .ok z :: rest → bound s.plat (ccfgProv s.ccfg) (pixSize g) < z.length →
    exec i s = .fault .backendOverrun

/-- R208: if the backend keeps its promise for the request (the named hypothesis `answerAdmissible`), the payload
COMPRESS holds inflates, through the inverse of its provider, to the blank pixel buffer. -/
def Obligations.PayloadInflatesToTheBlankBuffer : Prop :=
  ∀ (inflate : Provider → List Byte → Option (List Byte)) (s t : State) (g : ImgCfg) (z : List Byte)
    (rest : List Answer), imgCfg s.cfg = some g → s.answers = .ok z :: rest →
    answerAdmissible inflate s.plat (request g s.ccfg) (.ok z) → unraced s s.scrBase.toNat z.length →
    s.status.err = false → exec .compress s = .next t → t.status.err = false →
    inflate (ccfgProv s.ccfg) (bytesAt t t.scrBase.toNat t.idatLen.toNat) = some (List.replicate (pixSize g) 0#8)

/-! ### Images -/

/-- R233: the length of an image, and its value by colour type. -/
def Obligations.ImageLength : Prop :=
  ∀ (p : Platform) (g : ImgCfg) (z : List Byte),
    (image p g z).length = imageLen g z.length
      ∧ (image p g z).length
          = 8 + 25 + (if g.ct = .indexed then 15 else 0)
            + ((match g.ct with
                | .truecolour => 6
                | .greyscale => 2
                | .indexed => 1) + 12) + (z.length + 12) + 12
      ∧ (image p g z).length
          = (match g.ct with
            | .truecolour => z.length + 75
            | .greyscale => z.length + 71
            | .indexed => z.length + 85)

/-- R232, R231, R230: where the configuration passes, the backend answers `Ok(z)` within the bound, the image fits the
output window, the accesses are admitted, the windows do not overlap and the host did not race for the payload, BUILD
writes exactly the image: the signature, IHDR, PLTE where the image is indexed, tRNS, IDAT with `z`, IEND; the palette
and transparency bytes are PLTE_ENTRY0 and TRNS_BYTES of this PNGE (R7: notes/assumptions/19.md). OUT_POS
moves by its length, RESULT is its length, IDAT_LEN is the payload's, CRC is the trailer of IEND, IDATV is 0, the one
request has been sent; the scratch window holds `z`, and every byte outside the image and the bound-sized scratch range
is as before. -/
def Obligations.BuildWritesTheImage : Prop :=
  ∀ (s : State) (g : ImgCfg) (z : List Byte) (rest : List Answer), imgCfg s.cfg = some g →
    cmpCfgOk s.plat s.ccfg = true →
    bound s.plat (ccfgProv s.ccfg) (pixSize g) ≤ s.scrCap.toNat →
    s.scrBase.toNat + bound s.plat (ccfgProv s.ccfg) (pixSize g) ≤ addrLimit →
    s.answers = .ok z :: rest → z ≠ [] → z.length ≤ bound s.plat (ccfgProv s.ccfg) (pixSize g) →
    outFits s (imageLen g z.length) →
    admits s s.scrBase.toNat z.length .write → admits s s.scrBase.toNat z.length .read →
    admits s (s.outBase.toNat + s.outPos.toNat) (imageLen g z.length) .write →
    disjoint s.scrBase.toNat s.scrCap.toNat (s.outBase.toNat + s.outPos.toNat) (imageLen g z.length) →
    unraced s s.scrBase.toNat z.length →
    ∃ t, exec .build s = .next t
      ∧ t = { s with
          outPos := t.outPos, result := t.result, idatLen := t.idatLen, crc := 0xAE426082#32,
          status := { okStatus s with idatv := false },
          pending := none, busyLeft := 0, raced := [], mem := t.mem, draws := t.draws,
          answers := rest, sent := s.sent ++ [request g s.ccfg] }
      ∧ t.outPos.toNat = s.outPos.toNat + imageLen g z.length
      ∧ t.result.toNat = imageLen g z.length ∧ t.idatLen.toNat = z.length
      ∧ standsAt s t (s.outBase.toNat + s.outPos.toNat)
          ([0x89#8, 0x50#8, 0x4E#8, 0x47#8, 0x0D#8, 0x0A#8, 0x1A#8, 0x0A#8]
            ++ chunk 0x49484452#32 (ihdrPayload g)
            ++ (if g.ct = .indexed then chunk 0x504C5445#32 s.plat.plteEntry0.toList else [])
            ++ chunk 0x74524E53#32 (match g.ct with
              | .truecolour => s.plat.trnsBytes.truecolour.toList
              | .greyscale => s.plat.trnsBytes.greyscale.toList
              | .indexed => s.plat.trnsBytes.indexed.toList) ++ chunk 0x49444154#32 z ++ chunk 0x49454E44#32 [])
      ∧ standsAt s t s.scrBase.toNat z
      ∧ ∀ a, (a < s.outBase.toNat + s.outPos.toNat
            ∨ s.outBase.toNat + s.outPos.toNat + imageLen g z.length ≤ a) →
          (a < s.scrBase.toNat ∨ s.scrBase.toNat + bound s.plat (ccfgProv s.ccfg) (pixSize g) ≤ a) →
          t.peek a = s.peek a

/-- R231, R254: the one capacity check of BUILD comes after compression and before the first output byte: BOUNDS or
ADDR leaves the output window as it was but where the scratch range reaches into it, the scratch window holds the
payload, and no register but STATUS changes. That the payload is exact in an overlap of the windows too is the model's
choice (notes/assumptions/27.md). -/
def Obligations.BuildChecksTheWindowOnce : Prop :=
  ∀ (s : State) (g : ImgCfg) (z : List Byte) (rest : List Answer) (e : ErrCode), imgCfg s.cfg = some g →
    cmpCfgOk s.plat s.ccfg = true →
    bound s.plat (ccfgProv s.ccfg) (pixSize g) ≤ s.scrCap.toNat →
    s.scrBase.toNat + bound s.plat (ccfgProv s.ccfg) (pixSize g) ≤ addrLimit →
    s.answers = .ok z :: rest → z ≠ [] → z.length ≤ bound s.plat (ccfgProv s.ccfg) (pixSize g) →
    admits s s.scrBase.toNat z.length .write →
    (s.outCap.toNat < s.outPos.toNat + imageLen g z.length ∧ e = .bounds
      ∨ s.outPos.toNat + imageLen g z.length ≤ s.outCap.toNat
        ∧ addrLimit < s.outBase.toNat + s.outPos.toNat + imageLen g z.length ∧ e = .addr) →
    ∃ t, exec .build s = .next t
      ∧ t = { failed s e with
          mem := t.mem, draws := t.draws, answers := rest, sent := s.sent ++ [request g s.ccfg] }
      ∧ standsAt s t s.scrBase.toNat z
      ∧ sameOutside s t s.scrBase.toNat (bound s.plat (ccfgProv s.ccfg) (pixSize g))

/-- R231, R72, R254: where the k-th byte of the image is the first that the memory port refuses after compression, be it
the write of it or, for a payload byte, the read-back from the scratch window just before, BUILD ends with MEM: the
first k bytes of the image are written, the scratch window holds the payload, and nothing else has changed but STATUS
and, by the one request, the backend link. -/
def Obligations.BuildStopsAtARefusedByte : Prop :=
  ∀ (s : State) (g : ImgCfg) (z : List Byte) (rest : List Answer) (k : Nat), imgCfg s.cfg = some g →
    cmpCfgOk s.plat s.ccfg = true →
    bound s.plat (ccfgProv s.ccfg) (pixSize g) ≤ s.scrCap.toNat →
    s.scrBase.toNat + bound s.plat (ccfgProv s.ccfg) (pixSize g) ≤ addrLimit →
    s.answers = .ok z :: rest → z ≠ [] → z.length ≤ bound s.plat (ccfgProv s.ccfg) (pixSize g) →
    outFits s (imageLen g z.length) → admits s s.scrBase.toNat z.length .write →
    disjoint s.scrBase.toNat s.scrCap.toNat (s.outBase.toNat + s.outPos.toNat) (imageLen g z.length) →
    unraced s s.scrBase.toNat z.length → k < imageLen g z.length →
    admits s (s.outBase.toNat + s.outPos.toNat) k .write →
    admits s s.scrBase.toNat (min z.length (k - payloadOffset g)) .read →
    (memOk s.plat (s.outBase.toNat + s.outPos.toNat + k) .write = false
      ∨ payloadOffset g ≤ k ∧ k < payloadOffset g + z.length
        ∧ memOk s.plat (s.scrBase.toNat + (k - payloadOffset g)) .read = false) →
    ∃ t, exec .build s = .next t
      ∧ t = { failed s .mem with
          mem := t.mem, draws := t.draws, answers := rest, sent := s.sent ++ [request g s.ccfg] }
      ∧ standsAt s t (s.outBase.toNat + s.outPos.toNat) ((image s.plat g z).take k)
      ∧ standsAt s t s.scrBase.toNat z
      ∧ ∀ a, (a < s.outBase.toNat + s.outPos.toNat ∨ s.outBase.toNat + s.outPos.toNat + k ≤ a) →
          (a < s.scrBase.toNat ∨ s.scrBase.toNat + bound s.plat (ccfgProv s.ccfg) (pixSize g) ≤ a) →
          t.peek a = s.peek a

/-- R85, for BUILD: where the scratch window overlaps the output range, or the host raced, BUILD still completes with
OUT_POS, RESULT, IDAT_LEN and STATUS as the rules say, and leaves every byte outside the output range and the
bound-sized scratch range; a byte of the image outside the overlap has its value, but for the payload and its CRC; so
has a payload byte whose scratch byte lies outside the output range, and the CRC of IDAT where the whole payload does;
and so has a payload byte in the scratch window outside the output range (all but for addresses the host raced for).
Which bytes are left open is the model's reading of R85 (notes/assumptions/8.md, notes/assumptions/10.md). -/
def Obligations.BuildUnderOverlap : Prop :=
  ∀ (s : State) (g : ImgCfg) (z : List Byte) (rest : List Answer), imgCfg s.cfg = some g →
    cmpCfgOk s.plat s.ccfg = true →
    bound s.plat (ccfgProv s.ccfg) (pixSize g) ≤ s.scrCap.toNat →
    s.scrBase.toNat + bound s.plat (ccfgProv s.ccfg) (pixSize g) ≤ addrLimit →
    s.answers = .ok z :: rest → z ≠ [] → z.length ≤ bound s.plat (ccfgProv s.ccfg) (pixSize g) →
    outFits s (imageLen g z.length) → admits s s.scrBase.toNat z.length .write →
    admits s s.scrBase.toNat z.length .read →
    admits s (s.outBase.toNat + s.outPos.toNat) (imageLen g z.length) .write →
    ∃ t, exec .build s = .next t
      ∧ t = { s with
          outPos := t.outPos, result := t.result, idatLen := t.idatLen, crc := t.crc,
          status := { okStatus s with idatv := false },
          pending := none, busyLeft := 0, raced := [], mem := t.mem, draws := t.draws,
          answers := rest, sent := s.sent ++ [request g s.ccfg] }
      ∧ t.outPos.toNat = s.outPos.toNat + imageLen g z.length
      ∧ t.result.toNat = imageLen g z.length ∧ t.idatLen.toNat = z.length
      ∧ (∀ k b, (image s.plat g z)[k]? = some b → s.outBase.toNat + s.outPos.toNat + k ∉ s.raced →
          (s.outBase.toNat + s.outPos.toNat + k < s.scrBase.toNat
            ∨ s.scrBase.toNat + s.scrCap.toNat ≤ s.outBase.toNat + s.outPos.toNat + k) →
          (k < payloadOffset g ∨ payloadOffset g + z.length + 4 ≤ k
            ∨ (k < payloadOffset g + z.length ∧ s.scrBase.toNat + (k - payloadOffset g) ∉ s.raced
              ∧ (s.scrBase.toNat + (k - payloadOffset g) < s.outBase.toNat + s.outPos.toNat
                ∨ s.outBase.toNat + s.outPos.toNat + imageLen g z.length
                    ≤ s.scrBase.toNat + (k - payloadOffset g)))
            ∨ (unraced s s.scrBase.toNat z.length
              ∧ disjoint s.scrBase.toNat z.length (s.outBase.toNat + s.outPos.toNat) (imageLen g z.length))) →
          t.peek (s.outBase.toNat + s.outPos.toNat + k) = b)
      ∧ (∀ k b, z[k]? = some b → s.scrBase.toNat + k ∉ s.raced →
          (s.scrBase.toNat + k < s.outBase.toNat + s.outPos.toNat
            ∨ s.outBase.toNat + s.outPos.toNat + imageLen g z.length ≤ s.scrBase.toNat + k) →
          t.peek (s.scrBase.toNat + k) = b)
      ∧ ∀ a, (a < s.outBase.toNat + s.outPos.toNat
            ∨ s.outBase.toNat + s.outPos.toNat + imageLen g z.length ≤ a) →
          (a < s.scrBase.toNat ∨ s.scrBase.toNat + bound s.plat (ccfgProv s.ccfg) (pixSize g) ≤ a) →
          t.peek a = s.peek a

/-- R117, R153, R232: the separate commands, issued in the order of the image and each accepted by CMD, write the same
image as BUILD does from the same registers and the same backend response. `runAll` runs each accepted command at once,
with no input acting between (the latency is the model's: notes/assumptions/4.md); the palette and transparency bytes
are PLTE_ENTRY0 and TRNS_BYTES of this PNGE (R7: notes/assumptions/19.md). -/
def Obligations.SeparateCommandsBuildTheImage : Prop :=
  ∀ (s : State) (g : ImgCfg) (z : List Byte) (rest : List Answer), imgCfg s.cfg = some g →
    cmpCfgOk s.plat s.ccfg = true →
    bound s.plat (ccfgProv s.ccfg) (pixSize g) ≤ s.scrCap.toNat →
    s.scrBase.toNat + bound s.plat (ccfgProv s.ccfg) (pixSize g) ≤ addrLimit →
    s.answers = .ok z :: rest → z ≠ [] → z.length ≤ bound s.plat (ccfgProv s.ccfg) (pixSize g) →
    outFits s (imageLen g z.length) →
    admits s s.scrBase.toNat z.length .write → admits s s.scrBase.toNat z.length .read →
    admits s (s.outBase.toNat + s.outPos.toNat) (imageLen g z.length) .write →
    disjoint s.scrBase.toNat s.scrCap.toNat (s.outBase.toNat + s.outPos.toNat) (imageLen g z.length) →
    ∃ t u,
      runAll ([.emitSig, .emitIhdr] ++ (if g.ct = .indexed then [Instr.emitPlte] else [])
          ++ [.emitTrns, .compress, .emitIdat, .emitIend]) s = .next t
      ∧ runAll [.build] s = .next u
      ∧ bytesAt t (s.outBase.toNat + s.outPos.toNat) (imageLen g z.length) = image s.plat g z
      ∧ bytesAt u (s.outBase.toNat + s.outPos.toNat) (imageLen g z.length) = image s.plat g z
      ∧ t.outPos = u.outPos ∧ t.idatLen = u.idatLen ∧ t.crc = u.crc ∧ t.status = u.status ∧ t.sent = u.sent
end

