-- ==== Sys2Proof/Laws/State.lean ====
section
/-! SUPPORT. One lemma for each field of the state and each named update: what the field is after the update. -/

namespace Sys2Proof.Machine

@[simp] theorem startCommand_rst (w : Word) (s : State) : (startCommand w s).rst = s.rst := rfl
@[simp] theorem startCommand_ctrl (w : Word) (s : State) : (startCommand w s).ctrl = s.ctrl := rfl
@[simp] theorem startCommand_status (w : Word) (s : State) : (startCommand w s).status = { s.status with busy := true, done := false, err := false, ecode := .noError } := rfl
@[simp] theorem startCommand_cfg (w : Word) (s : State) : (startCommand w s).cfg = s.cfg := rfl
@[simp] theorem startCommand_ccfg (w : Word) (s : State) : (startCommand w s).ccfg = s.ccfg := rfl
@[simp] theorem startCommand_type (w : Word) (s : State) : (startCommand w s).type = s.type := rfl
@[simp] theorem startCommand_srcAddr (w : Word) (s : State) : (startCommand w s).srcAddr = s.srcAddr := rfl
@[simp] theorem startCommand_srcLen (w : Word) (s : State) : (startCommand w s).srcLen = s.srcLen := rfl
@[simp] theorem startCommand_outBase (w : Word) (s : State) : (startCommand w s).outBase = s.outBase := rfl
@[simp] theorem startCommand_outCap (w : Word) (s : State) : (startCommand w s).outCap = s.outCap := rfl
@[simp] theorem startCommand_outPos (w : Word) (s : State) : (startCommand w s).outPos = s.outPos := rfl
@[simp] theorem startCommand_scrBase (w : Word) (s : State) : (startCommand w s).scrBase = s.scrBase := rfl
@[simp] theorem startCommand_scrCap (w : Word) (s : State) : (startCommand w s).scrCap = s.scrCap := rfl
@[simp] theorem startCommand_idatLen (w : Word) (s : State) : (startCommand w s).idatLen = s.idatLen := rfl
@[simp] theorem startCommand_result (w : Word) (s : State) : (startCommand w s).result = s.result := rfl
@[simp] theorem startCommand_crc (w : Word) (s : State) : (startCommand w s).crc = s.crc := rfl
@[simp] theorem startCommand_pending (w : Word) (s : State) : (startCommand w s).pending = some w := rfl
@[simp] theorem startCommand_mem (w : Word) (s : State) : (startCommand w s).mem = s.mem := rfl
@[simp] theorem startCommand_inputs (w : Word) (s : State) : (startCommand w s).inputs = s.inputs := rfl
@[simp] theorem startCommand_resp (w : Word) (s : State) : (startCommand w s).resp = s.resp := rfl
@[simp] theorem startCommand_answers (w : Word) (s : State) : (startCommand w s).answers = s.answers := rfl
@[simp] theorem startCommand_sent (w : Word) (s : State) : (startCommand w s).sent = s.sent := rfl
@[simp] theorem startCommand_busyLeft (w : Word) (s : State) : (startCommand w s).busyLeft = 0 := rfl
@[simp] theorem startCommand_raced (w : Word) (s : State) : (startCommand w s).raced = [] := rfl
@[simp] theorem startCommand_draws (w : Word) (s : State) : (startCommand w s).draws = s.draws := rfl
@[simp] theorem startCommand_plat (w : Word) (s : State) : (startCommand w s).plat = s.plat := rfl

@[simp] theorem errorCompletion_rst (s : State) (e : ErrCode) (p : Port) : (errorCompletion s e p).rst = s.rst := rfl
@[simp] theorem errorCompletion_ctrl (s : State) (e : ErrCode) (p : Port) : (errorCompletion s e p).ctrl = s.ctrl := rfl
@[simp] theorem errorCompletion_status (s : State) (e : ErrCode) (p : Port) : (errorCompletion s e p).status = { s.status with busy := false, err := true, ecode := e, idatv := false } := rfl
@[simp] theorem errorCompletion_cfg (s : State) (e : ErrCode) (p : Port) : (errorCompletion s e p).cfg = s.cfg := rfl
@[simp] theorem errorCompletion_ccfg (s : State) (e : ErrCode) (p : Port) : (errorCompletion s e p).ccfg = s.ccfg := rfl
@[simp] theorem errorCompletion_type (s : State) (e : ErrCode) (p : Port) : (errorCompletion s e p).type = s.type := rfl
@[simp] theorem errorCompletion_srcAddr (s : State) (e : ErrCode) (p : Port) : (errorCompletion s e p).srcAddr = s.srcAddr := rfl
@[simp] theorem errorCompletion_srcLen (s : State) (e : ErrCode) (p : Port) : (errorCompletion s e p).srcLen = s.srcLen := rfl
@[simp] theorem errorCompletion_outBase (s : State) (e : ErrCode) (p : Port) : (errorCompletion s e p).outBase = s.outBase := rfl
@[simp] theorem errorCompletion_outCap (s : State) (e : ErrCode) (p : Port) : (errorCompletion s e p).outCap = s.outCap := rfl
@[simp] theorem errorCompletion_outPos (s : State) (e : ErrCode) (p : Port) : (errorCompletion s e p).outPos = s.outPos := rfl
@[simp] theorem errorCompletion_scrBase (s : State) (e : ErrCode) (p : Port) : (errorCompletion s e p).scrBase = s.scrBase := rfl
@[simp] theorem errorCompletion_scrCap (s : State) (e : ErrCode) (p : Port) : (errorCompletion s e p).scrCap = s.scrCap := rfl
@[simp] theorem errorCompletion_idatLen (s : State) (e : ErrCode) (p : Port) : (errorCompletion s e p).idatLen = s.idatLen := rfl
@[simp] theorem errorCompletion_result (s : State) (e : ErrCode) (p : Port) : (errorCompletion s e p).result = s.result := rfl
@[simp] theorem errorCompletion_crc (s : State) (e : ErrCode) (p : Port) : (errorCompletion s e p).crc = s.crc := rfl
@[simp] theorem errorCompletion_pending (s : State) (e : ErrCode) (p : Port) : (errorCompletion s e p).pending = none := rfl
@[simp] theorem errorCompletion_mem (s : State) (e : ErrCode) (p : Port) : (errorCompletion s e p).mem = p.mem := rfl
@[simp] theorem errorCompletion_inputs (s : State) (e : ErrCode) (p : Port) : (errorCompletion s e p).inputs = s.inputs := rfl
@[simp] theorem errorCompletion_resp (s : State) (e : ErrCode) (p : Port) : (errorCompletion s e p).resp = s.resp := rfl
@[simp] theorem errorCompletion_answers (s : State) (e : ErrCode) (p : Port) : (errorCompletion s e p).answers = s.answers := rfl
@[simp] theorem errorCompletion_sent (s : State) (e : ErrCode) (p : Port) : (errorCompletion s e p).sent = s.sent := rfl
@[simp] theorem errorCompletion_busyLeft (s : State) (e : ErrCode) (p : Port) : (errorCompletion s e p).busyLeft = 0 := rfl
@[simp] theorem errorCompletion_raced (s : State) (e : ErrCode) (p : Port) : (errorCompletion s e p).raced = [] := rfl
@[simp] theorem errorCompletion_draws (s : State) (e : ErrCode) (p : Port) : (errorCompletion s e p).draws = p.draws := rfl
@[simp] theorem errorCompletion_plat (s : State) (e : ErrCode) (p : Port) : (errorCompletion s e p).plat = s.plat := rfl

@[simp] theorem successCompletion_rst (s : State) (p : Port) : (successCompletion s p).rst = s.rst := rfl
@[simp] theorem successCompletion_ctrl (s : State) (p : Port) : (successCompletion s p).ctrl = s.ctrl := rfl
@[simp] theorem successCompletion_status (s : State) (p : Port) : (successCompletion s p).status = { s.status with busy := false, done := true } := rfl
@[simp] theorem successCompletion_cfg (s : State) (p : Port) : (successCompletion s p).cfg = s.cfg := rfl
@[simp] theorem successCompletion_ccfg (s : State) (p : Port) : (successCompletion s p).ccfg = s.ccfg := rfl
@[simp] theorem successCompletion_type (s : State) (p : Port) : (successCompletion s p).type = s.type := rfl
@[simp] theorem successCompletion_srcAddr (s : State) (p : Port) : (successCompletion s p).srcAddr = s.srcAddr := rfl
@[simp] theorem successCompletion_srcLen (s : State) (p : Port) : (successCompletion s p).srcLen = s.srcLen := rfl
@[simp] theorem successCompletion_outBase (s : State) (p : Port) : (successCompletion s p).outBase = s.outBase := rfl
@[simp] theorem successCompletion_outCap (s : State) (p : Port) : (successCompletion s p).outCap = s.outCap := rfl
@[simp] theorem successCompletion_outPos (s : State) (p : Port) : (successCompletion s p).outPos = s.outPos := rfl
@[simp] theorem successCompletion_scrBase (s : State) (p : Port) : (successCompletion s p).scrBase = s.scrBase := rfl
@[simp] theorem successCompletion_scrCap (s : State) (p : Port) : (successCompletion s p).scrCap = s.scrCap := rfl
@[simp] theorem successCompletion_idatLen (s : State) (p : Port) : (successCompletion s p).idatLen = s.idatLen := rfl
@[simp] theorem successCompletion_result (s : State) (p : Port) : (successCompletion s p).result = s.result := rfl
@[simp] theorem successCompletion_crc (s : State) (p : Port) : (successCompletion s p).crc = s.crc := rfl
@[simp] theorem successCompletion_pending (s : State) (p : Port) : (successCompletion s p).pending = none := rfl
@[simp] theorem successCompletion_mem (s : State) (p : Port) : (successCompletion s p).mem = p.mem := rfl
@[simp] theorem successCompletion_inputs (s : State) (p : Port) : (successCompletion s p).inputs = s.inputs := rfl
@[simp] theorem successCompletion_resp (s : State) (p : Port) : (successCompletion s p).resp = s.resp := rfl
@[simp] theorem successCompletion_answers (s : State) (p : Port) : (successCompletion s p).answers = s.answers := rfl
@[simp] theorem successCompletion_sent (s : State) (p : Port) : (successCompletion s p).sent = s.sent := rfl
@[simp] theorem successCompletion_busyLeft (s : State) (p : Port) : (successCompletion s p).busyLeft = 0 := rfl
@[simp] theorem successCompletion_raced (s : State) (p : Port) : (successCompletion s p).raced = [] := rfl
@[simp] theorem successCompletion_draws (s : State) (p : Port) : (successCompletion s p).draws = p.draws := rfl
@[simp] theorem successCompletion_plat (s : State) (p : Port) : (successCompletion s p).plat = s.plat := rfl

@[simp] theorem advanceOut_rst (s : State) (n : Nat) : (advanceOut s n).rst = s.rst := rfl
@[simp] theorem advanceOut_ctrl (s : State) (n : Nat) : (advanceOut s n).ctrl = s.ctrl := rfl
@[simp] theorem advanceOut_status (s : State) (n : Nat) : (advanceOut s n).status = s.status := rfl
@[simp] theorem advanceOut_cfg (s : State) (n : Nat) : (advanceOut s n).cfg = s.cfg := rfl
@[simp] theorem advanceOut_ccfg (s : State) (n : Nat) : (advanceOut s n).ccfg = s.ccfg := rfl
@[simp] theorem advanceOut_type (s : State) (n : Nat) : (advanceOut s n).type = s.type := rfl
@[simp] theorem advanceOut_srcAddr (s : State) (n : Nat) : (advanceOut s n).srcAddr = s.srcAddr := rfl
@[simp] theorem advanceOut_srcLen (s : State) (n : Nat) : (advanceOut s n).srcLen = s.srcLen := rfl
@[simp] theorem advanceOut_outBase (s : State) (n : Nat) : (advanceOut s n).outBase = s.outBase := rfl
@[simp] theorem advanceOut_outCap (s : State) (n : Nat) : (advanceOut s n).outCap = s.outCap := rfl
@[simp] theorem advanceOut_outPos (s : State) (n : Nat) : (advanceOut s n).outPos = BitVec.ofNat 32 (s.outPos.toNat + n) := rfl
@[simp] theorem advanceOut_scrBase (s : State) (n : Nat) : (advanceOut s n).scrBase = s.scrBase := rfl
@[simp] theorem advanceOut_scrCap (s : State) (n : Nat) : (advanceOut s n).scrCap = s.scrCap := rfl
@[simp] theorem advanceOut_idatLen (s : State) (n : Nat) : (advanceOut s n).idatLen = s.idatLen := rfl
@[simp] theorem advanceOut_result (s : State) (n : Nat) : (advanceOut s n).result = BitVec.ofNat 32 n := rfl
@[simp] theorem advanceOut_crc (s : State) (n : Nat) : (advanceOut s n).crc = s.crc := rfl
@[simp] theorem advanceOut_pending (s : State) (n : Nat) : (advanceOut s n).pending = s.pending := rfl
@[simp] theorem advanceOut_mem (s : State) (n : Nat) : (advanceOut s n).mem = s.mem := rfl
@[simp] theorem advanceOut_inputs (s : State) (n : Nat) : (advanceOut s n).inputs = s.inputs := rfl
@[simp] theorem advanceOut_resp (s : State) (n : Nat) : (advanceOut s n).resp = s.resp := rfl
@[simp] theorem advanceOut_answers (s : State) (n : Nat) : (advanceOut s n).answers = s.answers := rfl
@[simp] theorem advanceOut_sent (s : State) (n : Nat) : (advanceOut s n).sent = s.sent := rfl
@[simp] theorem advanceOut_busyLeft (s : State) (n : Nat) : (advanceOut s n).busyLeft = s.busyLeft := rfl
@[simp] theorem advanceOut_raced (s : State) (n : Nat) : (advanceOut s n).raced = s.raced := rfl
@[simp] theorem advanceOut_draws (s : State) (n : Nat) : (advanceOut s n).draws = s.draws := rfl
@[simp] theorem advanceOut_plat (s : State) (n : Nat) : (advanceOut s n).plat = s.plat := rfl

@[simp] theorem writeCrc_rst (s : State) (c : Word) : (writeCrc s c).rst = s.rst := rfl
@[simp] theorem writeCrc_ctrl (s : State) (c : Word) : (writeCrc s c).ctrl = s.ctrl := rfl
@[simp] theorem writeCrc_status (s : State) (c : Word) : (writeCrc s c).status = s.status := rfl
@[simp] theorem writeCrc_cfg (s : State) (c : Word) : (writeCrc s c).cfg = s.cfg := rfl
@[simp] theorem writeCrc_ccfg (s : State) (c : Word) : (writeCrc s c).ccfg = s.ccfg := rfl
@[simp] theorem writeCrc_type (s : State) (c : Word) : (writeCrc s c).type = s.type := rfl
@[simp] theorem writeCrc_srcAddr (s : State) (c : Word) : (writeCrc s c).srcAddr = s.srcAddr := rfl
@[simp] theorem writeCrc_srcLen (s : State) (c : Word) : (writeCrc s c).srcLen = s.srcLen := rfl
@[simp] theorem writeCrc_outBase (s : State) (c : Word) : (writeCrc s c).outBase = s.outBase := rfl
@[simp] theorem writeCrc_outCap (s : State) (c : Word) : (writeCrc s c).outCap = s.outCap := rfl
@[simp] theorem writeCrc_outPos (s : State) (c : Word) : (writeCrc s c).outPos = s.outPos := rfl
@[simp] theorem writeCrc_scrBase (s : State) (c : Word) : (writeCrc s c).scrBase = s.scrBase := rfl
@[simp] theorem writeCrc_scrCap (s : State) (c : Word) : (writeCrc s c).scrCap = s.scrCap := rfl
@[simp] theorem writeCrc_idatLen (s : State) (c : Word) : (writeCrc s c).idatLen = s.idatLen := rfl
@[simp] theorem writeCrc_result (s : State) (c : Word) : (writeCrc s c).result = s.result := rfl
@[simp] theorem writeCrc_crc (s : State) (c : Word) : (writeCrc s c).crc = c := rfl
@[simp] theorem writeCrc_pending (s : State) (c : Word) : (writeCrc s c).pending = s.pending := rfl
@[simp] theorem writeCrc_mem (s : State) (c : Word) : (writeCrc s c).mem = s.mem := rfl
@[simp] theorem writeCrc_inputs (s : State) (c : Word) : (writeCrc s c).inputs = s.inputs := rfl
@[simp] theorem writeCrc_resp (s : State) (c : Word) : (writeCrc s c).resp = s.resp := rfl
@[simp] theorem writeCrc_answers (s : State) (c : Word) : (writeCrc s c).answers = s.answers := rfl
@[simp] theorem writeCrc_sent (s : State) (c : Word) : (writeCrc s c).sent = s.sent := rfl
@[simp] theorem writeCrc_busyLeft (s : State) (c : Word) : (writeCrc s c).busyLeft = s.busyLeft := rfl
@[simp] theorem writeCrc_raced (s : State) (c : Word) : (writeCrc s c).raced = s.raced := rfl
@[simp] theorem writeCrc_draws (s : State) (c : Word) : (writeCrc s c).draws = s.draws := rfl
@[simp] theorem writeCrc_plat (s : State) (c : Word) : (writeCrc s c).plat = s.plat := rfl

@[simp] theorem writeIdatv_rst (s : State) (v : Bool) : (writeIdatv s v).rst = s.rst := rfl
@[simp] theorem writeIdatv_ctrl (s : State) (v : Bool) : (writeIdatv s v).ctrl = s.ctrl := rfl
@[simp] theorem writeIdatv_status (s : State) (v : Bool) : (writeIdatv s v).status = { s.status with idatv := v } := rfl
@[simp] theorem writeIdatv_cfg (s : State) (v : Bool) : (writeIdatv s v).cfg = s.cfg := rfl
@[simp] theorem writeIdatv_ccfg (s : State) (v : Bool) : (writeIdatv s v).ccfg = s.ccfg := rfl
@[simp] theorem writeIdatv_type (s : State) (v : Bool) : (writeIdatv s v).type = s.type := rfl
@[simp] theorem writeIdatv_srcAddr (s : State) (v : Bool) : (writeIdatv s v).srcAddr = s.srcAddr := rfl
@[simp] theorem writeIdatv_srcLen (s : State) (v : Bool) : (writeIdatv s v).srcLen = s.srcLen := rfl
@[simp] theorem writeIdatv_outBase (s : State) (v : Bool) : (writeIdatv s v).outBase = s.outBase := rfl
@[simp] theorem writeIdatv_outCap (s : State) (v : Bool) : (writeIdatv s v).outCap = s.outCap := rfl
@[simp] theorem writeIdatv_outPos (s : State) (v : Bool) : (writeIdatv s v).outPos = s.outPos := rfl
@[simp] theorem writeIdatv_scrBase (s : State) (v : Bool) : (writeIdatv s v).scrBase = s.scrBase := rfl
@[simp] theorem writeIdatv_scrCap (s : State) (v : Bool) : (writeIdatv s v).scrCap = s.scrCap := rfl
@[simp] theorem writeIdatv_idatLen (s : State) (v : Bool) : (writeIdatv s v).idatLen = s.idatLen := rfl
@[simp] theorem writeIdatv_result (s : State) (v : Bool) : (writeIdatv s v).result = s.result := rfl
@[simp] theorem writeIdatv_crc (s : State) (v : Bool) : (writeIdatv s v).crc = s.crc := rfl
@[simp] theorem writeIdatv_pending (s : State) (v : Bool) : (writeIdatv s v).pending = s.pending := rfl
@[simp] theorem writeIdatv_mem (s : State) (v : Bool) : (writeIdatv s v).mem = s.mem := rfl
@[simp] theorem writeIdatv_inputs (s : State) (v : Bool) : (writeIdatv s v).inputs = s.inputs := rfl
@[simp] theorem writeIdatv_resp (s : State) (v : Bool) : (writeIdatv s v).resp = s.resp := rfl
@[simp] theorem writeIdatv_answers (s : State) (v : Bool) : (writeIdatv s v).answers = s.answers := rfl
@[simp] theorem writeIdatv_sent (s : State) (v : Bool) : (writeIdatv s v).sent = s.sent := rfl
@[simp] theorem writeIdatv_busyLeft (s : State) (v : Bool) : (writeIdatv s v).busyLeft = s.busyLeft := rfl
@[simp] theorem writeIdatv_raced (s : State) (v : Bool) : (writeIdatv s v).raced = s.raced := rfl
@[simp] theorem writeIdatv_draws (s : State) (v : Bool) : (writeIdatv s v).draws = s.draws := rfl
@[simp] theorem writeIdatv_plat (s : State) (v : Bool) : (writeIdatv s v).plat = s.plat := rfl

@[simp] theorem writeIdatLen_rst (s : State) (n : Nat) : (writeIdatLen s n).rst = s.rst := rfl
@[simp] theorem writeIdatLen_ctrl (s : State) (n : Nat) : (writeIdatLen s n).ctrl = s.ctrl := rfl
@[simp] theorem writeIdatLen_status (s : State) (n : Nat) : (writeIdatLen s n).status = s.status := rfl
@[simp] theorem writeIdatLen_cfg (s : State) (n : Nat) : (writeIdatLen s n).cfg = s.cfg := rfl
@[simp] theorem writeIdatLen_ccfg (s : State) (n : Nat) : (writeIdatLen s n).ccfg = s.ccfg := rfl
@[simp] theorem writeIdatLen_type (s : State) (n : Nat) : (writeIdatLen s n).type = s.type := rfl
@[simp] theorem writeIdatLen_srcAddr (s : State) (n : Nat) : (writeIdatLen s n).srcAddr = s.srcAddr := rfl
@[simp] theorem writeIdatLen_srcLen (s : State) (n : Nat) : (writeIdatLen s n).srcLen = s.srcLen := rfl
@[simp] theorem writeIdatLen_outBase (s : State) (n : Nat) : (writeIdatLen s n).outBase = s.outBase := rfl
@[simp] theorem writeIdatLen_outCap (s : State) (n : Nat) : (writeIdatLen s n).outCap = s.outCap := rfl
@[simp] theorem writeIdatLen_outPos (s : State) (n : Nat) : (writeIdatLen s n).outPos = s.outPos := rfl
@[simp] theorem writeIdatLen_scrBase (s : State) (n : Nat) : (writeIdatLen s n).scrBase = s.scrBase := rfl
@[simp] theorem writeIdatLen_scrCap (s : State) (n : Nat) : (writeIdatLen s n).scrCap = s.scrCap := rfl
@[simp] theorem writeIdatLen_idatLen (s : State) (n : Nat) : (writeIdatLen s n).idatLen = BitVec.ofNat 32 n := rfl
@[simp] theorem writeIdatLen_result (s : State) (n : Nat) : (writeIdatLen s n).result = s.result := rfl
@[simp] theorem writeIdatLen_crc (s : State) (n : Nat) : (writeIdatLen s n).crc = s.crc := rfl
@[simp] theorem writeIdatLen_pending (s : State) (n : Nat) : (writeIdatLen s n).pending = s.pending := rfl
@[simp] theorem writeIdatLen_mem (s : State) (n : Nat) : (writeIdatLen s n).mem = s.mem := rfl
@[simp] theorem writeIdatLen_inputs (s : State) (n : Nat) : (writeIdatLen s n).inputs = s.inputs := rfl
@[simp] theorem writeIdatLen_resp (s : State) (n : Nat) : (writeIdatLen s n).resp = s.resp := rfl
@[simp] theorem writeIdatLen_answers (s : State) (n : Nat) : (writeIdatLen s n).answers = s.answers := rfl
@[simp] theorem writeIdatLen_sent (s : State) (n : Nat) : (writeIdatLen s n).sent = s.sent := rfl
@[simp] theorem writeIdatLen_busyLeft (s : State) (n : Nat) : (writeIdatLen s n).busyLeft = s.busyLeft := rfl
@[simp] theorem writeIdatLen_raced (s : State) (n : Nat) : (writeIdatLen s n).raced = s.raced := rfl
@[simp] theorem writeIdatLen_draws (s : State) (n : Nat) : (writeIdatLen s n).draws = s.draws := rfl
@[simp] theorem writeIdatLen_plat (s : State) (n : Nat) : (writeIdatLen s n).plat = s.plat := rfl

@[simp] theorem writeResult_rst (s : State) (w : Word) : (writeResult s w).rst = s.rst := rfl
@[simp] theorem writeResult_ctrl (s : State) (w : Word) : (writeResult s w).ctrl = s.ctrl := rfl
@[simp] theorem writeResult_status (s : State) (w : Word) : (writeResult s w).status = s.status := rfl
@[simp] theorem writeResult_cfg (s : State) (w : Word) : (writeResult s w).cfg = s.cfg := rfl
@[simp] theorem writeResult_ccfg (s : State) (w : Word) : (writeResult s w).ccfg = s.ccfg := rfl
@[simp] theorem writeResult_type (s : State) (w : Word) : (writeResult s w).type = s.type := rfl
@[simp] theorem writeResult_srcAddr (s : State) (w : Word) : (writeResult s w).srcAddr = s.srcAddr := rfl
@[simp] theorem writeResult_srcLen (s : State) (w : Word) : (writeResult s w).srcLen = s.srcLen := rfl
@[simp] theorem writeResult_outBase (s : State) (w : Word) : (writeResult s w).outBase = s.outBase := rfl
@[simp] theorem writeResult_outCap (s : State) (w : Word) : (writeResult s w).outCap = s.outCap := rfl
@[simp] theorem writeResult_outPos (s : State) (w : Word) : (writeResult s w).outPos = s.outPos := rfl
@[simp] theorem writeResult_scrBase (s : State) (w : Word) : (writeResult s w).scrBase = s.scrBase := rfl
@[simp] theorem writeResult_scrCap (s : State) (w : Word) : (writeResult s w).scrCap = s.scrCap := rfl
@[simp] theorem writeResult_idatLen (s : State) (w : Word) : (writeResult s w).idatLen = s.idatLen := rfl
@[simp] theorem writeResult_result (s : State) (w : Word) : (writeResult s w).result = w := rfl
@[simp] theorem writeResult_crc (s : State) (w : Word) : (writeResult s w).crc = s.crc := rfl
@[simp] theorem writeResult_pending (s : State) (w : Word) : (writeResult s w).pending = s.pending := rfl
@[simp] theorem writeResult_mem (s : State) (w : Word) : (writeResult s w).mem = s.mem := rfl
@[simp] theorem writeResult_inputs (s : State) (w : Word) : (writeResult s w).inputs = s.inputs := rfl
@[simp] theorem writeResult_resp (s : State) (w : Word) : (writeResult s w).resp = s.resp := rfl
@[simp] theorem writeResult_answers (s : State) (w : Word) : (writeResult s w).answers = s.answers := rfl
@[simp] theorem writeResult_sent (s : State) (w : Word) : (writeResult s w).sent = s.sent := rfl
@[simp] theorem writeResult_busyLeft (s : State) (w : Word) : (writeResult s w).busyLeft = s.busyLeft := rfl
@[simp] theorem writeResult_raced (s : State) (w : Word) : (writeResult s w).raced = s.raced := rfl
@[simp] theorem writeResult_draws (s : State) (w : Word) : (writeResult s w).draws = s.draws := rfl
@[simp] theorem writeResult_plat (s : State) (w : Word) : (writeResult s w).plat = s.plat := rfl

@[simp] theorem setOvr_rst (s : State) : (setOvr s).rst = s.rst := rfl
@[simp] theorem setOvr_ctrl (s : State) : (setOvr s).ctrl = s.ctrl := rfl
@[simp] theorem setOvr_status (s : State) : (setOvr s).status = { s.status with ovr := true } := rfl
@[simp] theorem setOvr_cfg (s : State) : (setOvr s).cfg = s.cfg := rfl
@[simp] theorem setOvr_ccfg (s : State) : (setOvr s).ccfg = s.ccfg := rfl
@[simp] theorem setOvr_type (s : State) : (setOvr s).type = s.type := rfl
@[simp] theorem setOvr_srcAddr (s : State) : (setOvr s).srcAddr = s.srcAddr := rfl
@[simp] theorem setOvr_srcLen (s : State) : (setOvr s).srcLen = s.srcLen := rfl
@[simp] theorem setOvr_outBase (s : State) : (setOvr s).outBase = s.outBase := rfl
@[simp] theorem setOvr_outCap (s : State) : (setOvr s).outCap = s.outCap := rfl
@[simp] theorem setOvr_outPos (s : State) : (setOvr s).outPos = s.outPos := rfl
@[simp] theorem setOvr_scrBase (s : State) : (setOvr s).scrBase = s.scrBase := rfl
@[simp] theorem setOvr_scrCap (s : State) : (setOvr s).scrCap = s.scrCap := rfl
@[simp] theorem setOvr_idatLen (s : State) : (setOvr s).idatLen = s.idatLen := rfl
@[simp] theorem setOvr_result (s : State) : (setOvr s).result = s.result := rfl
@[simp] theorem setOvr_crc (s : State) : (setOvr s).crc = s.crc := rfl
@[simp] theorem setOvr_pending (s : State) : (setOvr s).pending = s.pending := rfl
@[simp] theorem setOvr_mem (s : State) : (setOvr s).mem = s.mem := rfl
@[simp] theorem setOvr_inputs (s : State) : (setOvr s).inputs = s.inputs := rfl
@[simp] theorem setOvr_resp (s : State) : (setOvr s).resp = s.resp := rfl
@[simp] theorem setOvr_answers (s : State) : (setOvr s).answers = s.answers := rfl
@[simp] theorem setOvr_sent (s : State) : (setOvr s).sent = s.sent := rfl
@[simp] theorem setOvr_busyLeft (s : State) : (setOvr s).busyLeft = s.busyLeft := rfl
@[simp] theorem setOvr_raced (s : State) : (setOvr s).raced = s.raced := rfl
@[simp] theorem setOvr_draws (s : State) : (setOvr s).draws = s.draws := rfl
@[simp] theorem setOvr_plat (s : State) : (setOvr s).plat = s.plat := rfl

@[simp] theorem failed_rst (s : State) (e : ErrCode) : (failed s e).rst = s.rst := rfl
@[simp] theorem failed_ctrl (s : State) (e : ErrCode) : (failed s e).ctrl = s.ctrl := rfl
@[simp] theorem failed_status (s : State) (e : ErrCode) : (failed s e).status = { s.status with busy := false, err := true, ecode := e, idatv := false } := rfl
@[simp] theorem failed_cfg (s : State) (e : ErrCode) : (failed s e).cfg = s.cfg := rfl
@[simp] theorem failed_ccfg (s : State) (e : ErrCode) : (failed s e).ccfg = s.ccfg := rfl
@[simp] theorem failed_type (s : State) (e : ErrCode) : (failed s e).type = s.type := rfl
@[simp] theorem failed_srcAddr (s : State) (e : ErrCode) : (failed s e).srcAddr = s.srcAddr := rfl
@[simp] theorem failed_srcLen (s : State) (e : ErrCode) : (failed s e).srcLen = s.srcLen := rfl
@[simp] theorem failed_outBase (s : State) (e : ErrCode) : (failed s e).outBase = s.outBase := rfl
@[simp] theorem failed_outCap (s : State) (e : ErrCode) : (failed s e).outCap = s.outCap := rfl
@[simp] theorem failed_outPos (s : State) (e : ErrCode) : (failed s e).outPos = s.outPos := rfl
@[simp] theorem failed_scrBase (s : State) (e : ErrCode) : (failed s e).scrBase = s.scrBase := rfl
@[simp] theorem failed_scrCap (s : State) (e : ErrCode) : (failed s e).scrCap = s.scrCap := rfl
@[simp] theorem failed_idatLen (s : State) (e : ErrCode) : (failed s e).idatLen = s.idatLen := rfl
@[simp] theorem failed_result (s : State) (e : ErrCode) : (failed s e).result = s.result := rfl
@[simp] theorem failed_crc (s : State) (e : ErrCode) : (failed s e).crc = s.crc := rfl
@[simp] theorem failed_pending (s : State) (e : ErrCode) : (failed s e).pending = none := rfl
@[simp] theorem failed_mem (s : State) (e : ErrCode) : (failed s e).mem = s.mem := rfl
@[simp] theorem failed_inputs (s : State) (e : ErrCode) : (failed s e).inputs = s.inputs := rfl
@[simp] theorem failed_resp (s : State) (e : ErrCode) : (failed s e).resp = s.resp := rfl
@[simp] theorem failed_answers (s : State) (e : ErrCode) : (failed s e).answers = s.answers := rfl
@[simp] theorem failed_sent (s : State) (e : ErrCode) : (failed s e).sent = s.sent := rfl
@[simp] theorem failed_busyLeft (s : State) (e : ErrCode) : (failed s e).busyLeft = 0 := rfl
@[simp] theorem failed_raced (s : State) (e : ErrCode) : (failed s e).raced = [] := rfl
@[simp] theorem failed_draws (s : State) (e : ErrCode) : (failed s e).draws = s.draws := rfl
@[simp] theorem failed_plat (s : State) (e : ErrCode) : (failed s e).plat = s.plat := rfl

/-- An error completion that changes no memory and draws nothing is `failed`. -/
@[simp] theorem errorCompletion_port (s : State) (e : ErrCode) : errorCompletion s e s.port = failed s e := rfl

@[simp] theorem port_mem (s : State) : s.port.mem = s.mem := rfl

@[simp] theorem port_draws (s : State) : s.port.draws = s.draws := rfl

@[simp] theorem env_plat (s : State) (ovl : Nat → Bool) : (s.env ovl).plat = s.plat := rfl

@[simp] theorem env_isOpen (s : State) (ovl : Nat → Bool) (a : Nat) :
    (s.env ovl).isOpen a = (ovl a || s.raced.contains a) := rfl

@[simp] theorem noOverlap_apply (a : Nat) : noOverlap a = false := rfl

end Sys2Proof.Machine
end

