-- ==== Sys2Proof/Laws/Memory.lean ====
section
/-! SUPPORT. The laws of memory: read after write, and that a write keeps the canonical form. -/

namespace Sys2Proof.Machine

theorem get_set_same (m : Memory) (a : Nat) (b : Byte) : (Memory.set m a b).get a = some b := by
  induction m with
  | nil => simp [Memory.set, Memory.get]
  | cons c t ih =>
    obtain ⟨k, v⟩ := c
    simp only [Memory.set]
    split
    · simp [Memory.get]
    · split
      · simp [Memory.get]
      · simp [Memory.get, *]

theorem get_set_other (m : Memory) {a x : Nat} (b : Byte) (h : x ≠ a) :
    (Memory.set m a b).get x = m.get x := by
  induction m with
  | nil => simp [Memory.set, Memory.get, h]
  | cons c t ih =>
    obtain ⟨k, v⟩ := c
    simp only [Memory.set]
    split
    · simp [Memory.get, h]
    · split
      · subst a; simp [Memory.get, h]
      · simp [Memory.get, ih]

@[simp] theorem byteAt_set_same (m : Memory) (a : Nat) (b : Byte) : (Memory.set m a b).byteAt a = b := by
  simp [Memory.byteAt, get_set_same]

theorem byteAt_set_other (m : Memory) {a x : Nat} (b : Byte) (h : x ≠ a) :
    (Memory.set m a b).byteAt x = m.byteAt x := by
  simp [Memory.byteAt, get_set_other m b h]

theorem above_set {m : Memory} {k a : Nat} (b : Byte) (hm : Memory.above k m = true) (h : k < a) :
    Memory.above k (Memory.set m a b) = true := by
  induction m with
  | nil => simp [Memory.set, Memory.above, h]
  | cons c t ih =>
    obtain ⟨j, v⟩ := c
    simp only [Memory.above, List.all_cons, Bool.and_eq_true] at hm ih
    simp only [Memory.set]
    split
    · simpa [Memory.above, h] using hm
    · split
      · simpa [Memory.above, h] using hm.2
      · simpa [Memory.above] using ⟨by simpa using hm.1, by simpa using ih hm.2⟩

theorem above_trans {m : Memory} {j k : Nat} (h : j < k) (hm : Memory.above k m = true) :
    Memory.above j m = true := by
  simp only [Memory.above, List.all_eq_true, decide_eq_true_eq] at *
  exact fun c hc => lt_trans h (hm c hc)

/-- A write inside the memory space keeps the canonical form. -/
theorem set_wf {m : Memory} {a : Nat} (b : Byte) (hm : Memory.wf m = true) (ha : a < addrLimit) :
    Memory.wf (Memory.set m a b) = true := by
  induction m with
  | nil => simpa [Memory.set, Memory.wf, Memory.above] using ha
  | cons c t ih =>
    obtain ⟨k, v⟩ := c
    simp only [Memory.wf, Bool.and_eq_true, decide_eq_true_eq] at hm
    obtain ⟨⟨hk, hab⟩, ht⟩ := hm
    simp only [Memory.set]
    split
    · rename_i hak
      have h1 : Memory.above a ((k, v) :: t) = true := by
        have := above_trans hak hab
        simp only [Memory.above, List.all_cons, Bool.and_eq_true, decide_eq_true_eq] at this ⊢
        exact ⟨hak, this⟩
      simp [Memory.wf, h1, hk, hab, ht, ha]
    · split
      · rename_i hak
        subst hak
        simp [Memory.wf, hab, ht, ha]
      · rename_i h1 h2
        have h3 : Memory.above k (Memory.set t a b) = true := above_set b hab (by omega)
        simp [Memory.wf, h3, ih ht, hk]

/-- In canonical form equal reads mean equal data. -/
theorem ext_of_get {m n : Memory} (hm : Memory.wf m = true) (hn : Memory.wf n = true)
    (h : ∀ a, m.get a = n.get a) : m = n := by
  have low : ∀ {k : Nat} {t : Memory}, Memory.above k t = true → ∀ a, a ≤ k → t.get a = none := by
    intro k t ht a ha
    induction t with
    | nil => rfl
    | cons c t ih =>
      obtain ⟨j, v⟩ := c
      simp only [Memory.above, List.all_cons, Bool.and_eq_true, decide_eq_true_eq] at ht ih
      simp [Memory.get, ih ht.2, show a ≠ j by omega]
  induction m generalizing n with
  | nil =>
    cases n with
    | nil => rfl
    | cons c t =>
      obtain ⟨k, v⟩ := c
      simpa [Memory.get] using h k
  | cons c t ih =>
    obtain ⟨k, v⟩ := c
    cases n with
    | nil => simpa [Memory.get] using h k
    | cons d u =>
      obtain ⟨j, w⟩ := d
      simp only [Memory.wf, Bool.and_eq_true, decide_eq_true_eq] at hm hn
      have hkj : k = j := by
        rcases Nat.lt_trichotomy k j with hlt | heq | hgt
        · have := h k
          simp [Memory.get, show k ≠ j by omega, low hn.1.2 k (by omega)] at this
        · exact heq
        · have := h j
          simp [Memory.get, show j ≠ k by omega, low hm.1.2 j (by omega)] at this
      subst hkj
      have hvw : v = w := by simpa [Memory.get] using h k
      subst hvw
      congr 1
      apply ih hm.2 hn.2
      intro a
      by_cases hak : a = k
      · subst hak; rw [low hm.1.2 a le_rfl, low hn.1.2 a le_rfl]
      · simpa [Memory.get, hak] using h a

end Sys2Proof.Machine
end

