-- ==== Sys2Proof/Laws/Access.lean ====
section
/-! SUPPORT. What the runs of byte accesses can do: where they complete, where a refusal stops them, what they leave
unchanged, and that they keep the canonical form of memory. -/

namespace Sys2Proof.Machine

/-- The port an access leaves, performed or refused. -/
def Access.port {α : Type} : Access α → Port
  | .done _ p => p
  | .refused p => p

@[simp] theorem Access.port_done {α : Type} (x : α) (p : Port) : (Access.done x p).port = p := rfl

@[simp] theorem Access.port_refused {α : Type} (p : Port) : (Access.refused p : Access α).port = p := rfl

@[simp] theorem andThen_done {α β : Type} (v : α) (p : Port) (f : α → Port → Access β) :
    (Access.done v p).andThen f = f v p := rfl

@[simp] theorem andThen_refused {α β : Type} (p : Port) (f : α → Port → Access β) :
    (Access.refused p : Access α).andThen f = .refused p := rfl

theorem andThen_assoc {α β γ : Type} (x : Access α) (f : α → Port → Access β) (g : β → Port → Access γ) :
    (x.andThen f).andThen g = x.andThen fun v p => (f v p).andThen g := by
  cases x <;> rfl

/-- A sequence of accesses leaves what a relation that both parts keep says. -/
theorem andThen_keeps {α β : Type} {R : Port → Port → Prop} {x : Access α} {f : α → Port → Access β} {p : Port}
    (trans : ∀ {a b c}, R a b → R b c → R a c) (hx : R p x.port) (hf : ∀ v q, R q (f v q).port) :
    R p (x.andThen f).port := by
  cases x with
  | done v q => exact trans hx (hf v q)
  | refused q => exact hx

/-! ### One byte -/

theorem writeByte_frame (e : Env) (a : Nat) (b : Byte) (p : Port) {x : Nat} (h : x ≠ a) :
    (writeByte e a b p).port.mem.get x = p.mem.get x := by
  unfold writeByte
  split
  · split <;> simp [get_set_other _ _ h]
  · rfl

theorem writeByte_wf (e : Env) {a : Nat} (b : Byte) {p : Port} (hp : Memory.wf p.mem = true) (h : a < addrLimit) :
    Memory.wf (writeByte e a b p).port.mem = true := by
  unfold writeByte
  split
  · split <;> simp [set_wf _ hp h]
  · exact hp

theorem readByte_mem (e : Env) (a : Nat) (p : Port) : (readByte e a p).port.mem = p.mem := by
  unfold readByte
  split
  · split <;> rfl
  · rfl

theorem writeByte_done {e : Env} {a : Nat} (b : Byte) (p : Port) (h : memOk e.plat a .write = true) :
    ∃ q, writeByte e a b p = .done () q := by
  unfold writeByte
  simp only [h, if_true]
  split <;> exact ⟨_, rfl⟩

theorem writeByte_closed {e : Env} {a : Nat} (b : Byte) (p : Port) (h : memOk e.plat a .write = true)
    (ho : e.isOpen a = false) : writeByte e a b p = .done () ⟨p.mem.set a b, p.draws⟩ := by
  simp [writeByte, h, ho]

theorem readByte_closed {e : Env} {a : Nat} (p : Port) (h : memOk e.plat a .read = true) (ho : e.isOpen a = false) :
    readByte e a p = .done (p.mem.byteAt a, false) p := by
  simp [readByte, h, ho]

theorem readByte_done {e : Env} {a : Nat} (p : Port) (h : memOk e.plat a .read = true) :
    ∃ x q, readByte e a p = .done x q := by
  unfold readByte
  simp only [h, if_true]
  split <;> exact ⟨_, _, rfl⟩

/-! ### `MemWrite` -/

theorem writeBytes_frame (e : Env) (bs : List Byte) (a : Nat) (p : Port) {x : Nat}
    (h : x < a ∨ a + bs.length ≤ x) : (writeBytes e a bs p).port.mem.get x = p.mem.get x := by
  induction bs generalizing a p with
  | nil => rfl
  | cons b t ih =>
    simp only [List.length_cons] at h
    have hb : (writeByte e a b p).port.mem.get x = p.mem.get x := writeByte_frame e a b p (by omega)
    simp only [writeBytes]
    cases hw : writeByte e a b p with
    | done v q => rw [hw] at hb; simpa [← hb] using ih (a + 1) q (by omega)
    | refused q => rw [hw] at hb; simpa using hb

theorem writeBytes_wf (e : Env) (bs : List Byte) {a : Nat} {p : Port} (hp : Memory.wf p.mem = true)
    (h : a + bs.length ≤ addrLimit) : Memory.wf (writeBytes e a bs p).port.mem = true := by
  induction bs generalizing a p with
  | nil => exact hp
  | cons b t ih =>
    simp only [List.length_cons] at h
    have hb := writeByte_wf e (a := a) b hp (by omega)
    simp only [writeBytes]
    cases hw : writeByte e a b p with
    | done v q => rw [hw] at hb; exact ih hb (by omega)
    | refused q => rw [hw] at hb; exact hb

/-- A run of writes whose every byte is admitted completes. -/
theorem writeBytes_done {e : Env} (bs : List Byte) {a : Nat} (p : Port)
    (h : ∀ x, a ≤ x → x < a + bs.length → memOk e.plat x .write = true) : ∃ q, writeBytes e a bs p = .done () q := by
  induction bs generalizing a p with
  | nil => exact ⟨p, rfl⟩
  | cons b t ih =>
    simp only [List.length_cons] at h
    obtain ⟨q, hq⟩ := writeByte_done b p (h a le_rfl (by omega))
    simp only [writeBytes, hq, andThen_done]
    exact ih q fun x h1 h2 => h x (by omega) (by omega)

/-- After a completed run of writes the bytes stand in memory, but at open addresses. -/
theorem writeBytes_stands {e : Env} {bs : List Byte} {a : Nat} {p q : Port}
    (h : writeBytes e a bs p = .done () q) {k : Nat} {b : Byte} (hk : bs[k]? = some b)
    (ho : e.isOpen (a + k) = false) : q.mem.get (a + k) = some b := by
  induction bs generalizing a p k with
  | nil => simp at hk
  | cons c t ih =>
    simp only [writeBytes] at h
    cases hw : writeByte e a c p with
    | refused r => simp [hw] at h
    | done v r =>
      simp only [hw, andThen_done] at h
      cases k with
      | succ k =>
        have := ih h (k := k) (by simpa using hk) (by rwa [Nat.add_assoc, Nat.add_comm 1 k])
        rwa [Nat.add_assoc, Nat.add_comm 1 k] at this
      | zero =>
        have hf := writeBytes_frame e t (a + 1) r (x := a) (by omega)
        rw [h] at hf
        simp only [Access.port_done] at hf
        simp only [List.getElem?_cons_zero, Option.some.injEq] at hk
        subst hk
        simp only [writeByte] at hw
        split at hw
        · simp only [Nat.add_zero] at ho
          simp only [ho, Bool.false_eq_true, if_false, Access.done.injEq, true_and] at hw
          rw [Nat.add_zero, hf, ← hw]
          exact get_set_same _ _ _
        · simp at hw

/-- No open address: nothing is drawn. -/
theorem writeBytes_draws {e : Env} {bs : List Byte} {a : Nat} {p : Port}
    (ho : ∀ x, a ≤ x → x < a + bs.length → e.isOpen x = false) : (writeBytes e a bs p).port.draws = p.draws := by
  induction bs generalizing a p with
  | nil => rfl
  | cons b t ih =>
    simp only [List.length_cons] at ho
    simp only [writeBytes, writeByte, ho a le_rfl (by omega)]
    split
    · simp only [Bool.false_eq_true, if_false, andThen_done]
      rw [ih (fun x h1 h2 => ho x (by omega) (by omega))]
    · rfl

theorem writeBytes_append (e : Env) (xs ys : List Byte) (a : Nat) (p : Port) :
    writeBytes e a (xs ++ ys) p = (writeBytes e a xs p).andThen fun _ q => writeBytes e (a + xs.length) ys q := by
  induction xs generalizing a p with
  | nil => simp [writeBytes]
  | cons b t ih =>
    simp only [List.cons_append, writeBytes, andThen_assoc, List.length_cons]
    congr 1
    funext _ q
    rw [ih, Nat.add_assoc, Nat.add_comm 1]

/-- The first refused byte stops the run, and the bytes before it have been written. -/
theorem writeBytes_refused {e : Env} {bs : List Byte} {a k : Nat} (p : Port) (hk : k < bs.length)
    (h : ∀ x, a ≤ x → x < a + k → memOk e.plat x .write = true) (hr : memOk e.plat (a + k) .write = false) :
    ∃ q, writeBytes e a bs p = .refused q ∧ writeBytes e a (bs.take k) p = .done () q := by
  induction bs generalizing a k p with
  | nil => simp at hk
  | cons b t ih =>
    cases k with
    | zero => exact ⟨p, by simp [writeBytes, writeByte, show memOk e.plat a .write = false from hr], rfl⟩
    | succ k =>
      obtain ⟨q, hq⟩ := writeByte_done b p (h a le_rfl (by omega))
      simp only [writeBytes, List.take_succ_cons, hq, andThen_done]
      exact ih q (by simpa using hk) (fun x h1 h2 => h x (by omega) (by omega))
        (by rwa [Nat.add_assoc, Nat.add_comm 1 k])

/-! ### `MemRead` -/

/-- The bytes a memory holds at `n` addresses from `a` on. -/
def memBytes (m : Memory) (a n : Nat) : List Byte := (List.range n).map fun k => m.byteAt (a + k)

@[simp] theorem memBytes_length (m : Memory) (a n : Nat) : (memBytes m a n).length = n := by simp [memBytes]

theorem memBytes_succ (m : Memory) (a n : Nat) :
    memBytes m a (n + 1) = m.byteAt a :: memBytes m (a + 1) n := by
  simp only [memBytes, List.range_succ_eq_map, List.map_cons, List.map_map, Nat.add_zero]
  congr 2
  funext k
  simp [Nat.add_assoc, Nat.add_comm 1]

theorem memBytes_congr {m m' : Memory} {a n : Nat} (h : ∀ x, a ≤ x → x < a + n → m'.byteAt x = m.byteAt x) :
    memBytes m' a n = memBytes m a n := by
  apply List.map_congr_left
  intro k hk
  rw [List.mem_range] at hk
  exact h _ (by omega) (by omega)

theorem memBytes_take (m : Memory) (a n k : Nat) : (memBytes m a n).take k = memBytes m a (min k n) := by
  simp [memBytes, ← List.map_take, List.take_range]

theorem bytesAt_eq (s : State) (a n : Nat) : bytesAt s a n = memBytes s.mem a n := rfl

theorem readBytes_mem (e : Env) (n : Nat) (a : Nat) (p : Port) : (readBytes e a n p).port.mem = p.mem := by
  induction n generalizing a p with
  | zero => rfl
  | succ n ih =>
    have hb := readByte_mem e a p
    simp only [readBytes]
    cases hr : readByte e a p with
    | refused q => rw [hr] at hb; exact hb
    | done x q =>
      rw [hr] at hb
      have := ih (a + 1) q
      simp only [andThen_done]
      cases hs : readBytes e (a + 1) n q with
      | refused r => rw [hs] at this; exact this.trans hb
      | done y r => rw [hs] at this; exact this.trans hb

/-- A run of reads that are all admitted, at addresses none of which is open, returns what memory holds. -/
theorem readBytes_closed {e : Env} {n a : Nat} (p : Port)
    (h : ∀ x, a ≤ x → x < a + n → memOk e.plat x .read = true)
    (ho : ∀ x, a ≤ x → x < a + n → e.isOpen x = false) :
    readBytes e a n p = .done (memBytes p.mem a n, false) p := by
  induction n generalizing a with
  | zero => rfl
  | succ n ih =>
    have hi := ih (a := a + 1) (fun x h1 h2 => h x (by omega) (by omega)) (fun x h1 h2 => ho x (by omega) (by omega))
    simp only [readBytes, readByte_closed p (h a le_rfl (by omega)) (ho a le_rfl (by omega)), andThen_done, hi,
      memBytes_succ, Bool.false_or]

/-- A run of reads that are all admitted completes. -/
theorem readBytes_done {e : Env} {n a : Nat} (p : Port)
    (h : ∀ x, a ≤ x → x < a + n → memOk e.plat x .read = true) : ∃ x q, readBytes e a n p = .done x q := by
  induction n generalizing a p with
  | zero => exact ⟨_, _, rfl⟩
  | succ n ih =>
    obtain ⟨x, q, hq⟩ := readByte_done p (h a le_rfl (by omega))
    obtain ⟨y, r, hr⟩ := ih (a := a + 1) q (fun x h1 h2 => h x (by omega) (by omega))
    exact ⟨_, _, by simp only [readBytes, hq, andThen_done, hr]; rfl⟩

/-- A refused read stops the run. -/
theorem readBytes_refused {e : Env} {n a x : Nat} (p : Port) (h1 : a ≤ x) (h2 : x < a + n)
    (hr : memOk e.plat x .read = false) : ∃ q, readBytes e a n p = .refused q := by
  induction n generalizing a p with
  | zero => omega
  | succ n ih =>
    simp only [readBytes]
    cases hq : readByte e a p with
    | refused q => exact ⟨q, rfl⟩
    | done y q =>
      have hax : a ≠ x := by rintro rfl; simp [readByte, hr] at hq
      obtain ⟨r, hr'⟩ := ih (a := a + 1) q (by omega) (by omega)
      exact ⟨r, by simp [hr']⟩

/-! ### The payload copy -/

theorem copyBytes_frame (e : Env) (n src dst : Nat) (p : Port) {x : Nat} (h : x < dst ∨ dst + n ≤ x) :
    (copyBytes e src dst n p).port.mem.get x = p.mem.get x := by
  induction n generalizing src dst p with
  | zero => rfl
  | succ n ih =>
    have hr := readByte_mem e src p
    simp only [copyBytes]
    cases hq : readByte e src p with
    | refused q => rw [hq] at hr; simpa using congrArg (Memory.get · x) hr
    | done y q =>
      rw [hq] at hr
      have hw := writeByte_frame e dst y.1 q (x := x) (by omega)
      simp only [andThen_done]
      cases hu : writeByte e dst y.1 q with
      | refused u => rw [hu] at hw; simpa [← show q.mem = p.mem from hr] using hw
      | done v u =>
        rw [hu] at hw
        have hi := ih (src + 1) (dst + 1) u (by omega)
        simp only [andThen_done]
        cases hc : copyBytes e (src + 1) (dst + 1) n u <;> rw [hc] at hi <;>
          exact hi.trans (hw.trans (congrArg (Memory.get · x) hr))

theorem copyBytes_wf (e : Env) (n src : Nat) {dst : Nat} {p : Port} (hp : Memory.wf p.mem = true)
    (h : dst + n ≤ addrLimit) : Memory.wf (copyBytes e src dst n p).port.mem = true := by
  induction n generalizing src dst p with
  | zero => exact hp
  | succ n ih =>
    have hr := readByte_mem e src p
    simp only [copyBytes]
    cases hq : readByte e src p with
    | refused q => rw [hq] at hr; simpa [show q.mem = p.mem from hr] using hp
    | done y q =>
      rw [hq] at hr
      have hw := writeByte_wf e (a := dst) y.1 (p := q) (by simpa [show q.mem = p.mem from hr] using hp) (by omega)
      simp only [andThen_done]
      cases hu : writeByte e dst y.1 q with
      | refused u => rw [hu] at hw; exact hw
      | done v u =>
        rw [hu] at hw
        have hi := ih (src + 1) (dst := dst + 1) (p := u) hw (by omega)
        simp only [andThen_done]
        cases hc : copyBytes e (src + 1) (dst + 1) n u <;> rw [hc] at hi <;> exact hi

/-- A copy whose reads and writes are all admitted completes. -/
theorem copyBytes_done {e : Env} {n src dst : Nat} (p : Port)
    (hr : ∀ x, src ≤ x → x < src + n → memOk e.plat x .read = true)
    (hw : ∀ x, dst ≤ x → x < dst + n → memOk e.plat x .write = true) :
    ∃ x q, copyBytes e src dst n p = .done x q := by
  induction n generalizing src dst p with
  | zero => exact ⟨_, _, rfl⟩
  | succ n ih =>
    obtain ⟨x, q, hq⟩ := readByte_done p (hr src le_rfl (by omega))
    obtain ⟨u, hu⟩ := writeByte_done x.1 q (hw dst le_rfl (by omega))
    obtain ⟨y, t, ht⟩ := ih (src := src + 1) (dst := dst + 1) u (fun x h1 h2 => hr x (by omega) (by omega))
      (fun x h1 h2 => hw x (by omega) (by omega))
    exact ⟨_, _, by simp only [copyBytes, hq, hu, andThen_done, ht]; rfl⟩

/-- A copy from addresses that are admitted, not open and not written by the copy is a write of what memory held
there, refusals of the writes included. -/
theorem copyBytes_eq {e : Env} {n src dst : Nat} (p : Port)
    (hr : ∀ x, src ≤ x → x < src + n → memOk e.plat x .read = true)
    (ho : ∀ x, src ≤ x → x < src + n → e.isOpen x = false)
    (hd : ∀ x, ¬((src ≤ x ∧ x < src + n) ∧ (dst ≤ x ∧ x < dst + n))) :
    copyBytes e src dst n p
      = (writeBytes e dst (memBytes p.mem src n) p).andThen fun _ q => .done (memBytes p.mem src n, false) q := by
  induction n generalizing src dst p with
  | zero => rfl
  | succ n ih =>
    simp only [copyBytes, readByte_closed p (hr src le_rfl (by omega)) (ho src le_rfl (by omega)), andThen_done,
      memBytes_succ, writeBytes]
    cases hu : writeByte e dst (p.mem.byteAt src) p with
    | refused u => rfl
    | done v u =>
      have hsame : memBytes u.mem (src + 1) n = memBytes p.mem (src + 1) n := by
        apply memBytes_congr
        intro x h1 h2
        have hne : x ≠ dst := fun hxd => hd x ⟨⟨by omega, by omega⟩, by omega, by omega⟩
        have := writeByte_frame e dst (p.mem.byteAt src) p hne
        rw [hu] at this
        simp only [Access.port_done] at this
        simp [Memory.byteAt, this]
      simp only [andThen_done]
      rw [ih u (fun x h1 h2 => hr x (by omega) (by omega)) (fun x h1 h2 => ho x (by omega) (by omega))
        (fun x hx => hd x ⟨⟨by omega, by omega⟩, by omega, by omega⟩), hsame]
      cases writeBytes e (dst + 1) (memBytes p.mem (src + 1) n) u <;> simp

/-- The first refused access of a copy, the read of byte `j` or its write, stops it; the bytes before it have been
written. The source is not open and the copy does not write it. -/
theorem copyBytes_stops {e : Env} {n src dst j : Nat} (p : Port) (hj : j < n)
    (hr : ∀ x, src ≤ x → x < src + j → memOk e.plat x .read = true)
    (hw : ∀ x, dst ≤ x → x < dst + j → memOk e.plat x .write = true)
    (ho : ∀ x, src ≤ x → x < src + n → e.isOpen x = false)
    (hd : ∀ x, ¬((src ≤ x ∧ x < src + n) ∧ (dst ≤ x ∧ x < dst + n)))
    (hno : memOk e.plat (src + j) .read = false ∨ memOk e.plat (dst + j) .write = false) :
    ∃ q, copyBytes e src dst n p = .refused q ∧ writeBytes e dst (memBytes p.mem src j) p = .done () q := by
  induction n generalizing src dst j p with
  | zero => omega
  | succ n ih =>
    simp only [copyBytes]
    cases j with
    | zero =>
      refine ⟨p, ?_, rfl⟩
      simp only [readByte, ho src le_rfl (by omega), Bool.false_eq_true, if_false]
      split
      · rename_i h
        simp only [Nat.add_zero, h, Bool.true_eq_false, false_or] at hno
        simp [writeByte, hno]
      · rfl
    | succ j =>
      simp only [readByte_closed p (hr src le_rfl (by omega)) (ho src le_rfl (by omega)), andThen_done]
      obtain ⟨u, hu⟩ := writeByte_done (p.mem.byteAt src) p (hw dst le_rfl (by omega))
      have hsame : memBytes u.mem (src + 1) j = memBytes p.mem (src + 1) j := by
        apply memBytes_congr
        intro x h1 h2
        have := writeByte_frame e dst (p.mem.byteAt src) p (x := x)
          fun hx => hd x ⟨⟨by omega, by omega⟩, by omega, by omega⟩
        rw [hu] at this
        simp only [Access.port_done] at this
        simp [Memory.byteAt, this]
      obtain ⟨q, h1, h2⟩ := ih (src := src + 1) (dst := dst + 1) (j := j) u (by omega)
        (fun x h1 h2 => hr x (by omega) (by omega)) (fun x h1 h2 => hw x (by omega) (by omega))
        (fun x h1 h2 => ho x (by omega) (by omega)) (fun x hx => hd x ⟨⟨by omega, by omega⟩, by omega, by omega⟩)
        (by rwa [Nat.add_assoc, Nat.add_assoc, Nat.add_comm 1 j])
      exact ⟨q, by simp [hu, h1], by simp [memBytes_succ, writeBytes, hu, ← hsame, h2]⟩

/-- A byte of a completed copy: where neither its source nor its destination is open, and the copy does not write
its source, it is the byte memory held at the source. -/
theorem copyBytes_copies {e : Env} {n src dst : Nat} {p q : Port} {y : List Byte × Bool}
    (h : copyBytes e src dst n p = .done y q) {k : Nat} (hk : k < n)
    (hs : e.isOpen (src + k) = false) (hd : e.isOpen (dst + k) = false)
    (hx : src + k < dst ∨ dst + n ≤ src + k) : q.mem.byteAt (dst + k) = p.mem.byteAt (src + k) := by
  induction n generalizing src dst p k y with
  | zero => omega
  | succ n ih =>
    simp only [copyBytes] at h
    have hrm := readByte_mem e src p
    cases hr : readByte e src p with
    | refused u => simp [hr] at h
    | done x u =>
      rw [hr] at hrm
      simp only [hr, andThen_done] at h
      cases hw : writeByte e dst x.1 u with
      | refused v => simp [hw] at h
      | done w v =>
        simp only [hw, andThen_done] at h
        cases hc : copyBytes e (src + 1) (dst + 1) n v with
        | refused t => simp [hc] at h
        | done z t =>
          simp only [hc, andThen_done, Access.done.injEq] at h
          obtain ⟨-, rfl⟩ := h
          cases k with
          | succ k =>
            have := ih hc (k := k) (by omega) (by rwa [Nat.add_assoc, Nat.add_comm 1 k])
              (by rwa [Nat.add_assoc, Nat.add_comm 1 k]) (by omega)
            have hf := writeByte_frame e dst x.1 u (x := src + (k + 1)) (by omega)
            rw [hw] at hf
            rw [Nat.add_assoc, Nat.add_comm 1 k, Nat.add_assoc src, Nat.add_comm 1 k] at this
            simp only [Access.port_done] at hf hrm
            rw [this, Memory.byteAt, hf, hrm, Memory.byteAt]
          | zero =>
            have hf := copyBytes_frame e n (src + 1) (dst + 1) v (x := dst) (by omega)
            rw [hc] at hf
            simp only [Nat.add_zero, Access.port_done] at *
            have hx1 : x.1 = p.mem.byteAt src := by
              simp only [readByte] at hr
              split at hr
              · simp only [hs, Bool.false_eq_true, if_false, Access.done.injEq] at hr
                exact congrArg Prod.fst hr.1.symm
              · simp at hr
            simp only [writeByte] at hw
            split at hw
            · simp only [hd, Bool.false_eq_true, if_false, Access.done.injEq, true_and] at hw
              rw [Memory.byteAt, hf, ← hw, hx1]
              simp [get_set_same]
            · simp at hw

/-! ### Free values over a range -/

theorem havoc_frame (n base : Nat) (p : Port) {x : Nat} (h : x < base ∨ base + n ≤ x) :
    (havoc base n p).mem.get x = p.mem.get x := by
  induction n generalizing base p with
  | zero => rfl
  | succ n ih => rw [havoc, ih _ _ (by omega), get_set_other _ _ (by omega)]

theorem havoc_wf {n base : Nat} {p : Port} (hp : Memory.wf p.mem = true) (h : base + n ≤ addrLimit) :
    Memory.wf (havoc base n p).mem = true := by
  induction n generalizing base p with
  | zero => exact hp
  | succ n ih => exact ih (set_wf _ hp (by omega)) (by omega)

end Sys2Proof.Machine
end

