-- ==== Sys2Proof/Laws/Chunk.lean ====
section
/-! SUPPORT. Chunks and images: their lengths, and what writing one can do. -/

namespace Sys2Proof.Machine

/-! ### Lengths -/

@[simp] theorem be32_length (v : Word) : (be32 v).length = 4 := rfl

@[simp] theorem tag_length (t : Word) : (tag t).length = 4 := rfl

@[simp] theorem signature_length : signature.length = 8 := rfl

@[simp] theorem iendBytes_length : iendBytes.length = 12 := rfl

@[simp] theorem plteEntry0_length (p : Platform) : (plteEntry0 p).length = 3 := Vector.length_toList

@[simp] theorem zeros_length (n : Nat) : (zeros n).length = n := List.length_replicate

@[simp] theorem ihdrPayload_length (g : ImgCfg) : (ihdrPayload g).length = 13 := rfl

@[simp] theorem trnsPayload_length (p : Platform) (g : ImgCfg) : (trnsPayload p g).length = trnsLen g.ct := by
  unfold trnsPayload trnsLen
  split <;> simp

/-- `len(Chunk(t, p)) = len(p) + 12` (R150). -/
@[simp] theorem chunk_length (t : Word) (p : List Byte) : (chunk t p).length = p.length + 12 := by
  simp [chunk]; omega

/-- The length of an image's part before IDAT. -/
theorem imageHead_length (p : Platform) (g : ImgCfg) :
    (imageHead p g).length = 8 + 25 + (if g.palette then 15 else 0) + (trnsLen g.ct + 12) := by
  unfold imageHead
  split <;> simp <;> omega

/-- `ImageLen` is the length of the image (R233). -/
theorem image_length (p : Platform) (g : ImgCfg) (z : List Byte) : (image p g z).length = imageLen g z.length := by
  simp only [image, List.length_append, imageHead_length, chunk_length, iendBytes_length, imageLen]

theorem imageLen_eq (p : Platform) (g : ImgCfg) (len : Nat) : imageLen g len = (imageHead p g).length + (len + 12) + 12 := by
  rw [imageHead_length]; rfl

theorem imageLen_mono (g : ImgCfg) {l m : Nat} (h : l ≤ m) : imageLen g l ≤ imageLen g m := by
  simp only [imageLen]; omega

/-! ### A chunk with a copied payload -/

theorem copiedCrc_mem (t : Word) (x : List Byte × Bool) (p : Port) : (copiedCrc t x p).2.mem = p.mem := by
  unfold copiedCrc; split <;> rfl

theorem copyChunk_frame (e : Env) (t : Word) (src len o : Nat) (p : Port) {x : Nat}
    (h : x < o ∨ o + (len + 12) ≤ x) : (copyChunk e t src len o p).port.mem.get x = p.mem.get x := by
  have trans : ∀ {a b c : Port}, b.mem.get x = a.mem.get x → c.mem.get x = b.mem.get x → c.mem.get x = a.mem.get x :=
    fun h1 h2 => h2.trans h1
  refine andThen_keeps (R := fun a b => b.mem.get x = a.mem.get x) trans
    (writeBytes_frame _ _ _ _ (by simp; omega)) fun _ q => ?_
  refine andThen_keeps (R := fun a b => b.mem.get x = a.mem.get x) trans
    (copyBytes_frame _ _ _ _ _ (by omega)) fun y r => ?_
  refine andThen_keeps (R := fun a b => b.mem.get x = a.mem.get x) trans ?_ fun _ u => rfl
  rw [writeBytes_frame _ _ _ _ (by simp; omega), copiedCrc_mem]

theorem copyChunk_wf (e : Env) (t : Word) (src : Nat) {len o : Nat} {p : Port} (hp : Memory.wf p.mem = true)
    (h : o + (len + 12) ≤ addrLimit) : Memory.wf (copyChunk e t src len o p).port.mem = true := by
  have trans : ∀ {a b c : Port}, (Memory.wf a.mem = true → Memory.wf b.mem = true) →
      (Memory.wf b.mem = true → Memory.wf c.mem = true) → Memory.wf a.mem = true → Memory.wf c.mem = true :=
    fun h1 h2 h3 => h2 (h1 h3)
  refine andThen_keeps (R := fun a b => Memory.wf a.mem = true → Memory.wf b.mem = true) trans
    (fun hp => writeBytes_wf _ _ hp (by simp; omega)) (fun _ q => ?_) hp
  refine andThen_keeps (R := fun a b => Memory.wf a.mem = true → Memory.wf b.mem = true) trans
    (fun hp => copyBytes_wf _ _ _ hp (by omega)) (fun y r => ?_)
  refine andThen_keeps (R := fun a b => Memory.wf a.mem = true → Memory.wf b.mem = true) trans
    (fun hp => writeBytes_wf _ _ (by rwa [copiedCrc_mem]) (by simp; omega)) (fun _ u h => h)

/-- A chunk whose reads and writes are all admitted is written to its end. -/
theorem copyChunk_done {e : Env} {t : Word} {src len o : Nat} (p : Port)
    (hr : ∀ x, src ≤ x → x < src + len → memOk e.plat x .read = true)
    (hw : ∀ x, o ≤ x → x < o + (len + 12) → memOk e.plat x .write = true) :
    ∃ c q, copyChunk e t src len o p = .done c q := by
  obtain ⟨q, hq⟩ := writeBytes_done (e := e) (be32 (BitVec.ofNat 32 len) ++ tag t) (a := o) p
    (fun x h1 h2 => hw x h1 (by simp at h2; omega))
  obtain ⟨y, r, hy⟩ := copyBytes_done (e := e) (n := len) (src := src) (dst := o + 8) q hr
    (fun x h1 h2 => hw x (by omega) (by omega))
  obtain ⟨u, hu⟩ := writeBytes_done (e := e) (be32 (copiedCrc t y r).1.1) (a := o + 8 + len) (copiedCrc t y r).2
    (fun x h1 h2 => hw x (by omega) (by simp at h2; omega))
  refine ⟨(copiedCrc t y r).1.2, u, ?_⟩
  simp only [copyChunk, hq, hy, hu, andThen_done]

/-- A chunk whose payload lies at addresses that are admitted, not open and outside the chunk's own bytes is a write
of `Chunk(t, p)` for the payload `p` memory holds there (R155), refusals included; it reports `ChunkCRC(t, p)`. -/
theorem copyChunk_eq {e : Env} {t : Word} {src len o : Nat} (p : Port)
    (hr : ∀ x, src ≤ x → x < src + len → memOk e.plat x .read = true)
    (ho : ∀ x, src ≤ x → x < src + len → e.isOpen x = false)
    (hd : ∀ x, ¬((src ≤ x ∧ x < src + len) ∧ (o ≤ x ∧ x < o + (len + 12)))) :
    copyChunk e t src len o p
      = (writeBytes e o (chunk t (memBytes p.mem src len)) p).andThen
          fun _ q => .done (chunkCrc t (memBytes p.mem src len)) q := by
  simp only [copyChunk, chunk, writeBytes_append, andThen_assoc, memBytes_length, be32_length, tag_length,
    List.length_append]
  cases h1 : writeBytes e o (be32 (BitVec.ofNat 32 len)) p with
  | refused q => rfl
  | done _ q =>
    simp only [andThen_done]
    cases h2 : writeBytes e (o + 4) (tag t) q with
    | refused r => rfl
    | done _ r =>
      have hsame : memBytes r.mem src len = memBytes p.mem src len := by
        apply memBytes_congr
        intro x hx1 hx2
        have hne : x < o ∨ o + (len + 12) ≤ x := by
          by_contra hcon
          exact hd x ⟨⟨hx1, hx2⟩, by omega, by omega⟩
        have f1 := writeBytes_frame e (be32 (BitVec.ofNat 32 len)) o p (x := x) (by simp; omega)
        have f2 := writeBytes_frame e (tag t) (o + 4) q (x := x) (by simp; omega)
        rw [h1] at f1
        rw [h2] at f2
        simp only [Access.port_done] at f1 f2
        simp [Memory.byteAt, f1, f2]
      simp only [andThen_done]
      rw [copyBytes_eq r hr ho (fun x hx => hd x ⟨hx.1, by omega, by omega⟩), hsame]
      simp only [andThen_assoc, andThen_done, copiedCrc, Bool.false_eq_true, if_false, Nat.add_assoc,
        show (4 + 4 : Nat) = 8 from rfl]

/-- The first refused access of a chunk, at its byte `k`, stops it; the bytes before it have been written (R155,
R254). The payload lies at addresses that are not open and outside the chunk's own bytes. -/
theorem copyChunk_stops {e : Env} {t : Word} {src len o k : Nat} (p : Port) (hk : k < len + 12)
    (hr : ∀ x, src ≤ x → x < src + min len (k - 8) → memOk e.plat x .read = true)
    (hw : ∀ x, o ≤ x → x < o + k → memOk e.plat x .write = true)
    (ho : ∀ x, src ≤ x → x < src + len → e.isOpen x = false)
    (hd : ∀ x, ¬((src ≤ x ∧ x < src + len) ∧ (o ≤ x ∧ x < o + (len + 12))))
    (hno : memOk e.plat (o + k) .write = false
      ∨ 8 ≤ k ∧ k < 8 + len ∧ memOk e.plat (src + (k - 8)) .read = false) :
    ∃ q, copyChunk e t src len o p = .refused q
      ∧ writeBytes e o ((chunk t (memBytes p.mem src len)).take k) p = .done () q := by
  have hhl : (be32 (BitVec.ofNat 32 len) ++ tag t).length = 8 := rfl
  have hch : chunk t (memBytes p.mem src len) = (be32 (BitVec.ofNat 32 len) ++ tag t)
      ++ (memBytes p.mem src len ++ be32 (chunkCrc t (memBytes p.mem src len))) := by
    simp only [chunk, memBytes_length, List.append_assoc]
  by_cases h8 : k < 8
  · obtain ⟨q, h1, h2⟩ := writeBytes_refused (e := e) (bs := be32 (BitVec.ofNat 32 len) ++ tag t) (a := o) p
      (by rw [hhl]; exact h8) hw (hno.resolve_right fun h => absurd h.1 (by omega))
    refine ⟨q, by simp only [copyChunk, h1, andThen_refused], ?_⟩
    rw [hch, List.take_append_of_le_length (by rw [hhl]; omega), h2]
  · by_cases hp : k < 8 + len
    · obtain ⟨u, hu⟩ := writeBytes_done (e := e) (be32 (BitVec.ofNat 32 len) ++ tag t) (a := o) p
        (fun x h1 h2 => hw x h1 (by rw [hhl] at h2; omega))
      have hsame : memBytes u.mem src (k - 8) = memBytes p.mem src (k - 8) := by
        apply memBytes_congr
        intro x h1 h2
        have := writeBytes_frame e (be32 (BitVec.ofNat 32 len) ++ tag t) o p (x := x) (by
          rw [hhl]
          by_contra hcon
          exact hd x ⟨⟨h1, by omega⟩, by omega, by omega⟩)
        rw [hu] at this
        simp only [Access.port_done] at this
        simp [Memory.byteAt, this]
      obtain ⟨q, h1, h2⟩ := copyBytes_stops (e := e) (n := len) (src := src) (dst := o + 8) (j := k - 8) u (by omega)
        (fun x h1 h2 => hr x h1 (by omega)) (fun x h1 h2 => hw x (by omega) (by omega)) ho
        (fun x hx => hd x ⟨hx.1, by omega, by omega⟩)
        (by rw [show o + 8 + (k - 8) = o + k by omega]; exact hno.symm.imp_left fun h => h.2.2)
      refine ⟨q, by simp only [copyChunk, hu, andThen_done, h1, andThen_refused], ?_⟩
      rw [hch, List.take_append, hhl, List.take_of_length_le (by rw [hhl]; omega),
        List.take_append_of_le_length (by rw [memBytes_length]; omega), memBytes_take,
        show min (k - 8) len = k - 8 by omega, writeBytes_append, hu, andThen_done, hhl, ← hsame, h2]
    · obtain ⟨q, h1, h2⟩ := writeBytes_refused (e := e) (bs := chunk t (memBytes p.mem src len)) (a := o) p
        (by simpa using hk) hw (hno.resolve_right fun h => absurd h.2.1 (by omega))
      refine ⟨q, ?_, h2⟩
      rw [copyChunk_eq p (fun x a b => hr x a (by omega)) ho hd, h1, andThen_refused]

/-! ### An image -/

theorem writeImage_frame (e : Env) (g : ImgCfg) (src len o : Nat) (p : Port) {x : Nat}
    (h : x < o ∨ o + imageLen g len ≤ x) : (writeImage e g src len o p).port.mem.get x = p.mem.get x := by
  rw [imageLen_eq e.plat] at h
  have trans : ∀ {a b c : Port}, b.mem.get x = a.mem.get x → c.mem.get x = b.mem.get x → c.mem.get x = a.mem.get x :=
    fun h1 h2 => h2.trans h1
  refine andThen_keeps (R := fun a b => b.mem.get x = a.mem.get x) trans
    (writeBytes_frame _ _ _ _ (by omega)) fun _ q => ?_
  refine andThen_keeps (R := fun a b => b.mem.get x = a.mem.get x) trans
    (copyChunk_frame _ _ _ _ _ _ (by omega)) fun y r => ?_
  exact writeBytes_frame _ _ _ _ (by simp; omega)

theorem writeImage_wf (e : Env) (g : ImgCfg) (src : Nat) {len o : Nat} {p : Port} (hp : Memory.wf p.mem = true)
    (h : o + imageLen g len ≤ addrLimit) : Memory.wf (writeImage e g src len o p).port.mem = true := by
  rw [imageLen_eq e.plat] at h
  have trans : ∀ {a b c : Port}, (Memory.wf a.mem = true → Memory.wf b.mem = true) →
      (Memory.wf b.mem = true → Memory.wf c.mem = true) → Memory.wf a.mem = true → Memory.wf c.mem = true :=
    fun h1 h2 h3 => h2 (h1 h3)
  refine andThen_keeps (R := fun a b => Memory.wf a.mem = true → Memory.wf b.mem = true) trans
    (fun hp => writeBytes_wf _ _ hp (by omega)) (fun _ q => ?_) hp
  refine andThen_keeps (R := fun a b => Memory.wf a.mem = true → Memory.wf b.mem = true) trans
    (fun hp => copyChunk_wf _ _ _ hp (by omega)) (fun y r => ?_)
  exact fun hp => writeBytes_wf _ _ hp (by simp; omega)

theorem writeImage_done {e : Env} {g : ImgCfg} {src len o : Nat} (p : Port)
    (hr : ∀ x, src ≤ x → x < src + len → memOk e.plat x .read = true)
    (hw : ∀ x, o ≤ x → x < o + imageLen g len → memOk e.plat x .write = true) :
    ∃ q, writeImage e g src len o p = .done () q := by
  rw [imageLen_eq e.plat] at hw
  obtain ⟨q, hq⟩ := writeBytes_done (e := e) (imageHead e.plat g) (a := o) p (fun x h1 h2 => hw x h1 (by omega))
  obtain ⟨c, r, hc⟩ := copyChunk_done (e := e) (t := tagIDAT) (src := src) (len := len)
    (o := o + (imageHead e.plat g).length) q hr (fun x h1 h2 => hw x (by omega) (by omega))
  obtain ⟨u, hu⟩ := writeBytes_done (e := e) iendBytes (a := o + (imageHead e.plat g).length + (len + 12)) r
    (fun x h1 h2 => hw x (by omega) (by simp at h2; omega))
  exact ⟨u, by simp only [writeImage, hq, hc, hu, andThen_done]⟩

/-- An image whose payload lies at addresses that are admitted, not open and outside the image is a write of
`Image(CFG, z)` for the payload `z` memory holds there (R230), refusals included. -/
theorem writeImage_eq {e : Env} {g : ImgCfg} {src len o : Nat} (p : Port)
    (hr : ∀ x, src ≤ x → x < src + len → memOk e.plat x .read = true)
    (ho : ∀ x, src ≤ x → x < src + len → e.isOpen x = false)
    (hd : ∀ x, ¬((src ≤ x ∧ x < src + len) ∧ (o ≤ x ∧ x < o + imageLen g len))) :
    writeImage e g src len o p = writeBytes e o (image e.plat g (memBytes p.mem src len)) p := by
  simp only [imageLen_eq e.plat] at hd
  simp only [writeImage, image, writeBytes_append, andThen_assoc, List.length_append, chunk_length, memBytes_length]
  cases h1 : writeBytes e o (imageHead e.plat g) p with
  | refused q => rfl
  | done _ q =>
    have hsame : memBytes q.mem src len = memBytes p.mem src len := by
      apply memBytes_congr
      intro x hx1 hx2
      have hne : x < o ∨ o + (imageHead e.plat g).length ≤ x := by
        by_contra hcon
        exact hd x ⟨⟨hx1, hx2⟩, by omega, by omega⟩
      have f1 := writeBytes_frame e (imageHead e.plat g) o p hne
      rw [h1] at f1
      simp only [Access.port_done] at f1
      simp [Memory.byteAt, f1]
    simp only [andThen_done]
    rw [copyChunk_eq q hr ho (fun x hx => hd x ⟨hx.1, by omega, by omega⟩), hsame]
    simp only [andThen_assoc, andThen_done, Nat.add_assoc]

/-- The place of the payload in an image: after the part before IDAT, and IDAT's length and tag. -/
theorem payloadOffset_eq (p : Platform) (g : ImgCfg) : payloadOffset g = (imageHead p g).length + 8 := by
  have : (g.palette = true) = (g.ct = .indexed) := by simp [ImgCfg.palette]
  simp only [payloadOffset, imageHead_length, this]

/-- The first refused access of an image, at its byte `k`, stops it; the bytes before it have been written (R231,
R254). The payload lies at addresses that are not open and outside the image. -/
theorem writeImage_stops {e : Env} {g : ImgCfg} {src len o k : Nat} (p : Port) (hk : k < imageLen g len)
    (hr : ∀ x, src ≤ x → x < src + min len (k - payloadOffset g) → memOk e.plat x .read = true)
    (hw : ∀ x, o ≤ x → x < o + k → memOk e.plat x .write = true)
    (ho : ∀ x, src ≤ x → x < src + len → e.isOpen x = false)
    (hd : ∀ x, ¬((src ≤ x ∧ x < src + len) ∧ (o ≤ x ∧ x < o + imageLen g len)))
    (hno : memOk e.plat (o + k) .write = false
      ∨ payloadOffset g ≤ k ∧ k < payloadOffset g + len
        ∧ memOk e.plat (src + (k - payloadOffset g)) .read = false) :
    ∃ q, writeImage e g src len o p = .refused q
      ∧ writeBytes e o ((image e.plat g (memBytes p.mem src len)).take k) p = .done () q := by
  rw [payloadOffset_eq e.plat] at *
  rw [imageLen_eq e.plat] at hk
  have hd' := hd
  simp only [imageLen_eq e.plat] at hd
  by_cases h1 : k < (imageHead e.plat g).length
  · obtain ⟨q, hq1, hq2⟩ := writeBytes_refused (e := e) (bs := imageHead e.plat g) (a := o) p h1 hw
      (hno.resolve_right fun h => absurd h.1 (by omega))
    refine ⟨q, by simp only [writeImage, hq1, andThen_refused], ?_⟩
    rw [image, List.append_assoc, List.take_append_of_le_length (by omega), hq2]
  · by_cases h2 : k < (imageHead e.plat g).length + (len + 12)
    · obtain ⟨u, hu⟩ := writeBytes_done (e := e) (imageHead e.plat g) (a := o) p
        (fun x a b => hw x a (by omega))
      have hsame : memBytes u.mem src len = memBytes p.mem src len := by
        apply memBytes_congr
        intro x a b
        have := writeBytes_frame e (imageHead e.plat g) o p (x := x) (by
          by_contra hcon
          exact hd x ⟨⟨a, b⟩, by omega, by omega⟩)
        rw [hu] at this
        simp only [Access.port_done] at this
        simp [Memory.byteAt, this]
      obtain ⟨q, hq1, hq2⟩ := copyChunk_stops (e := e) (t := tagIDAT) (src := src) (len := len)
        (o := o + (imageHead e.plat g).length) (k := k - (imageHead e.plat g).length) u (by omega)
        (fun x a b => hr x a (by omega)) (fun x a b => hw x (by omega) (by omega)) ho
        (fun x hx => hd x ⟨hx.1, by omega, by omega⟩) (by
          rw [show o + (imageHead e.plat g).length + (k - (imageHead e.plat g).length) = o + k by omega, Nat.sub_sub]
          exact hno.imp_right fun h => ⟨by omega, by omega, h.2.2⟩)
      refine ⟨q, by simp only [writeImage, hu, andThen_done, hq1, andThen_refused], ?_⟩
      rw [image, List.append_assoc, List.take_append, List.take_of_length_le (by omega),
        List.take_append_of_le_length (by simp; omega), writeBytes_append, hu, andThen_done, ← hsame, hq2]
    · obtain ⟨q, hq1, hq2⟩ := writeBytes_refused (e := e) (bs := image e.plat g (memBytes p.mem src len)) (a := o) p
        (by rw [image_length, memBytes_length, imageLen_eq e.plat]; exact hk) hw
        (hno.resolve_right fun h => absurd h.2.1 (by omega))
      refine ⟨q, ?_, hq2⟩
      rw [writeImage_eq p (fun x a b => hr x a (by omega)) ho hd', hq1]

end Sys2Proof.Machine
end

