-- ==== Sys2Proof/Laws/Exec.lean ====
section
/-! SUPPORT. Everything a command can do, said once: `exec_ends`. The window checks, the backend exchange and the
compression phase have their own lemmas, which it cites. -/

namespace Sys2Proof.Machine

/-! ### Checks -/

theorem pastEnd_eq_false {b n : Nat} : pastEnd b n = false ↔ n = 0 ∨ b + n ≤ addrLimit := by
  simp only [pastEnd, decide_eq_false_iff_not, addrLimit]
  omega

theorem pastEnd_eq_true {b n : Nat} : pastEnd b n = true ↔ 0 < n ∧ addrLimit < b + n := by
  simp only [pastEnd, decide_eq_true_eq, addrLimit]
  omega

theorem outCheck_none {s : State} {n : Nat} (hn : 0 < n) : outCheck s n = none ↔ outFits s n := by
  have hp : pastEnd s.outAddr n = false ↔ s.outBase.toNat + s.outPos.toNat + n ≤ addrLimit := by
    rw [pastEnd_eq_false]; unfold State.outAddr; omega
  unfold outCheck outFits
  rw [← hp]
  by_cases h : s.outPos.toNat + n > s.outCap.toNat
  · simp only [h, if_true, reduceCtorEq, false_iff]; omega
  · simp only [h, if_false]
    cases pastEnd s.outAddr n
    · simpa using h
    · simp

theorem outCheck_some {s : State} {n : Nat} {e : ErrCode} (h : outCheck s n = some e) : e = .bounds ∨ e = .addr := by
  unfold outCheck at h
  split at h
  · simpa using Or.inl h.symm
  · split at h
    · simpa using Or.inr h.symm
    · simp at h

theorem srcCheck_some {s : State} {e : ErrCode} (h : srcCheck s = some e) : e = .addr := by
  unfold srcCheck at h
  split at h
  · simpa using h.symm
  · simp at h

theorem scrCheck_none {s : State} {b : Nat} :
    scrCheck s b = none ↔ b ≤ s.scrCap.toNat ∧ (b = 0 ∨ s.scrBase.toNat + b ≤ addrLimit) := by
  unfold scrCheck
  rw [← pastEnd_eq_false]
  by_cases h : b > s.scrCap.toNat
  · simp only [h, if_true, reduceCtorEq, false_iff]; omega
  · simp only [h, if_false]
    cases pastEnd s.scrBase.toNat b
    · simpa using h
    · simp

theorem scrCheck_some {s : State} {b : Nat} {e : ErrCode} (h : scrCheck s b = some e) : e = .alloc ∨ e = .addr := by
  unfold scrCheck at h
  split at h
  · simpa using Or.inl h.symm
  · split at h
    · simpa using Or.inr h.symm
    · simp at h

/-! ### What a command leaves -/

/-- The states differ in nothing but the backend link and the count of draws. -/
def linkOnly (s t : State) : Prop := t = { s with answers := t.answers, sent := t.sent, draws := t.draws }

/-- The memory port a command leaves: bytes outside its output range and its scratch range are as before, and the
canonical form is kept. -/
structure PortOk (i : Instr) (s : State) (p : Port) : Prop where
  frame : ∀ x, x < s.outAddr ∨ s.outAddr + outRangeLen s i ≤ x →
    x < s.scrBase.toNat ∨ s.scrBase.toNat + scrRangeLen s i ≤ x → p.mem.get x = s.mem.get x
  wf : Memory.wf s.mem = true → Memory.wf p.mem = true

/-- What an error completion of command `i` in state `s` is. -/
structure ErrEnd (i : Instr) (s t : State) (e : ErrCode) (p : Port) : Prop where
  link : linkOnly s t
  allowed : e ∈ allowedErrors i
  port : PortOk i s p
  early : e = .illegal ∨ e = .cfgInvalid ∨ e = .noidat ∨ e = .alloc ∨ e = .backend
      ∨ (i ≠ .build ∧ (e = .bounds ∨ e = .addr)) → p.mem = s.mem

/-- What a success completion of command `i` in state `s` is: `u` holds the register writes. -/
structure OkEnd (i : Instr) (s u : State) (p : Port) : Prop where
  regs : u = { s with
    outPos := u.outPos, result := u.result, crc := u.crc, idatLen := u.idatLen,
    status := { s.status with idatv := u.status.idatv }, answers := u.answers, sent := u.sent, draws := u.draws }
  idatv : u.status.idatv = (if i = .compress then true else if i = .emitIdat ∨ i = .build then false
    else s.status.idatv)
  idatLen : i ≠ .compress → i ≠ .build → u.idatLen = s.idatLen
  payload : i = .compress → u.idatLen ≠ 0#32
  outMoves : usesOutput i = true → u.outPos.toNat = s.outPos.toNat + u.result.toNat
  outStays : usesOutput i = false → u.outPos = s.outPos
  port : PortOk i s p

/-- The ways a command ends. -/
inductive Ends (i : Instr) (s : State) : Host.Outcome State Fault Refusal → Prop
  | err {t : State} {e : ErrCode} {p : Port} (h : ErrEnd i s t e p) : Ends i s (.next (errorCompletion t e p))
  | ok {u : State} {p : Port} (h : OkEnd i s u p) : Ends i s (.next (successCompletion u p))
  | fault {g : ImgCfg} {z : List Byte} {rest : List Answer} (hi : i = .compress ∨ i = .build)
      (hg : imgCfg s.cfg = some g) (ha : s.answers = .ok z :: rest)
      (hz : bound s.plat (ccfgProv s.ccfg) (pixSize g) < z.length) : Ends i s (.fault .backendOverrun)

theorem linkOnly_refl (s : State) : linkOnly s s := rfl

theorem portOk_same {i : Instr} {s : State} {p : Port} (h : p.mem = s.mem) : PortOk i s p :=
  ⟨fun _ _ _ => by rw [h], fun hw => by rwa [h]⟩

/-- An error before any access. -/
theorem ends_failed {i : Instr} {s : State} {e : ErrCode} (h : e ∈ allowedErrors i) :
    Ends i s (.next (failed s e)) :=
  Ends.err (t := s) (p := s.port) ⟨linkOnly_refl s, h, portOk_same rfl, fun _ => rfl⟩

theorem toNat_ofNat_lt {n : Nat} (h : n < 4294967296) : (BitVec.ofNat 32 n).toNat = n := by
  simp only [BitVec.toNat_ofNat]; exact Nat.mod_eq_of_lt h

/-- `OUT_POS <- OUT_POS + n` and `RESULT <- n` do not wrap where the output window check passes (R154). -/
theorem outFits_toNat {s : State} {n : Nat} (h : outFits s n) :
    (BitVec.ofNat 32 (s.outPos.toNat + n)).toNat = s.outPos.toNat + n ∧ (BitVec.ofNat 32 n).toNat = n := by
  have := s.outCap.isLt
  unfold outFits at h
  exact ⟨toNat_ofNat_lt (by omega), toNat_ofNat_lt (by omega)⟩

/-! ### The fixed-content commands -/

/-- What `emit` does, for a command whose output range is as long as the bytes, that raises the window errors and
MEM, and whose other register writes `d` holds. -/
theorem emit_ends {i : Instr} {s d : State} {bs : List Byte} (hpos : 0 < bs.length)
    (hlen : outRangeLen s i = bs.length)
    (herr : ∀ e, e = ErrCode.bounds ∨ e = .addr ∨ e = .mem → e ∈ allowedErrors i) (hout : usesOutput i = true)
    (hi : i ≠ .compress ∧ i ≠ .build ∧ i ≠ .emitIdat) (hd : d = { s with crc := d.crc }) :
    Ends i s (emit s bs d) := by
  unfold emit
  cases hc : outCheck s bs.length with
  | some e =>
    exact ends_failed (herr e ((outCheck_some hc).elim Or.inl fun h => Or.inr (Or.inl h)))
  | none =>
    have hf := (outCheck_none hpos).1 hc
    have hport : PortOk i s (writeBytes (s.env noOverlap) s.outAddr bs s.port).port :=
      ⟨fun x h1 _ => writeBytes_frame _ _ _ _ (by rw [hlen] at h1; exact h1),
        fun hw => writeBytes_wf _ _ hw hf.2⟩
    cases hw : writeBytes (s.env noOverlap) s.outAddr bs s.port with
    | refused p =>
      rw [hw] at hport
      refine Ends.err ⟨linkOnly_refl s, herr _ (Or.inr (Or.inr rfl)), hport, ?_⟩
      rintro (h | h | h | h | h | ⟨-, h | h⟩) <;> simp at h
    | done v p =>
      rw [hw] at hport
      refine Ends.ok ⟨?_, ?_, ?_, ?_, ?_, ?_, hport⟩
      · rw [hd]; rfl
      · rw [hd]; simp [hi.1, hi.2.1, hi.2.2]
      · intros; rw [hd]; rfl
      · intro h; exact absurd h hi.1
      · intro _
        obtain ⟨h1, h2⟩ := outFits_toNat hf
        rw [hd]
        simp only [advanceOut_outPos, advanceOut_result, h1, h2]
      · intro h; simp [hout] at h

/-! ### The backend -/

theorem askBackend_link (s : State) (r : Request) (b : Nat) : linkOnly s (askBackend s r b).2 := by
  unfold askBackend; split <;> rfl

/-- An answer longer than the bound comes from the list in the state, never from a draw. -/
theorem askBackend_overrun {s : State} {r : Request} {b : Nat} {z : List Byte}
    (h : (askBackend s r b).1 = .ok z) (hz : b < z.length) : ∃ rest, s.answers = .ok z :: rest := by
  unfold askBackend at h
  split at h
  · rename_i a rest ha
    exact ⟨rest, by rw [ha]; simpa using h⟩
  · simp only [cutAnswer] at h
    split at h
    · simp only [Answer.ok.injEq] at h
      rw [← h, List.length_take] at hz
      omega
    · simp at h

theorem linkOnly_env {s t : State} (h : linkOnly s t) (ovl : Nat → Bool) : t.env ovl = s.env ovl := by
  rw [h]; rfl

/-- The compression phase (R211): how it can end. `B` is the bound of the configuration. -/
inductive CompressEnds (s : State) : Compressed → Prop
  | early {e : ErrCode} {t : State} (hl : linkOnly s t)
      (he : e = .cfgInvalid ∨ e = .alloc ∨ e = .addr ∨ e = .backend) : CompressEnds s (.err e t t.port)
  | mem {t : State} {p : Port} {g : ImgCfg} (hl : linkOnly s t) (hg : imgCfg s.cfg = some g)
      (hf : ∀ x, x < s.scrBase.toNat ∨ s.scrBase.toNat + bound s.plat (ccfgProv s.ccfg) (pixSize g) ≤ x →
        p.mem.get x = s.mem.get x)
      (hw : Memory.wf s.mem = true → Memory.wf p.mem = true) : CompressEnds s (.err .mem t p)
  | done {t : State} {p : Port} {g : ImgCfg} {len : Nat} (hl : linkOnly s t) (hg : imgCfg s.cfg = some g)
      (hpos : 0 < len) (hlen : len ≤ bound s.plat (ccfgProv s.ccfg) (pixSize g))
      (hcap : bound s.plat (ccfgProv s.ccfg) (pixSize g) ≤ s.scrCap.toNat)
      (hend : s.scrBase.toNat + bound s.plat (ccfgProv s.ccfg) (pixSize g) ≤ addrLimit)
      (hf : ∀ x, x < s.scrBase.toNat ∨ s.scrBase.toNat + bound s.plat (ccfgProv s.ccfg) (pixSize g) ≤ x →
        p.mem.get x = s.mem.get x)
      (hw : Memory.wf s.mem = true → Memory.wf p.mem = true) :
      CompressEnds s (.done len (bound s.plat (ccfgProv s.ccfg) (pixSize g)) t p)
  | overrun {g : ImgCfg} {z : List Byte} {rest : List Answer} (hg : imgCfg s.cfg = some g)
      (ha : s.answers = .ok z :: rest) (hz : bound s.plat (ccfgProv s.ccfg) (pixSize g) < z.length) :
      CompressEnds s .overrun

theorem runCompress_ends (s : State) : CompressEnds s (runCompress s) := by
  unfold runCompress
  cases hg : imgCfg s.cfg with
  | none => exact .early (linkOnly_refl s) (Or.inl rfl)
  | some g =>
    simp only
    split
    · cases hc : scrCheck s (bound s.plat (ccfgProv s.ccfg) (pixSize g)) with
      | some e =>
        exact .early (linkOnly_refl s) ((scrCheck_some hc).elim (fun h => Or.inr (Or.inl h))
          fun h => Or.inr (Or.inr (Or.inl h)))
      | none =>
        rw [scrCheck_none] at hc
        simp only
        generalize hB : bound s.plat (ccfgProv s.ccfg) (pixSize g) = B at *
        have hl := askBackend_link s (request g s.ccfg) B
        generalize ht : (askBackend s (request g s.ccfg) B).2 = t at *
        have hscr : t.scrBase = s.scrBase := by rw [hl]
        have hmem : t.mem = s.mem := by rw [hl]
        cases ha : (askBackend s (request g s.ccfg) B).1 with
        | fail => exact .early hl (Or.inr (Or.inr (Or.inr rfl)))
        | ok z =>
          cases z with
          | nil => exact .early hl (Or.inr (Or.inr (Or.inr rfl)))
          | cons z0 z =>
            simp only [takeAnswer]
            split
            · rename_i hle
              have hend : s.scrBase.toNat + B ≤ addrLimit := by
                simp only [List.length_cons] at hle; omega
              have hfr : ∀ x, x < s.scrBase.toNat ∨ s.scrBase.toNat + B ≤ x →
                  (writeBytes (t.env noOverlap) t.scrBase.toNat (z0 :: z) t.port).port.mem.get x = s.mem.get x := by
                intro x hx
                rw [writeBytes_frame _ _ _ _ (by rw [hscr]; omega), port_mem, hmem]
              have hwf : Memory.wf s.mem = true →
                  Memory.wf (writeBytes (t.env noOverlap) t.scrBase.toNat (z0 :: z) t.port).port.mem = true := by
                intro hw
                exact writeBytes_wf _ _ (by rwa [port_mem, hmem]) (by rw [hscr]; omega)
              cases hwr : writeBytes (t.env noOverlap) t.scrBase.toNat (z0 :: z) t.port with
              | refused p =>
                rw [hwr] at hfr hwf
                exact .mem hl hg (by rw [hB]; exact hfr) hwf
              | done v p =>
                rw [hwr] at hfr hwf
                subst hB
                refine .done hl hg (by simp) hle hc.1 hend ?_ ?_
                · intro x hx
                  rw [havoc_frame _ _ _ (by rw [hscr]; omega)]
                  exact hfr x hx
                · exact fun hw => havoc_wf (hwf hw) (by rw [hscr]; omega)
            · rename_i hgt
              obtain ⟨rest, hr⟩ := askBackend_overrun ha (by omega)
              exact .overrun hg hr (by omega)
    · exact .early (linkOnly_refl s) (Or.inl rfl)

/-! ### One lemma for each command -/

theorem execCrc_ends (s : State) : Ends .crc s (execCrc s) := by
  unfold execCrc
  cases hc : srcCheck s with
  | some e => rw [srcCheck_some hc]; exact ends_failed (by decide)
  | none =>
    have hm := readBytes_mem (s.env noOverlap) s.srcLen.toNat s.srcAddr.toNat s.port
    cases hr : readBytes (s.env noOverlap) s.srcAddr.toNat s.srcLen.toNat s.port with
    | refused p =>
      rw [hr] at hm
      refine Ends.err ⟨linkOnly_refl s, by decide, portOk_same hm, ?_⟩
      rintro (h | h | h | h | h | ⟨-, h | h⟩) <;> simp at h
    | done x p =>
      rw [hr] at hm
      exact Ends.ok ⟨rfl, rfl, fun _ _ => rfl, fun h => by simp at h, fun h => by simp [usesOutput] at h, fun _ => rfl,
        portOk_same hm⟩

theorem execSize_ends (s : State) : Ends .size s (execSize s) := by
  unfold execSize
  cases imgCfg s.cfg with
  | none => exact ends_failed (by decide)
  | some g =>
    exact Ends.ok ⟨rfl, rfl, fun _ _ => rfl, fun h => by simp at h, fun h => by simp [usesOutput] at h, fun _ => rfl,
      portOk_same rfl⟩

theorem execEmitSig_ends (s : State) : Ends .emitSig s (execEmitSig s) :=
  emit_ends (by simp) (by simp [outRangeLen]) (by rintro e (rfl | rfl | rfl) <;> decide) rfl (by simp) rfl

theorem execEmitIend_ends (s : State) : Ends .emitIend s (execEmitIend s) :=
  emit_ends (by simp) (by simp [outRangeLen]) (by rintro e (rfl | rfl | rfl) <;> decide) rfl (by simp) rfl

theorem execEmitPlte_ends (s : State) : Ends .emitPlte s (execEmitPlte s) :=
  emit_ends (by simp) (by simp [outRangeLen]) (by rintro e (rfl | rfl | rfl) <;> decide) rfl (by simp) rfl

theorem execEmitIhdr_ends (s : State) : Ends .emitIhdr s (execEmitIhdr s) := by
  unfold execEmitIhdr
  cases imgCfg s.cfg with
  | none => exact ends_failed (by decide)
  | some g =>
    exact emit_ends (by simp) (by simp [outRangeLen]) (by rintro e (rfl | rfl | rfl) <;> decide) rfl (by simp) rfl

theorem execEmitTrns_ends (s : State) : Ends .emitTrns s (execEmitTrns s) := by
  unfold execEmitTrns
  cases hg : imgCfg s.cfg with
  | none => exact ends_failed (by decide)
  | some g =>
    exact emit_ends (by simp) (by simp [outRangeLen, hg]) (by rintro e (rfl | rfl | rfl) <;> decide) rfl (by simp) rfl

theorem execEmitChunk_ends (s : State) : Ends .emitChunk s (execEmitChunk s) := by
  unfold execEmitChunk
  split
  · cases hs : srcCheck s with
    | some e => rw [srcCheck_some hs]; exact ends_failed (by decide)
    | none =>
      simp only
      cases hc : outCheck s (s.srcLen.toNat + 12) with
      | some e => obtain rfl | rfl := outCheck_some hc <;> exact ends_failed (by decide)
      | none =>
        simp only
        have hf := (outCheck_none (by omega)).1 hc
        have hport : PortOk .emitChunk s
            (copyChunk (s.env (inBoth s.srcAddr.toNat s.srcLen.toNat s.outAddr (s.srcLen.toNat + 12))) s.type
              s.srcAddr.toNat s.srcLen.toNat s.outAddr s.port).port :=
          ⟨fun x h1 _ => copyChunk_frame _ _ _ _ _ _ h1, fun hw => copyChunk_wf _ _ _ hw hf.2⟩
        split
        · rename_i hw
          rw [hw] at hport
          refine Ends.err ⟨linkOnly_refl s, by decide, hport, ?_⟩
          rintro (h | h | h | h | h | ⟨-, h | h⟩) <;> simp at h
        · rename_i hw
          rw [hw] at hport
          obtain ⟨h1, h2⟩ := outFits_toNat hf
          exact Ends.ok ⟨rfl, rfl, fun _ _ => rfl, fun h => by simp at h,
            fun _ => by simp only [advanceOut_outPos, advanceOut_result, writeCrc_outPos, h1, h2],
            fun h => by simp [usesOutput] at h, hport⟩
  · exact ends_failed (by decide)

theorem execEmitIdat_ends (s : State) : Ends .emitIdat s (execEmitIdat s) := by
  unfold execEmitIdat
  split
  · split
    · exact ends_failed (by decide)
    · cases hc : outCheck s (s.idatLen.toNat + 12) with
      | some e => obtain rfl | rfl := outCheck_some hc <;> exact ends_failed (by decide)
      | none =>
        simp only
        have hf := (outCheck_none (by omega)).1 hc
        have hport : PortOk .emitIdat s
            (copyChunk (s.env (inBoth s.scrBase.toNat s.idatLen.toNat s.outAddr (s.idatLen.toNat + 12))) tagIDAT
              s.scrBase.toNat s.idatLen.toNat s.outAddr s.port).port :=
          ⟨fun x h1 _ => copyChunk_frame _ _ _ _ _ _ h1, fun hw => copyChunk_wf _ _ _ hw hf.2⟩
        split
        · rename_i hw
          rw [hw] at hport
          refine Ends.err ⟨linkOnly_refl s, by decide, hport, ?_⟩
          rintro (h | h | h | h | h | ⟨-, h | h⟩) <;> simp at h
        · rename_i hw
          rw [hw] at hport
          obtain ⟨h1, h2⟩ := outFits_toNat hf
          exact Ends.ok ⟨rfl, rfl, fun _ _ => rfl, fun h => by simp at h,
            fun _ => by simp only [writeIdatv_outPos, writeIdatv_result, advanceOut_outPos, advanceOut_result,
              writeCrc_outPos, h1, h2],
            fun h => by simp [usesOutput] at h, hport⟩
  · exact ends_failed (by decide)

/-- The scratch range of COMPRESS and BUILD is the bound. -/
theorem scrRangeLen_bound {s : State} {g : ImgCfg} (hg : imgCfg s.cfg = some g) :
    scrRangeLen s .compress = bound s.plat (ccfgProv s.ccfg) (pixSize g)
      ∧ scrRangeLen s .build = bound s.plat (ccfgProv s.ccfg) (pixSize g) := by
  simp [scrRangeLen, hg]

theorem execCompress_ends (s : State) : Ends .compress s (execCompress s) := by
  unfold execCompress
  have h := runCompress_ends s
  generalize runCompress s = c at h
  cases h with
  | @early e t hl he =>
    have hm : t.port.mem = s.mem := by rw [port_mem, hl]
    refine Ends.err ⟨hl, ?_, portOk_same hm, fun _ => hm⟩
    obtain rfl | rfl | rfl | rfl := he <;> decide
  | mem hl hg hf hw =>
    refine Ends.err ⟨hl, by decide, ⟨fun x _ h2 => hf x (by rwa [(scrRangeLen_bound hg).1] at h2), hw⟩, ?_⟩
    rintro (h | h | h | h | h | ⟨-, h | h⟩) <;> simp at h
  | @done t p g len hl hg hpos hlen hcap hend hf hw =>
    have hlt := s.scrCap.isLt
    refine Ends.ok ⟨?_, by rw [hl]; rfl, fun h => absurd rfl h, fun _ => ?_, fun h => by simp [usesOutput] at h,
      fun _ => by rw [hl]; rfl, ⟨fun x _ h2 => hf x (by rwa [(scrRangeLen_bound hg).1] at h2), hw⟩⟩
    · rw [hl]; rfl
    · simp only [writeIdatv_idatLen, writeResult_idatLen, writeIdatLen_idatLen]
      intro h0
      have := congrArg BitVec.toNat h0
      rw [toNat_ofNat_lt (by omega)] at this
      simp at this
      omega
  | overrun hg ha hz => exact Ends.fault (Or.inl rfl) hg ha hz

theorem openOverlap_frame (s : State) (bnd T : Nat) (p : Port) {x : Nat}
    (h : x < s.outAddr ∨ s.outAddr + T ≤ x ∨ x < s.scrBase.toNat ∨ s.scrBase.toNat + bnd ≤ x) :
    (openOverlap s bnd T p).mem.get x = p.mem.get x := by
  apply havoc_frame
  simp only [bothBase, bothLen]
  omega

theorem openOverlap_wf (s : State) (bnd T : Nat) {p : Port} (hp : Memory.wf p.mem = true)
    (h : s.outAddr + T ≤ addrLimit) : Memory.wf (openOverlap s bnd T p).mem = true := by
  by_cases h0 : bothLen s.scrBase.toNat bnd s.outAddr T = 0
  · simpa [openOverlap, h0, havoc] using hp
  · apply havoc_wf hp
    simp only [bothBase, bothLen] at *
    omega

theorem execBuild_ends (s : State) : Ends .build s (execBuild s) := by
  unfold execBuild
  cases hg : imgCfg s.cfg with
  | none => exact ends_failed (by decide)
  | some g =>
    simp only
    have h := runCompress_ends s
    generalize runCompress s = c at h
    cases h with
    | @early e t hl he =>
      have hm : t.port.mem = s.mem := by rw [port_mem, hl]
      refine Ends.err ⟨hl, ?_, portOk_same hm, fun _ => hm⟩
      obtain rfl | rfl | rfl | rfl := he <;> decide
    | mem hl hg' hf hw =>
      refine Ends.err ⟨hl, by decide, ⟨fun x _ h2 => hf x (by rwa [(scrRangeLen_bound hg').2] at h2), hw⟩, ?_⟩
      rintro (h | h | h | h | h | ⟨-, h | h⟩) <;> simp at h
    | overrun hg' ha hz => exact Ends.fault (Or.inr rfl) hg' ha hz
    | @done t p g' len hl hg' hpos hlen hcap hend hf hw =>
      obtain rfl : g = g' := by rw [hg] at hg'; simpa using hg'
      have hadr : t.outAddr = s.outAddr := by rw [hl]; rfl
      have hscr : t.scrBase = s.scrBase := by rw [hl]
      have hpos' : t.outPos = s.outPos := by rw [hl]
      have hlenT : outRangeLen s .build = imageLen g (bound s.plat (ccfgProv s.ccfg) (pixSize g)) := by
        simp [outRangeLen, hg]
      have hmono := imageLen_mono g hlen
      simp only
      unfold assemble
      cases hc : outCheck t (imageLen g len) with
      | some e =>
        refine Ends.err ⟨hl, ?_, ⟨fun x _ h2 => hf x (by rwa [(scrRangeLen_bound hg).2] at h2), hw⟩, ?_⟩
        · obtain rfl | rfl := outCheck_some hc <;> decide
        · obtain rfl | rfl := outCheck_some hc <;>
            (rintro (h | h | h | h | h | ⟨h, -⟩) <;> simp at h)
      | none =>
        have hf' : outFits s (imageLen g len) := by
          have := (outCheck_none (by simp [imageLen])).1 hc
          rw [hl] at this; exact this
        have hend' : s.outAddr + imageLen g len ≤ addrLimit := hf'.2
        have hport : PortOk .build s (writeImage (t.env (buildOverlap t (imageLen g len))) g t.scrBase.toNat len
            t.outAddr (openOverlap t (bound s.plat (ccfgProv s.ccfg) (pixSize g)) (imageLen g len) p)).port := by
          constructor
          · intro x h1 h2
            rw [hlenT] at h1
            rw [(scrRangeLen_bound hg).2] at h2
            rw [writeImage_frame _ _ _ _ _ _ (by rw [hadr]; omega),
              openOverlap_frame _ _ _ _ (by rw [hadr, hscr]; omega), hf x h2]
          · intro hwf
            exact writeImage_wf _ _ _ (openOverlap_wf _ _ _ (hw hwf) (by rw [hadr]; exact hend'))
              (by rw [hadr]; exact hend')
        simp only
        split
        · rename_i q hq
          rw [hq] at hport
          refine Ends.err ⟨hl, by decide, hport, ?_⟩
          rintro (h | h | h | h | h | ⟨-, h | h⟩) <;> simp at h
        · rename_i q hq
          rw [hq] at hport
          obtain ⟨h1, h2⟩ := outFits_toNat hf'
          refine Ends.ok ⟨?_, by rw [hl]; rfl, fun _ h => absurd rfl h, fun h => by simp at h, ?_,
            fun h => by simp [usesOutput] at h, ⟨?_, ?_⟩⟩
          · rw [hl]; rfl
          · intro _
            simp only [writeIdatv_outPos, writeIdatv_result, writeCrc_outPos, writeCrc_result, writeIdatLen_outPos,
              writeIdatLen_result, advanceOut_outPos, advanceOut_result, hpos', h1, h2]
          · intro x a b
            unfold buildCrc
            split <;> exact hport.frame x a b
          · intro hwf
            unfold buildCrc
            split <;> exact hport.wf hwf

/-- Everything a command can do. -/
theorem exec_ends (i : Instr) (s : State) : Ends i s (exec i s) := by
  cases i with
  | crc => exact execCrc_ends s
  | emitSig => exact execEmitSig_ends s
  | emitChunk => exact execEmitChunk_ends s
  | emitIend => exact execEmitIend_ends s
  | emitIhdr => exact execEmitIhdr_ends s
  | emitPlte => exact execEmitPlte_ends s
  | emitTrns => exact execEmitTrns_ends s
  | emitIdat => exact execEmitIdat_ends s
  | size => exact execSize_ends s
  | compress => exact execCompress_ends s
  | build => exact execBuild_ends s

end Sys2Proof.Machine
end

