-- ==== Sys2Proof/Laws/Backend.lean ====
section
/-! SUPPORT. The compression phase where the backend's next answer is listed in the state. -/

namespace Sys2Proof.Machine

theorem scrCheck_alloc {s : State} {b : Nat} (h : s.scrCap.toNat < b) : scrCheck s b = some .alloc := by
  simp [scrCheck, h]

theorem scrCheck_addr {s : State} {b : Nat} (h : b ≤ s.scrCap.toNat) (h0 : 0 < b)
    (ha : addrLimit < s.scrBase.toNat + b) : scrCheck s b = some .addr := by
  simp [scrCheck, pastEnd_eq_true.2 ⟨h0, ha⟩]
  omega

/-- Where the checks pass, the request is sent and the next answer is taken (R211). -/
theorem runCompress_asked {s : State} {g : ImgCfg} {a : Answer} {rest : List Answer} (hg : imgCfg s.cfg = some g)
    (hc : cmpCfgOk s.plat s.ccfg = true) (hs : scrCheck s (bound s.plat (ccfgProv s.ccfg) (pixSize g)) = none)
    (ha : s.answers = a :: rest) :
    runCompress s = takeAnswer { s with answers := rest, sent := s.sent ++ [request g s.ccfg] }
      (bound s.plat (ccfgProv s.ccfg) (pixSize g)) a := by
  simp only [runCompress, hg, hc, if_true, hs, askBackend, ha]

/-- The bytes that stand in a memory are what a read of it returns. -/
theorem memBytes_of_stands {m : Memory} {base : Nat} {bs : List Byte}
    (h : ∀ k b, bs[k]? = some b → m.byteAt (base + k) = b) : memBytes m base bs.length = bs := by
  apply List.ext_getElem?
  intro k
  by_cases hk : k < bs.length
  · simp only [memBytes, List.getElem?_map, List.getElem?_range hk, Option.map_some]
    rw [List.getElem?_eq_getElem hk, h k bs[k] (List.getElem?_eq_getElem hk)]
  · rw [List.getElem?_eq_none (by simp; omega), List.getElem?_eq_none (by omega)]

/-- The compression phase that ends with the payload in the scratch window: what memory then holds (R210). -/
theorem runCompress_done {s : State} {g : ImgCfg} {z : List Byte} {rest : List Answer}
    (hg : imgCfg s.cfg = some g) (hc : cmpCfgOk s.plat s.ccfg = true)
    (h1 : bound s.plat (ccfgProv s.ccfg) (pixSize g) ≤ s.scrCap.toNat)
    (h2 : s.scrBase.toNat + bound s.plat (ccfgProv s.ccfg) (pixSize g) ≤ addrLimit) (ha : s.answers = .ok z :: rest)
    (hz : z ≠ []) (hl : z.length ≤ bound s.plat (ccfgProv s.ccfg) (pixSize g))
    (hw : admits s s.scrBase.toNat z.length .write) :
    ∃ p, runCompress s = .done z.length (bound s.plat (ccfgProv s.ccfg) (pixSize g))
        { s with answers := rest, sent := s.sent ++ [request g s.ccfg] } p
      ∧ (∀ x, x < s.scrBase.toNat ∨ s.scrBase.toNat + bound s.plat (ccfgProv s.ccfg) (pixSize g) ≤ x →
          p.mem.get x = s.mem.get x)
      ∧ (∀ k b, z[k]? = some b → s.scrBase.toNat + k ∉ s.raced → p.mem.get (s.scrBase.toNat + k) = some b) := by
  rw [runCompress_asked hg hc (scrCheck_none.2 ⟨h1, .inr h2⟩) ha]
  generalize ht : { s with answers := rest, sent := s.sent ++ [request g s.ccfg] } = t
  have hp : t.port = s.port := by rw [← ht]; rfl
  have hb : t.scrBase = s.scrBase := by rw [← ht]
  have hv : t.raced = s.raced := by rw [← ht]
  have hpl : (t.env noOverlap).plat = s.plat := by rw [← ht]; rfl
  obtain ⟨q, hq⟩ := writeBytes_done (e := t.env noOverlap) z (a := s.scrBase.toNat) s.port
    (by rw [hpl]; exact hw)
  have hfr := fun x => writeBytes_frame (t.env noOverlap) z s.scrBase.toNat s.port (x := x)
  rw [hq] at hfr
  cases z with
  | nil => exact absurd rfl hz
  | cons z0 z =>
    refine ⟨_, by simp only [takeAnswer, hl, if_true, hp, hb]; rw [hq], ?_, ?_⟩
    · intro x hx
      rw [havoc_frame _ _ _ (by omega)]
      exact hfr x (by omega)
    · intro k b hk hr
      have hlt : k < (z0 :: z).length := by
        by_contra hc
        rw [List.getElem?_eq_none (by omega)] at hk
        simp at hk
      rw [havoc_frame _ _ _ (by omega)]
      exact writeBytes_stands hq hk (by simp [State.env, noOverlap, hv, hr])

end Sys2Proof.Machine
end

