-- ==== Sys2Proof/Laws/Bus.lean ====
section
/-! SUPPORT. The register window by offset, the bits of CTRL and STATUS, and that what reset does to memory
keeps its canonical form. -/

namespace Sys2Proof.Machine

theorem regAt_none {k : Nat} (h : 0x44 ≤ k) : regAt k = none := by
  simp only [regAt, List.find?_eq_none, allRegs]
  intro r _
  cases r <;> simp [regOffset] <;> omega

@[simp] theorem regAt_offset (r : Reg) : regAt (regOffset r) = some r := by cases r <;> rfl

theorem busAccess_reg (p : Platform) (r : Reg) : busAccess p (regBase p + regOffset r) 4 = .word (regOffset r) := by
  have h : regOffset r < 256 ∧ regOffset r % 4 = 0 := by cases r <;> decide
  unfold busAccess regBase at *
  rw [if_neg (by omega), if_pos (by omega)]
  congr 1
  omega

/-- The bits of the word a read of CTRL returns (R25). -/
theorem ctrlWord_bit (c : Ctrl) (k : Nat) :
    (ctrlWord c).getLsbD k = (if k = 0 then c.ieDone else if k = 1 then c.ieErr else false) := by
  by_cases hk : k < 32
  · obtain ⟨a, b⟩ := c
    interval_cases k <;> cases a <;> cases b <;> rfl
  · rw [BitVec.getLsbD_of_ge _ _ (by omega), if_neg (by omega), if_neg (by omega)]

/-- The bits of the word a read of STATUS returns (R26). -/
theorem statusWord_bits (t : Status) :
    (statusWord t).getLsbD 0 = t.busy ∧ (statusWord t).getLsbD 1 = t.done ∧ (statusWord t).getLsbD 2 = t.err
      ∧ (statusWord t).getLsbD 3 = t.ovr ∧ (statusWord t).extractLsb' 4 4 = t.ecode.code
      ∧ (statusWord t).getLsbD 8 = t.idatv ∧ ∀ k, 9 ≤ k → (statusWord t).getLsbD k = false := by
  obtain ⟨a, b, c, d, e, f⟩ := t
  refine ⟨?_, ?_, ?_, ?_, ?_, ?_, fun k hk => ?_⟩
  iterate 6 cases a <;> cases b <;> cases c <;> cases d <;> cases e <;> cases f <;> rfl
  by_cases h : k < 32
  · have : (statusWord ⟨a, b, c, d, e, f⟩).toNat < 512 := by
      cases a <;> cases b <;> cases c <;> cases d <;> cases e <;> cases f <;> decide
    exact Nat.testBit_lt_two_pow (this.trans_le (show 2 ^ 9 ≤ 2 ^ k from Nat.pow_le_pow_right (by decide) hk))
  · exact BitVec.getLsbD_of_ge _ _ (by omega)

/-- A read of STATUS returns the status word, with IDATV free while busy (R45). -/
theorem readReg_status (s : State) : ∃ b, (readReg s .status).1 = statusWord { s.status with idatv := b }
    ∧ (s.status.busy = false → b = s.status.idatv) := by
  unfold readReg
  split
  · exact ⟨(Config.freeWord s.draws).getLsbD 0, rfl, fun h => by simp_all⟩
  · exact ⟨s.status.idatv, rfl, fun _ => rfl⟩

theorem havoc_clip_wf {base n : Nat} {p : Port} (h : Memory.wf p.mem = true) :
    Memory.wf (havoc base (clipLen base n) p).mem = true := by
  by_cases h0 : clipLen base n = 0
  · simpa [h0, havoc] using h
  · apply havoc_wf h
    unfold clipLen at *
    omega

theorem abandon_wf {s : State} (h : Memory.wf s.mem = true) : Memory.wf (abandon s).mem = true := by
  unfold abandon
  split
  · exact h
  · split
    · exact h
    · exact havoc_clip_wf (havoc_clip_wf h)

end Sys2Proof.Machine
end

