-- ==== Sys2Proof/Laws/Crc.lean ====
section
/-! SUPPORT. The CRC register is linear: a shift of an exclusive or is the exclusive or of the shifts. -/

namespace Sys2Proof.Machine

theorem crcBit_xor (a b : Word) : crcBit (a ^^^ b) = crcBit a ^^^ crcBit b := by
  have h : (a ^^^ b).getLsbD 0 = (a.getLsbD 0 ^^ b.getLsbD 0) := by simp
  unfold crcBit
  rw [h]
  cases a.getLsbD 0 <;> cases b.getLsbD 0 <;> simp [BitVec.ushiftRight_xor_distrib]
  · ac_rfl
  · ac_rfl
  · rw [show a >>> 1 ^^^ 3988292384#32 ^^^ (b >>> 1 ^^^ 3988292384#32)
      = (a >>> 1 ^^^ b >>> 1) ^^^ (3988292384#32 ^^^ 3988292384#32) by ac_rfl]
    simp

theorem crcShift_xor (n : Nat) (a b : Word) : crcShift n (a ^^^ b) = crcShift n a ^^^ crcShift n b := by
  induction n generalizing a b with
  | zero => rfl
  | succ n ih => simp only [crcShift, crcBit_xor, ih]

/-- Shifts of a value whose low bits are 0 meet no feedback. -/
theorem crcShift_high (n : Nat) (c : Word) (h : ∀ k, k < n → c.getLsbD k = false) : crcShift n c = c >>> n := by
  induction n generalizing c with
  | zero => simp [crcShift]
  | succ n ih =>
    simp only [crcShift, crcBit, h 0 (by omega)]
    rw [if_neg (by simp), ih (c >>> 1) fun k hk => by
      simp only [BitVec.getLsbD_ushiftRight]; exact h _ (by omega)]
    rw [← BitVec.shiftRight_add, Nat.add_comm]

end Sys2Proof.Machine
end

