-- ==== Sys2Proof/Laws/Decode.lean ====
section
/-! SUPPORT. The fields of a command word as numbers, and when a word decodes. -/

namespace Sys2Proof

theorem opField_eq (w : Word) : opField w = w.toNat % 256 := by
  simp [opField, BitVec.extractLsb'_toNat]

theorem mbzField_eq (w : Word) : mbzField w = w.toNat / 256 := by
  have := w.isLt
  simp only [mbzField, BitVec.extractLsb'_toNat, Nat.shiftRight_eq_div_pow]
  omega

theorem opcode_lt (i : Instr) : opcode i < 256 := by cases i <;> decide

@[simp] theorem encode_toNat (i : Instr) : (encode i).toNat = opcode i := by
  have := opcode_lt i
  simp only [encode, BitVec.toNat_ofNat]
  omega

theorem commandOfOp_iff {n : Nat} {i : Instr} : commandOfOp n = some i ↔ n = opcode i := by
  constructor
  · intro h
    unfold commandOfOp at h
    split at h <;> simp only [Option.some.injEq, reduceCtorEq] at h <;> subst h <;> rfl
  · rintro rfl
    cases i <;> rfl

/-- A word decodes to a command exactly when its number is the command's opcode. -/
theorem decode_ok_iff {w : Word} {i : Instr} : decode w = .ok i ↔ w.toNat = opcode i := by
  have hlt := opcode_lt i
  unfold decode
  rw [mbzField_eq, opField_eq]
  split
  · rename_i h
    simp only [reduceCtorEq, false_iff]
    omega
  · rename_i h
    cases hc : commandOfOp (w.toNat % 256) with
    | none =>
      simp only [reduceCtorEq, false_iff]
      intro hw
      rw [show w.toNat % 256 = opcode i by omega, commandOfOp_iff.2 rfl] at hc
      simp at hc
    | some j =>
      rw [commandOfOp_iff] at hc
      simp only [Except.ok.injEq]
      constructor
      · rintro rfl; omega
      · intro hw
        have hji : commandOfOp (opcode j) = commandOfOp (opcode i) := by rw [← hc, ← hw]; congr 1; omega
        rw [commandOfOp_iff.2 rfl, commandOfOp_iff.2 rfl] at hji
        simpa using hji

@[simp] theorem decode_encode (i : Instr) : decode (encode i) = .ok i := decode_ok_iff.2 (encode_toNat i)

theorem commandOfOp_isSome {n : Nat} : (∃ i, commandOfOp n = some i) ↔ 1 ≤ n ∧ n ≤ 11 := by
  constructor
  · rintro ⟨i, h⟩
    rw [commandOfOp_iff] at h
    subst h
    cases i <;> decide
  · rintro ⟨h1, h2⟩
    interval_cases n <;> exact ⟨_, rfl⟩

/-- A word decodes to some command exactly when it is well formed. -/
theorem decode_ok_wellFormed {w : Word} : (∃ i, decode w = .ok i) ↔ 1 ≤ w.toNat ∧ w.toNat ≤ 11 := by
  simp only [decode_ok_iff, ← commandOfOp_iff, commandOfOp_isSome]

end Sys2Proof
end

