-- ==== Sys2Proof/Laws/Emit.lean ====
section
/-! SUPPORT. What the output commands do where their checks pass, and which error a failing check raises. -/

namespace Sys2Proof.Machine

/-! ### Checks -/

theorem outCheck_bounds {s : State} {n : Nat} (h : s.outCap.toNat < s.outPos.toNat + n) :
    outCheck s n = some .bounds := by
  simp [outCheck, h]

theorem outCheck_addr {s : State} {n : Nat} (hn : 0 < n) (h : s.outPos.toNat + n ≤ s.outCap.toNat)
    (ha : addrLimit < s.outBase.toNat + s.outPos.toNat + n) : outCheck s n = some .addr := by
  have hp : pastEnd s.outAddr n = true := pastEnd_eq_true.2 ⟨hn, by simpa [State.outAddr] using ha⟩
  simp [outCheck, hp]
  omega

theorem srcCheck_none {s : State} :
    srcCheck s = none ↔ s.srcLen.toNat = 0 ∨ s.srcAddr.toNat + s.srcLen.toNat ≤ addrLimit := by
  rw [← pastEnd_eq_false]
  unfold srcCheck
  split <;> simp_all

theorem srcCheck_addr {s : State} (h : 0 < s.srcLen.toNat) (ha : addrLimit < s.srcAddr.toNat + s.srcLen.toNat) :
    srcCheck s = some .addr := by
  simp [srcCheck, pastEnd_eq_true.2 ⟨h, ha⟩]

/-! ### Open addresses -/

theorem env_closed {s : State} {base n x : Nat} (h : unraced s base n) (h1 : base ≤ x) (h2 : x < base + n) :
    (s.env noOverlap).isOpen x = false := by
  simp [State.env, noOverlap, h x h1 h2]

theorem inBoth_left {src len o n x : Nat} (hd : disjoint src len o n) (h1 : src ≤ x) (h2 : x < src + len) :
    inBoth src len o n x = false := by
  simp only [inBoth, inRange, Bool.and_eq_false_iff, decide_eq_false_iff_not]
  by_contra hcon
  push Not at hcon
  exact hd x ⟨⟨h1, h2⟩, hcon.2⟩

theorem inBoth_right {src len o n x : Nat} (hd : disjoint src len o n) (h1 : o ≤ x) (h2 : x < o + n) :
    inBoth src len o n x = false := by
  simp only [inBoth, inRange, Bool.and_eq_false_iff, decide_eq_false_iff_not]
  by_contra hcon
  push Not at hcon
  exact hd x ⟨hcon.1, h1, h2⟩

/-- What a completed run of writes leaves stands in memory, where the windows do not overlap. -/
theorem standsAt_of_writes {s t : State} {ovl : Nat → Bool} {a : Nat} {bs : List Byte} {p q : Port}
    (h : writeBytes (s.env ovl) a bs p = .done () q) (ht : t.mem = q.mem)
    (ho : ∀ x, a ≤ x → x < a + bs.length → ovl x = false) : standsAt s t a bs := by
  intro k b hk hr
  have hlt : k < bs.length := by
    by_contra hc
    rw [List.getElem?_eq_none (by omega)] at hk
    simp at hk
  have := writeBytes_stands h hk (by simpa [State.env, ho (a + k) (by omega) (by omega)] using hr)
  simp [State.peek, Memory.byteAt, ht, this]

/-! ### Success -/

/-- `emit` where the output window check passes and every write is admitted (R151). -/
theorem emit_done {s d : State} {bs : List Byte} (hpos : 0 < bs.length) (hf : outFits s bs.length)
    (ha : admits s (s.outBase.toNat + s.outPos.toNat) bs.length .write) (hd : d = { s with crc := d.crc }) :
    ∃ t, emit s bs d = .next t ∧ outputDone s t bs.length d.crc s.status.idatv
      ∧ standsAt s t (s.outBase.toNat + s.outPos.toNat) bs := by
  obtain ⟨q, hq⟩ := writeBytes_done (e := s.env noOverlap) bs (a := s.outAddr) s.port ha
  have hfr := fun x => writeBytes_frame (s.env noOverlap) bs s.outAddr s.port (x := x)
  rw [hq] at hfr
  obtain ⟨h1, h2⟩ := outFits_toNat hf
  unfold emit
  rw [(outCheck_none hpos).2 hf]
  simp only [hq]
  refine ⟨_, rfl, ⟨?_, ?_, ?_, ?_⟩, standsAt_of_writes hq rfl fun _ _ _ => rfl⟩
  · rw [hd]; rfl
  · rw [hd]; exact h1
  · exact h2
  · intro x hx
    have := hfr x hx
    simp only [Access.port_done, port_mem] at this
    simp [State.peek, Memory.byteAt, this]

/-- A fixed-content command is `emit` of its bytes. -/
theorem exec_fixed {i : Instr} {s : State} {bs : List Byte} (h : fixedBytes s i = some bs) :
    0 < bs.length ∧ ∃ d, exec i s = emit s bs d ∧ d = { s with crc := d.crc } := by
  cases i <;> simp only [fixedBytes, reduceCtorEq, Option.some.injEq, Option.map_eq_some_iff] at h
  · subst h; exact ⟨by simp, s, rfl, rfl⟩
  · subst h; exact ⟨by simp, _, rfl, rfl⟩
  · obtain ⟨g, hg, rfl⟩ := h
    exact ⟨by simp, _, by simp only [exec, execEmitIhdr, hg]; rfl, rfl⟩
  · subst h; exact ⟨by simp, _, rfl, rfl⟩
  · obtain ⟨g, hg, rfl⟩ := h
    exact ⟨by simp, _, by simp only [exec, execEmitTrns, hg]; rfl, rfl⟩

/-- The chunk a copying command emits, as the operation it calls: where the checks pass, the command ends as the copy
ends (R155, R170). -/
theorem exec_copied {i : Instr} {s : State} {c : Copied} (h : copied s i = some c)
    (hs : c.len = 0 ∨ c.src + c.len ≤ addrLimit) (hf : outFits s (c.len + 12)) :
    (∀ q, copyChunk (s.env (inBoth c.src c.len s.outAddr (c.len + 12))) c.tag c.src c.len s.outAddr s.port = .refused q →
        exec i s = .next (errorCompletion s .mem q))
      ∧ ∀ x q, copyChunk (s.env (inBoth c.src c.len s.outAddr (c.len + 12))) c.tag c.src c.len s.outAddr s.port
          = .done x q →
        exec i s = .next (successCompletion (writeIdatv (advanceOut (writeCrc s x) (c.len + 12))
          (if i = .emitIdat then false else s.status.idatv)) q) := by
  cases i <;> simp only [copied, reduceCtorEq] at h <;> split at h <;> simp only [reduceCtorEq, Option.some.injEq] at h <;>
    subst h <;> rename_i hc
  · simp only [exec, execEmitChunk, hc, if_true, srcCheck_none.2 hs, (outCheck_none (Nat.succ_pos _)).2 hf]
    exact ⟨fun q hq => by simp only [hq], fun x q hq => by simp only [hq]; rfl⟩
  · simp only [exec, execEmitIdat, hc, if_true, pastEnd_eq_false.2 hs, (outCheck_none (Nat.succ_pos _)).2 hf]
    exact ⟨fun q hq => by simp [hq], fun x q hq => by simp [hq]⟩

/-! ### The parts of a chunk and of an image that were written to their end -/

theorem copyChunk_parts {e : Env} {t : Word} {src len o : Nat} {p q : Port} {c : Word}
    (h : copyChunk e t src len o p = .done c q) :
    ∃ r y u, writeBytes e o (be32 (BitVec.ofNat 32 len) ++ tag t) p = .done () r
      ∧ copyBytes e src (o + 8) len r = .done y u
      ∧ writeBytes e (o + 8 + len) (be32 (copiedCrc t y u).1.1) (copiedCrc t y u).2 = .done () q
      ∧ c = (copiedCrc t y u).1.2 := by
  unfold copyChunk at h
  cases h1 : writeBytes e o (be32 (BitVec.ofNat 32 len) ++ tag t) p with
  | refused => simp [h1] at h
  | done _ r =>
    simp only [h1, andThen_done] at h
    cases h2 : copyBytes e src (o + 8) len r with
    | refused => simp [h2] at h
    | done y u =>
      simp only [h2, andThen_done] at h
      cases h3 : writeBytes e (o + 8 + len) (be32 (copiedCrc t y u).1.1) (copiedCrc t y u).2 with
      | refused => simp [h3] at h
      | done _ v =>
        simp only [h3, andThen_done, Access.done.injEq] at h
        exact ⟨r, y, u, rfl, h2, h.2 ▸ h3, h.1.symm⟩

/-- A length or tag byte of a chunk that was written to its end. -/
theorem copyChunk_header {e : Env} {t : Word} {src len o : Nat} {p q : Port} {c : Word}
    (h : copyChunk e t src len o p = .done c q) {k : Nat} {b : Byte}
    (hk : (be32 (BitVec.ofNat 32 len) ++ tag t)[k]? = some b) (ho : e.isOpen (o + k) = false) :
    q.mem.get (o + k) = some b := by
  obtain ⟨r, y, u, h1, h2, h3, -⟩ := copyChunk_parts h
  have hlt : k < 8 := by
    by_contra hc
    rw [List.getElem?_eq_none (by simp; omega)] at hk
    simp at hk
  have f2 := copyBytes_frame e len src (o + 8) r (x := o + k) (by omega)
  have f3 := writeBytes_frame e (be32 (copiedCrc t y u).1.1) (o + 8 + len) (copiedCrc t y u).2 (x := o + k) (by omega)
  rw [h2] at f2
  rw [h3, copiedCrc_mem] at f3
  simp only [Access.port_done] at f2 f3
  rw [f3, f2, writeBytes_stands h1 hk ho]

/-- A payload byte of a chunk that was written to its end, where neither its source nor its destination is open. -/
theorem copyChunk_payload {e : Env} {t : Word} {src len o : Nat} {p q : Port} {c : Word}
    (h : copyChunk e t src len o p = .done c q) {k : Nat} (hk : k < len) (h1 : e.isOpen (src + k) = false)
    (h2 : e.isOpen (o + 8 + k) = false) (hx : src + k < o ∨ o + (len + 12) ≤ src + k) :
    q.mem.byteAt (o + 8 + k) = p.mem.byteAt (src + k) := by
  obtain ⟨r, y, u, hw, hc, hw2, -⟩ := copyChunk_parts h
  have f1 := writeBytes_frame e (be32 (BitVec.ofNat 32 len) ++ tag t) o p (x := src + k) (by simp; omega)
  have f2 := writeBytes_frame e (be32 (copiedCrc t y u).1.1) (o + 8 + len) (copiedCrc t y u).2
    (x := o + 8 + k) (by simp; omega)
  rw [hw] at f1
  rw [hw2, copiedCrc_mem] at f2
  have := copyBytes_copies hc hk h1 h2 (by omega)
  simp only [Access.port_done] at f1 f2
  rw [Memory.byteAt, f2, ← Memory.byteAt, this, Memory.byteAt, f1, Memory.byteAt]

theorem writeImage_parts {e : Env} {g : ImgCfg} {src len o : Nat} {p q : Port}
    (h : writeImage e g src len o p = .done () q) :
    ∃ r c u, writeBytes e o (imageHead e.plat g) p = .done () r
      ∧ copyChunk e tagIDAT src len (o + (imageHead e.plat g).length) r = .done c u
      ∧ writeBytes e (o + (imageHead e.plat g).length + (len + 12)) iendBytes u = .done () q := by
  unfold writeImage at h
  cases h1 : writeBytes e o (imageHead e.plat g) p with
  | refused => simp [h1] at h
  | done _ r =>
    simp only [h1, andThen_done] at h
    cases h2 : copyChunk e tagIDAT src len (o + (imageHead e.plat g).length) r with
    | refused => simp [h2] at h
    | done c u =>
      simp only [h2, andThen_done] at h
      exact ⟨r, c, u, rfl, h2, h⟩

/-- A byte of an image that was written to its end, the payload and its CRC apart: it does not depend on the payload's
bytes, only on their number. -/
theorem writeImage_fixed {e : Env} {g : ImgCfg} {src o : Nat} {p q : Port} {z : List Byte}
    (h : writeImage e g src z.length o p = .done () q) {k : Nat} {b : Byte} (hk : (image e.plat g z)[k]? = some b)
    (hp : k < payloadOffset g ∨ payloadOffset g + z.length + 4 ≤ k) (ho : e.isOpen (o + k) = false) :
    q.mem.get (o + k) = some b := by
  rw [payloadOffset_eq e.plat] at hp
  obtain ⟨r, c, u, h1, h2, h3⟩ := writeImage_parts h
  simp only [image, chunk, List.append_assoc] at hk
  by_cases ha : k < (imageHead e.plat g).length
  · rw [List.getElem?_append_left ha] at hk
    have f2 := copyChunk_frame e tagIDAT src z.length (o + (imageHead e.plat g).length) r (x := o + k) (by omega)
    have f3 := writeBytes_frame e iendBytes (o + (imageHead e.plat g).length + (z.length + 12)) u (x := o + k) (by omega)
    rw [h2] at f2
    rw [h3] at f3
    simp only [Access.port_done] at f2 f3
    rw [f3, f2, writeBytes_stands h1 hk ho]
  · rw [List.getElem?_append_right (by omega), ← List.append_assoc] at hk
    by_cases hb : k < (imageHead e.plat g).length + 8
    · rw [List.getElem?_append_left (by simp; omega)] at hk
      have := copyChunk_header h2 hk (by rwa [show o + (imageHead e.plat g).length + (k - (imageHead e.plat g).length)
        = o + k by omega])
      rw [show o + (imageHead e.plat g).length + (k - (imageHead e.plat g).length) = o + k by omega] at this
      have f3 := writeBytes_frame e iendBytes (o + (imageHead e.plat g).length + (z.length + 12)) u (x := o + k)
        (by omega)
      rw [h3] at f3
      rw [← this, ← f3, Access.port_done]
    · rw [List.getElem?_append_right (by simp; omega), List.getElem?_append_right (by simp; omega),
        List.getElem?_append_right (by simp; omega)] at hk
      simp only [List.length_append, be32_length, tag_length] at hk
      have := writeBytes_stands h3 hk (by rw [show o + (imageHead e.plat g).length + (z.length + 12)
        + (k - (imageHead e.plat g).length - (4 + 4) - z.length - 4) = o + k by omega]; exact ho)
      rwa [show o + (imageHead e.plat g).length + (z.length + 12)
        + (k - (imageHead e.plat g).length - (4 + 4) - z.length - 4) = o + k by omega] at this

/-- A payload byte of an image that was written to its end, where neither its scratch byte nor its place is open. -/
theorem writeImage_payload {e : Env} {g : ImgCfg} {src len o : Nat} {p q : Port}
    (h : writeImage e g src len o p = .done () q) {k : Nat} (hk : k < len) (h1 : e.isOpen (src + k) = false)
    (h2 : e.isOpen (o + payloadOffset g + k) = false) (hx : src + k < o ∨ o + imageLen g len ≤ src + k) :
    q.mem.byteAt (o + payloadOffset g + k) = p.mem.byteAt (src + k) := by
  rw [imageLen_eq e.plat] at hx
  rw [payloadOffset_eq e.plat, ← Nat.add_assoc] at *
  obtain ⟨r, c, u, hw1, hw2, hw3⟩ := writeImage_parts h
  have hc := copyChunk_payload hw2 hk h1 h2 (by omega)
  have f1 := writeBytes_frame e (imageHead e.plat g) o p (x := src + k) (by omega)
  have f3 := writeBytes_frame e iendBytes (o + (imageHead e.plat g).length + (len + 12)) u
    (x := o + (imageHead e.plat g).length + 8 + k) (by omega)
  rw [hw1] at f1
  rw [hw3] at f3
  simp only [Access.port_done] at f1 f3
  rw [Memory.byteAt, f3, ← Memory.byteAt, hc, Memory.byteAt, f1, Memory.byteAt]

end Sys2Proof.Machine
end

