-- ==== Sys2Proof/Laws/Fields.lean ====
section
/-! SUPPORT. The fields of CFG and CCFG as numbers, and the image configuration they give. -/

namespace Sys2Proof.Machine

theorem cfgWidth_eq (c : Word) : cfgWidth c = c.toNat % 1024 := by
  simp [cfgWidth, BitVec.extractLsb'_toNat]

theorem cfgDepth_eq (c : Word) : cfgDepth c = c.toNat / 65536 % 32 := by
  simp [cfgDepth, BitVec.extractLsb'_toNat, Nat.shiftRight_eq_div_pow]

/-- Bit `k` of a word as a number. -/
theorem getLsbD_eq (c : Word) (k : Nat) : c.getLsbD k = decide (c.toNat / 2 ^ k % 2 = 1) := by
  rw [← BitVec.testBit_toNat, Nat.testBit_eq_decide_div_mod_eq]

theorem cfgGrey_eq (c : Word) : cfgGrey c = decide (c.toNat / 16777216 % 2 = 1) := getLsbD_eq c 24

theorem cfgIdx_eq (c : Word) : cfgIdx c = decide (c.toNat / 33554432 % 2 = 1) := getLsbD_eq c 25

theorem ccfgLevel_eq (c : Word) : (ccfgLevel c).toNat = c.toNat % 16 := by
  simp [ccfgLevel, BitVec.extractLsb'_toNat]

theorem ccfgLdef_eq (c : Word) : ccfgLdef c = decide (c.toNat / 16 % 2 = 1) := getLsbD_eq c 4

theorem ccfgStrat_eq (c : Word) : (ccfgStrat c).toNat = c.toNat / 256 % 8 := by
  simp [ccfgStrat, BitVec.extractLsb'_toNat, Nat.shiftRight_eq_div_pow]

theorem ccfgStrato_eq (c : Word) : ccfgStrato c = decide (c.toNat / 2048 % 2 = 1) := getLsbD_eq c 11

theorem ccfgProv_eq (c : Word) : ccfgProv c = if c.toNat / 65536 % 2 = 1 then .b else .a := by
  simp only [ccfgProv, getLsbD_eq c 16, decide_eq_true_eq]
  rfl

/-- Where the image check passes, and what it gives: width, depth and the colour type. -/
theorem imgCfg_eq_some {c : Word} {g : ImgCfg} :
    imgCfg c = some g ↔
      (1 ≤ cfgWidth c ∧ cfgWidth c ≤ 512) ∧ cfgDepth c ∈ [1, 2, 4, 8, 16] ∧ colourType c = some g.ct
        ∧ g.width = cfgWidth c ∧ g.depth = cfgDepth c := by
  obtain ⟨w, d, ct⟩ := g
  have hct : colourType c = none ↔ (cfgGrey c && cfgIdx c) = true := by
    unfold colourType; cases cfgGrey c <;> cases cfgIdx c <;> simp
  unfold imgCfg
  cases hok : imgCfgOk c with
  | true =>
    simp only [imgCfgOk, widthMax, depths, Bool.and_eq_true, List.contains_iff_mem] at hok
    simp only [if_true, Option.map_eq_some_iff, ImgCfg.mk.injEq]
    constructor
    · rintro ⟨x, hx, rfl, rfl, rfl⟩
      exact ⟨of_decide_eq_true hok.1.1, hok.1.2, hx, rfl, rfl⟩
    · rintro ⟨-, -, hx, rfl, rfl⟩
      exact ⟨ct, hx, rfl, rfl, rfl⟩
  | false =>
    simp only [Bool.false_eq_true, if_false, reduceCtorEq, false_iff]
    rintro ⟨h1, h2, h3, -, -⟩
    have h4 : (cfgGrey c && cfgIdx c) = false := by
      rw [Bool.eq_false_iff, ne_eq, ← hct, h3]; simp
    rw [imgCfgOk, h4] at hok
    simp only [widthMax, depths, h1, and_self, decide_true, List.contains_iff_mem.2 h2, Bool.not_false,
      Bool.and_self, reduceCtorEq] at hok

theorem colourType_of_imgCfg {c : Word} {g : ImgCfg} (h : imgCfg c = some g) : colourType c = some g.ct :=
  (imgCfg_eq_some.1 h).2.2.1

end Sys2Proof.Machine
end

