-- ==== Sys2Proof/Laws/PerInstr.lean ====
section
/-! SUPPORT. A law of every command as syntax, one lemma for each constructor. -/

namespace Sys2Proof

/-- The command's word passes both checks of R101 and decodes to the command, from the word itself and from the
numbering of the opcode table (R102). -/
def Laws.Encoding.Statement (i : Instr) : Prop :=
  WellFormed.commandWord (encode i) = true ∧ decode (encode i) = .ok i ∧ decodeTableWord 32 (opcode i) = some i

theorem Laws.Encoding.crc : Laws.Encoding.Statement .crc := ⟨rfl, rfl, rfl⟩

theorem Laws.Encoding.emitSig : Laws.Encoding.Statement .emitSig := ⟨rfl, rfl, rfl⟩

theorem Laws.Encoding.emitChunk : Laws.Encoding.Statement .emitChunk := ⟨rfl, rfl, rfl⟩

theorem Laws.Encoding.emitIend : Laws.Encoding.Statement .emitIend := ⟨rfl, rfl, rfl⟩

theorem Laws.Encoding.emitIhdr : Laws.Encoding.Statement .emitIhdr := ⟨rfl, rfl, rfl⟩

theorem Laws.Encoding.emitPlte : Laws.Encoding.Statement .emitPlte := ⟨rfl, rfl, rfl⟩

theorem Laws.Encoding.emitTrns : Laws.Encoding.Statement .emitTrns := ⟨rfl, rfl, rfl⟩

theorem Laws.Encoding.emitIdat : Laws.Encoding.Statement .emitIdat := ⟨rfl, rfl, rfl⟩

theorem Laws.Encoding.size : Laws.Encoding.Statement .size := ⟨rfl, rfl, rfl⟩

theorem Laws.Encoding.compress : Laws.Encoding.Statement .compress := ⟨rfl, rfl, rfl⟩

theorem Laws.Encoding.build : Laws.Encoding.Statement .build := ⟨rfl, rfl, rfl⟩

end Sys2Proof
end

