-- ==== Sys2Proof/Tests/Slice0.lean ====
section
/-! SUPPORT. Tests of the model against the vectors of spec/95_test_vectors.md, and for every statement that has
hypotheses a concrete state that meets them. -/

namespace Sys2Proof.Tests

open Sys2Proof Sys2Proof.Machine

/-! ### Small states -/

/-- A PNGE whose memory port admits every access, with bounds of 16 and 20 bytes and levels 1 to 12 for provider B. -/
def plat : Platform where
  regPage := 16
  levelBMin := 1
  levelBSpan := 11
  boundA := ⟨[], 16⟩
  boundB := ⟨[], 20⟩
  refused := []
  plteEntry0 := decidedPlteEntry0
  trnsBytes := decidedTrnsBytes

/-- The state after reset of that PNGE, with the windows of spec/95_test_vectors.md section 2.2 and 2.4. -/
def start : State :=
  { State.reset with
    plat := plat, outBase := 0x1000#32, outCap := 0x100#32, scrBase := 0x3000#32, scrCap := 0x100#32,
    ccfg := 0x00000009#32, cfg := 0x00080001#32 }

/-- `start` with an access of one address refused. -/
def refusing (a : Nat) (d : Dir) : State := { start with plat := { plat with refused := [⟨a, 1, d⟩] } }

/-- `s` with bytes placed in memory from `a` on. -/
def place (s : State) (a : Nat) : List Byte → State
  | [] => s
  | b :: t => place { s with mem := s.mem.set a b } (a + 1) t

/-- The 12-byte payload of V-CMP-1. -/
def z12 : List Byte :=
  [0x78#8, 0xDA#8, 0x63#8, 0x60#8, 0x60#8, 0x60#8, 0x00#8, 0x00#8, 0x00#8, 0x04#8, 0x00#8, 0x01#8]

/-- `start` with the answer of V-CMP-1 to come. -/
def asked : State := { start with answers := [.ok z12] }

/-- `start` with the payload of V-CMP-1 held. -/
def holding : State :=
  place { start with idatLen := 12#32, status := { start.status with idatv := true } } 0x3000 z12

/-- `start` with the source window of V-SER-8. -/
def sourced : State :=
  place { start with type := 0x74455874#32, srcAddr := 0x2000#32, srcLen := 3#32 } 0x2000 [0x61#8, 0x00#8, 0x62#8]

/-- `start` with COMPRESS accepted and three more inputs to act before it completes. -/
def busy : State := { startCommand 0x0000000A#32 asked with busyLeft := 3 }

/-- The command completes in a state that passes the test. -/
def ends (i : Instr) (s : State) (p : State → Bool) : Bool :=
  match exec i s with
  | .next t => p t
  | .fault _ => false
  | .refused _ => false

/-- STATUS, OUT_POS and RESULT as words. -/
def regs (t : State) : Nat × Nat × Nat := ((statusWord t.status).toNat, t.outPos.toNat, t.result.toNat)

/-! ### Decoding: the words of R102, bit by bit -/

theorem test_decode_crc : decode 0b00000000000000000000000000000001#32 = .ok .crc := by decide

theorem test_decode_emitSig : decode 0b00000000000000000000000000000010#32 = .ok .emitSig := by decide

theorem test_decode_emitChunk : decode 0b00000000000000000000000000000011#32 = .ok .emitChunk := by decide

theorem test_decode_emitIend : decode 0b00000000000000000000000000000100#32 = .ok .emitIend := by decide

theorem test_decode_emitIhdr : decode 0b00000000000000000000000000000101#32 = .ok .emitIhdr := by decide

theorem test_decode_emitPlte : decode 0b00000000000000000000000000000110#32 = .ok .emitPlte := by decide

theorem test_decode_emitTrns : decode 0b00000000000000000000000000000111#32 = .ok .emitTrns := by decide

theorem test_decode_emitIdat : decode 0b00000000000000000000000000001000#32 = .ok .emitIdat := by decide

theorem test_decode_size : decode 0b00000000000000000000000000001001#32 = .ok .size := by decide

theorem test_decode_compress : decode 0b00000000000000000000000000001010#32 = .ok .compress := by decide

theorem test_decode_build : decode 0b00000000000000000000000000001011#32 = .ok .build := by decide

/-- V-ST-1 to V-ST-5. -/
theorem test_decode_illegal :
    decode 0x00000000#32 = .error .noSuchOpcode ∧ decode 0x0000000C#32 = .error .noSuchOpcode
      ∧ decode 0x000000FF#32 = .error .noSuchOpcode ∧ decode 0x00000101#32 = .error .mustBeZero
      ∧ decode 0x80000002#32 = .error .mustBeZero := by decide

/-- The check on MBZ refuses a word with a bit of [31:8] set. -/
theorem test_wellformed_mbz :
    WellFormed.mbzZero 0x00000101#32 = false ∧ WellFormed.opInTable 0x00000101#32 = true
      ∧ WellFormed.commandWord 0x00000101#32 = false := by decide

/-- The check on OP refuses 0x00 and 0x0C. -/
theorem test_wellformed_op :
    WellFormed.opInTable 0x00000000#32 = false ∧ WellFormed.opInTable 0x0000000C#32 = false
      ∧ WellFormed.commandWord 0x0000000B#32 = true := by decide

/-- V-RST-3: EMIT_SIG as the first command after reset ends with BOUNDS. -/
theorem test_first_command :
    ∃ t, step (State.reset.withFetchWord 32 2) = .next t ∧ statusWord t.status = 0x54#32 := ⟨_, rfl, by decide⟩

/-! ### The CRC function and CRC -/

/-- V-CRC-F6, V-CRC-F2, V-CRC-F1. -/
theorem test_crc32_values :
    crc32 [0x31#8, 0x32#8, 0x33#8, 0x34#8, 0x35#8, 0x36#8, 0x37#8, 0x38#8, 0x39#8] = 0xCBF43926#32
      ∧ crc32 [0x00#8] = 0xD202EF8D#32 ∧ crc32 [] = 0x00000000#32 := by decide +kernel

/-- V-CRC-3. -/
theorem test_crc : ends .crc sourced (fun t => regs t == (0x2, 0, 0xDC49A23B) && t.crc == 0xDC49A23B#32) = true := by
  decide +kernel

/-- V-CRC-6: the window that ends at the last address is in range. -/
theorem test_crc_top :
    ends .crc { start with srcAddr := 0xFFFFFFF0#32, srcLen := 0x10#32 } (fun t => t.status.done) = true := by
  decide +kernel

/-! ### The serializer -/

/-- V-SER-1. -/
theorem test_emitSig :
    ends .emitSig start (fun t => regs t == (0x2, 8, 8)
      && bytesAt t 0x1000 8 == [0x89#8, 0x50#8, 0x4E#8, 0x47#8, 0x0D#8, 0x0A#8, 0x1A#8, 0x0A#8]) = true := by
  decide +kernel

/-- V-SER-E5: the range that ends at the last address fits. -/
theorem test_emitSig_top :
    ends .emitSig { start with outBase := 0xFFFFFFF8#32, outCap := 16#32 }
      (fun t => regs t == (0x2, 8, 8) && t.peek 0xFFFFFFFF == 0x0A#8) = true := by decide +kernel

/-- V-SER-8. -/
theorem test_emitChunk :
    ends .emitChunk sourced (fun t => regs t == (0x2, 15, 15) && t.crc == 0xDC49A23B#32
      && bytesAt t 0x1000 15 == [0x00#8, 0x00#8, 0x00#8, 0x03#8, 0x74#8, 0x45#8, 0x58#8, 0x74#8, 0x61#8, 0x00#8,
        0x62#8, 0xDC#8, 0x49#8, 0xA2#8, 0x3B#8]) = true := by decide +kernel

/-- V-SER-E14: 0x1009 is refused; 0x1000 to 0x1008 have been written. -/
theorem test_emitChunk_refused :
    ends .emitChunk { sourced with plat := (refusing 0x1009 .write).plat } (fun t => regs t == (0x84, 0, 0)
      && bytesAt t 0x1000 9 == [0x00#8, 0x00#8, 0x00#8, 0x03#8, 0x74#8, 0x45#8, 0x58#8, 0x74#8, 0x61#8]
      && t.mem.get 0x1009 == none) = true := by decide +kernel

/-- V-SER-2. -/
theorem test_emitIend :
    ends .emitIend { start with outPos := 80#32, outCap := 92#32 } (fun t => regs t == (0x2, 92, 12)
      && t.crc == 0xAE426082#32 && bytesAt t 0x1058 4 == [0xAE#8, 0x42#8, 0x60#8, 0x82#8]) = true := by decide +kernel

/-- V-SER-E4. -/
theorem test_emitIend_bounds :
    ends .emitIend { start with outPos := 1#32, outCap := 12#32 }
      (fun t => regs t == (0x54, 1, 0) && t.mem == []) = true := by decide +kernel

/-- V-SER-5d: the largest width. -/
theorem test_emitIhdr :
    ends .emitIhdr { start with cfg := 0x00100200#32 } (fun t => regs t == (0x2, 25, 25)
      && bytesAt t 0x1008 17 == [0x00#8, 0x00#8, 0x02#8, 0x00#8, 0x00#8, 0x00#8, 0x02#8, 0x00#8, 0x10#8, 0x02#8,
        0x00#8, 0x00#8, 0x00#8, 0x2B#8, 0x8A#8, 0x9F#8, 0xEE#8]) = true := by decide +kernel

/-- V-SER-5b and V-SER-5c: greyscale and indexed. -/
theorem test_emitIhdr_colour :
    ends .emitIhdr { start with cfg := 0x01010003#32 } (fun t => t.crc == 0x7E538812#32) = true
      ∧ ends .emitIhdr { start with cfg := 0x02010003#32 } (fun t => t.crc == 0x6CE627FC#32) = true := by
  decide +kernel

/-- V-SER-6d. -/
theorem test_emitPlte :
    ends .emitPlte { start with cfg := 0#32 } (fun t => regs t == (0x2, 15, 15)
      && bytesAt t 0x1000 15 == [0x00#8, 0x00#8, 0x00#8, 0x03#8, 0x50#8, 0x4C#8, 0x54#8, 0x45#8, 0x00#8, 0x00#8,
        0x00#8, 0xA7#8, 0x7A#8, 0x3D#8, 0xDA#8]) = true := by decide +kernel

/-- V-SER-6a, V-SER-6b, V-SER-6c. -/
theorem test_emitTrns :
    ends .emitTrns { start with cfg := 0x00080001#32 } (fun t => t.result == 18#32 && t.crc == 0x6EA60791#32) = true
      ∧ ends .emitTrns { start with cfg := 0x01080010#32 } (fun t => t.result == 14#32 && t.crc == 0x7693CD38#32)
          = true
      ∧ ends .emitTrns { start with cfg := 0x02080002#32 } (fun t => t.result == 13#32 && t.crc == 0x40E6D866#32)
          = true := by decide +kernel

/-- V-SER-E10: width 0. -/
theorem test_emitTrns_width :
    ends .emitTrns { start with cfg := 0x00080000#32 } (fun t => regs t == (0x24, 0, 0)) = true := by decide +kernel

/-- R163, R166, U8: another palette entry and other transparency bytes are what the chunks carry. -/
theorem test_other_bytes :
    ends .emitPlte { start with plat := { plat with plteEntry0 := #v[0xFF#8, 0x80#8, 0x01#8] } }
        (fun t => bytesAt t 0x1004 7 == [0x50#8, 0x4C#8, 0x54#8, 0x45#8, 0xFF#8, 0x80#8, 0x01#8]) = true
      ∧ ends .emitTrns { start with
            cfg := 0x01080010#32,
            plat := { plat with trnsBytes := { decidedTrnsBytes with greyscale := #v[0x12#8, 0x34#8] } } }
          (fun t => bytesAt t 0x1003 7 == [0x02#8, 0x74#8, 0x52#8, 0x4E#8, 0x53#8, 0x12#8, 0x34#8]) = true := by
  decide +kernel

/-- V-SER-7. -/
theorem test_emitIdat :
    ends .emitIdat holding (fun t => regs t == (0x2, 24, 24) && t.crc == 0xC8EAEBF9#32 && t.idatLen == 12#32
      && bytesAt t 0x1000 24 == [0x00#8, 0x00#8, 0x00#8, 0x0C#8, 0x49#8, 0x44#8, 0x41#8, 0x54#8] ++ z12
        ++ [0xC8#8, 0xEA#8, 0xEB#8, 0xF9#8]) = true := by decide +kernel

/-- V-SER-E13: the payload is released on the error. -/
theorem test_emitIdat_bounds :
    ends .emitIdat { holding with outCap := 23#32 } (fun t => regs t == (0x54, 0, 0) && t.mem == holding.mem)
      = true := by decide +kernel

/-! ### The sizer -/

/-- V-SIZE-3, V-SIZE-4, V-SIZE-7, V-SIZE-16. -/
theorem test_size :
    ends .size { start with cfg := 0x01010003#32 } (fun t => regs t == (0x2, 0, 6)) = true
      ∧ ends .size { start with cfg := 0x02010003#32 } (fun t => regs t == (0x2, 0, 4)) = true
      ∧ ends .size { start with cfg := 0x00100200#32 } (fun t => regs t == (0x2, 0, 1573376)) = true
      ∧ ends .size { start with cfg := 0x00010009#32 } (fun t => regs t == (0x2, 0, 39)) = true := by decide +kernel

/-- V-SIZE-E2 and V-SIZE-E5: width 513 and depth 3. -/
theorem test_size_errors :
    ends .size { start with cfg := 0x00080201#32 } (fun t => regs t == (0x24, 0, 0)) = true
      ∧ ends .size { start with cfg := 0x00030004#32 } (fun t => regs t == (0x24, 0, 0)) = true := by decide +kernel

/-! ### Compression -/

/-- V-CMP-1: the request and its outcome. -/
theorem test_compress :
    ends .compress asked (fun t => regs t == (0x102, 0, 12) && t.idatLen == 12#32 && bytesAt t 0x3000 12 == z12
      && t.sent == [⟨.a, .explicit 9#4, none, 4⟩] && t.mem.get 0x3010 == none) = true := by decide +kernel

/-- V-CMP-20: 0x3004 is refused; V-CMP-13: the backend fails. -/
theorem test_compress_errors :
    ends .compress { asked with plat := (refusing 0x3004 .write).plat } (fun t => regs t == (0x84, 0, 0)
        && bytesAt t 0x3000 4 == [0x78#8, 0xDA#8, 0x63#8, 0x60#8] && t.mem.length == 4) = true
      ∧ ends .compress { start with answers := [.fail] } (fun t => regs t == (0x44, 0, 0) && t.mem == []) = true := by
  decide +kernel

/-- V-CMP-3, V-CMP-5, V-CMP-7, V-CMP-9, V-CMP-8: the check on CCFG. -/
theorem test_ccfg :
    cmpCfgOk plat 0x00000D09#32 = false ∧ cmpCfgOk plat 0x00000C09#32 = true ∧ cmpCfgOk plat 0x0000000A#32 = false
      ∧ cmpCfgOk plat 0x00010010#32 = false ∧ cmpCfgOk plat 0x00000011#32 = true := by decide

/-! ### Images -/

/-- V-BLD-3 and P6: the indexed image, exactly fitting its window; its first and last chunk and its payload. -/
theorem test_build :
    ends .build { start with
        cfg := 0x02080002#32, outCap := 96#32,
        answers := [.ok [0x78#8, 0xDA#8, 0x63#8, 0x60#8, 0x00#8, 0x01#8, 0x00#8, 0x00#8, 0x06#8, 0x00#8, 0x01#8]] }
      (fun t => regs t == (0x2, 96, 96) && t.idatLen == 11#32 && t.crc == 0xAE426082#32
        && bytesAt t 0x101C 8 == [0x00#8, 0x45#8, 0x68#8, 0xFD#8, 0x16#8, 0x00#8, 0x00#8, 0x00#8]
        && bytesAt t 0x1030 16 == [0x00#8, 0x00#8, 0x00#8, 0x01#8, 0x74#8, 0x52#8, 0x4E#8, 0x53#8, 0x00#8, 0x40#8,
          0xE6#8, 0xD8#8, 0x66#8, 0x00#8, 0x00#8, 0x00#8]
        && bytesAt t 0x1050 16 == [0x6D#8, 0x28#8, 0x10#8, 0x2F#8, 0x00#8, 0x00#8, 0x00#8, 0x00#8, 0x49#8, 0x45#8,
          0x4E#8, 0x44#8, 0xAE#8, 0x42#8, 0x60#8, 0x82#8]) = true := by decide +kernel

/-- V-BLD-5: BOUNDS after compression; the output window is untouched and the scratch window holds the payload. -/
theorem test_build_bounds :
    ends .build { asked with outCap := 86#32 } (fun t => regs t == (0x54, 0, 0) && bytesAt t 0x3000 12 == z12
      && t.mem.get 0x1000 == none && t.idatLen == 0#32) = true := by decide +kernel

/-! ### Registers -/

/-- V-ST-6, V-ST-7: what a write of STATUS clears. -/
theorem test_status_clear :
    statusWord (statusClear 0x4#32 ⟨false, false, true, false, .illegal, false⟩) = 0x0#32
      ∧ statusWord (statusClear 0x1#32 ⟨false, true, false, false, .noError, false⟩) = 0x2#32 := by decide

/-- V-ST-21, V-ST-22: reserved bits read 0. -/
theorem test_reserved_bits :
    readReg (writeReg .cfg 0xFFFFFFFF#32 start) .cfg = (0x031F03FF#32, 0)
      ∧ readReg (writeReg .ccfg 0xFFFFFFFF#32 start) .ccfg = (0x00010F1F#32, 0) := by decide

/-- V-ST-9, V-ST-10: a write while busy is dropped. -/
theorem test_busy_write :
    (writeReg .cfg 0#32 busy).cfg = 0x00080001#32 ∧ (writeReg .cfg 0#32 busy).status.ovr = true
      ∧ (writeReg .cmd 0x2#32 busy).pending = some 0x0000000A#32 := by decide

/-- V-ST-20: a byte write to the window is a bus error. -/
theorem test_bus_error :
    (performInput (.busWrite 0x1010 1 0#32) start).resp = .busError
      ∧ (performInput (.busRead 0x1000 4) start).resp = .data 0x504E4707#32 := by decide

/-- R107: WAIT polls on while BUSY is 1, and reads STATUS once otherwise; R281: in reset a word write is not accepted. -/
theorem test_wait :
    (performInput .waitIdle busy).inputs = [.waitIdle]
      ∧ (performInput .waitIdle start).resp = .data 0x0#32 ∧ (performInput .waitIdle start).inputs = []
      ∧ performInput (.busWrite 0x1010 4 0x7#32) { start with rst := true }
          = { start with rst := true, resp := .notAccepted } := by decide

/-! ### Witnesses: states that meet the hypotheses of the statements -/

theorem disjoint_of {b1 n1 b2 n2 : Nat} (h : b1 + n1 ≤ b2 ∨ b2 + n2 ≤ b1) : disjoint b1 n1 b2 n2 := by
  intro a ha
  omega

theorem memOk_refusing {s : State} {r a : Nat} {d : Dir} (hs : s.plat.refused = [⟨r, 1, d⟩]) (h : a < r ∨ r < a) :
    memOk s.plat a d = true := by
  simp [memOk, hs]
  omega

/-- With one access refused, a range is admitted that is of the other direction or does not hold its address. -/
theorem admits_refusing {s : State} {r base n : Nat} {d e : Dir} (hs : s.plat.refused = [⟨r, 1, d⟩])
    (h : e ≠ d ∨ r < base ∨ base + n ≤ r) : admits s base n e := by
  intro a h1 h2
  rcases h with h | h
  · simp [memOk, hs, Ne.symm h]
  · by_cases hd : e = d
    · subst hd; exact memOk_refusing hs (by omega)
    · simp [memOk, hs, Ne.symm hd]

/-- The configuration of `start`. -/
def g1 : ImgCfg := ⟨1, 8, .truecolour⟩

theorem witness_IllegalWordsComplete :
    (startCommand 0x00000101#32 start).rst = false ∧ (startCommand 0x00000101#32 start).pending = some 0x00000101#32
      ∧ (startCommand 0x00000101#32 start).busyLeft = 0 ∧ ∀ i, decode 0x00000101#32 ≠ .ok i :=
  ⟨rfl, rfl, rfl, by intro i; cases i <;> decide⟩

theorem witness_StepRunsThePendingCommand :
    (startCommand 0x9#32 start).rst = false ∧ (startCommand 0x9#32 start).pending = some 0x9#32
      ∧ decode 0x9#32 = .ok .size ∧ (startCommand 0x9#32 start).busyLeft = 0
      ∧ busy.rst = false ∧ busy.pending = some 0xA#32 ∧ decode 0xA#32 = .ok .compress ∧ busy.inputs = [] := by decide

theorem witness_StepLetsTheOutsideAct :
    { start with rst := true, inputs := [.waitIdle] }.rst = true
      ∧ { start with inputs := [.waitIdle] }.pending = none ∧ start.inputs = []
      ∧ { busy with inputs := [.waitIdle] }.busyLeft ≠ 0 ∧ { busy with inputs := [.waitIdle] }.inputs ≠ [] := by decide

theorem witness_AcceptedCommandFinishes :
    busy.rst = false ∧ busy.pending = some 0xA#32 ∧ busy.status.busy = true ∧ busy.status.done = false
      ∧ busy.status.err = false ∧ Input.assertReset ∉ busy.inputs := by decide

theorem witness_ResetInputResets :
    start.pending = none ∧ (startCommand (encode .build) start).pending = some (encode .build)
      ∧ 0x1000 + outRangeLen (startCommand (encode .build) start) .build = 0x105B ∧ 0x105B < 0x3000
      ∧ 0x3000 + scrRangeLen (startCommand (encode .build) start) .build = 0x3010 := by decide

theorem witness_RegisterWriteReadsBack :
    start.status.busy = false
      ∧ (Reg.scrCap, 0xFFFFFFFF#32) ∈ [(Reg.ctrl, 0x00000003#32), (.cfg, 0x031F03FF#32), (.ccfg, 0x00010F1F#32),
        (.type, 0xFFFFFFFF#32), (.srcAddr, 0xFFFFFFFF#32), (.srcLen, 0xFFFFFFFF#32), (.outBase, 0xFFFFFFFF#32),
        (.outCap, 0xFFFFFFFF#32), (.outPos, 0xFFFFFFFF#32), (.scrBase, 0xFFFFFFFF#32), (.scrCap, 0xFFFFFFFF#32)] := by
  decide

theorem witness_BusReachesEveryRegister :
    start.rst = false ∧ { start with rst := true }.rst = true ∧ 0xFC ≤ 0xFC ∧ 0xFC % 4 = 0 := by decide

/-- A byte access inside, the last byte of the window, a misaligned word, and one that reaches in from below. -/
theorem witness_BusErrorsChangeNothing :
    regBase start.plat = 0x1000
      ∧ ∀ x ∈ [(0x1010, 1), (0x10FF, 1), (0x1002, 4), (0x0FFF, 4)],
        0 < x.2 ∧ x.1 < 0x1000 + 256 ∧ 0x1000 < x.1 + x.2 ∧ (x.2 ≠ 4 ∨ x.1 % 4 ≠ 0) := by decide

theorem witness_ReservedOffsetsReadZero :
    ∀ k ∈ [0x44, 0xFC], 0x44 ≤ k ∧ k ≤ 0xFC ∧ k % 4 = 0 := by decide

theorem busy_inv : StateInv busy := by constructor <;> decide

theorem witness_StatusWriteClears :
    StateInv busy ∧ busy.status.busy = true ∧ start.status.busy = false ∧ 9 ≤ 9 := ⟨busy_inv, rfl, rfl, le_rfl⟩

theorem witness_CommandWordsAreAccepted :
    start.status.busy = false ∧ start.rst = false ∧ (∀ i, decode 0x0000000C#32 ≠ .ok i) ∧ busy.status.busy = true :=
  ⟨rfl, rfl, by intro i; cases i <;> decide, rfl⟩

theorem witness_BusyWritesAreDropped : busy.status.busy = true ∧ (0x44 ≤ 0xFC ∧ 0xFC ≤ 0xFC) := by decide

theorem witness_BusyReadsOfStableRegisters :
    busy.status.busy = true ∧ Reg.cfg ≠ .outPos ∧ Reg.cfg ≠ .idatLen ∧ Reg.cfg ≠ .result ∧ Reg.cfg ≠ .crc
      ∧ Reg.cfg ≠ .status := by decide

theorem witness_InterruptFollowsStatus : start.status.busy = false := by decide

/-- The addresses just below and just past the output window, and just past the scratch window. -/
theorem witness_HostReachesMemory :
    start.pending = none ∧ start.rst = false ∧ { start with rst := true }.rst = true
      ∧ ∀ k ∈ [0x0FFF, 0x1100, 0x3100],
        ((BitVec.ofNat 32 k).toNat < busy.outBase.toNat
            ∨ busy.outBase.toNat + busy.outCap.toNat ≤ (BitVec.ofNat 32 k).toNat)
          ∧ ((BitVec.ofNat 32 k).toNat < busy.scrBase.toNat
            ∨ busy.scrBase.toNat + max busy.scrCap.toNat busy.idatLen.toNat ≤ (BitVec.ofNat 32 k).toNat) := by decide

theorem witness_StepKeepsInv : ∃ t, StateInv busy ∧ step busy = .next t := ⟨_, busy_inv, rfl⟩

theorem witness_CompletionSetsOneOutcome :
    start.status.busy = false ∧ (∃ t, exec .size (writeReg .cmd (encode .size) start) = .next t ∧ t.status.done = true)
      ∧ ∃ t, exec .size (writeReg .cmd (encode .size) State.reset) = .next t ∧ t.status.err = true :=
  ⟨rfl, ⟨_, rfl, rfl⟩, _, rfl, rfl⟩

theorem witness_ErrorsArePrecise :
    ∃ t, State.reset.status.err = false ∧ exec .size State.reset = .next t ∧ t.status.err = true := ⟨_, rfl, rfl, rfl⟩

theorem witness_ErrorsOfEachCommand :
    ∃ t, State.reset.status.err = false ∧ exec .emitSig State.reset = .next t ∧ t.status.err = true :=
  ⟨_, rfl, rfl, rfl⟩

theorem witness_CommandsKeepHostRegisters : ∃ t, exec .emitSig start = .next t ∧ t.outPos = 8#32 := ⟨_, rfl, rfl⟩

theorem witness_PayloadOwnership :
    (asked.status.done = false ∧ asked.status.err = false ∧ ∃ t, exec .compress asked = .next t ∧ t.status.idatv = true)
      ∧ (∃ t, exec .emitIdat { holding with idatLen := 0#32 } = .next t ∧ t.status.idatv = false)
      ∧ ∃ t, exec .size { holding with cfg := 0#32 } = .next t ∧ t.status.err = true ∧ t.status.idatv = false :=
  ⟨⟨rfl, rfl, _, rfl, rfl⟩, ⟨_, rfl, rfl⟩, _, rfl, rfl, rfl⟩

theorem witness_OutPosMovesOnlyOnSuccess :
    start.status.err = false ∧ (∃ t, exec .emitSig start = .next t ∧ t.status.err = false)
      ∧ (∃ t, exec .size start = .next t ∧ t.status.err = false)
      ∧ ∃ t, exec .emitSig { start with outCap := 7#32 } = .next t ∧ t.status.err = true :=
  ⟨rfl, ⟨_, rfl, rfl⟩, ⟨_, rfl, rfl⟩, _, rfl, rfl⟩

/-- The addresses just below and just past the output range of EMIT_SIG. -/
theorem witness_CommandsWriteOnlyTheirRanges :
    (∃ t, exec .emitSig start = .next t)
      ∧ ∀ a ∈ [0x0FFF, 0x1008],
        (a < start.outBase.toNat + start.outPos.toNat
            ∨ start.outBase.toNat + start.outPos.toNat + outRangeLen start .emitSig ≤ a)
          ∧ (a < start.scrBase.toNat ∨ start.scrBase.toNat + scrRangeLen start .emitSig ≤ a) :=
  ⟨⟨_, rfl⟩, by decide⟩

theorem witness_EarlyErrorsLeaveMemory :
    (∃ t, exec .size State.reset = .next t ∧ t.status.err = true ∧ t.status.ecode = .cfgInvalid)
      ∧ ∃ t, exec .emitSig State.reset = .next t ∧ t.status.err = true ∧ t.status.ecode = .bounds :=
  ⟨⟨_, rfl, rfl, rfl⟩, _, rfl, rfl, rfl⟩

/-- A window inside, the window that ends at the last address, and the empty window. -/
theorem witness_CrcCommandResult :
    (∀ s ∈ [sourced, { start with srcAddr := 0xFFFFFFF0#32, srcLen := 0x10#32 }, start],
        s.srcLen.toNat = 0 ∨ s.srcAddr.toNat + s.srcLen.toNat ≤ addrLimit)
      ∧ admits sourced sourced.srcAddr.toNat sourced.srcLen.toNat .read
      ∧ unraced sourced sourced.srcAddr.toNat sourced.srcLen.toNat :=
  ⟨by decide, fun _ _ _ => rfl, fun _ _ _ => List.not_mem_nil⟩

theorem witness_CrcCommandErrors :
    (0 < { start with srcAddr := 0xFFFFFFFF#32, srcLen := 2#32 }.srcLen.toNat
        ∧ addrLimit < { start with srcAddr := 0xFFFFFFFF#32, srcLen := 2#32 }.srcAddr.toNat
          + { start with srcAddr := 0xFFFFFFFF#32, srcLen := 2#32 }.srcLen.toNat)
      ∧ sourced.srcAddr.toNat ≤ 0x2002 ∧ 0x2002 < sourced.srcAddr.toNat + sourced.srcLen.toNat
      ∧ sourced.srcAddr.toNat + sourced.srcLen.toNat ≤ addrLimit
      ∧ memOk { sourced with plat := (refusing 0x2002 .read).plat }.plat 0x2002 .read = false := by decide

/-- The window of `start`, and a window that ends at the last address and is full. -/
theorem witness_EmitSigWritesTheSignature :
    (outFits start 8 ∧ admits start (start.outBase.toNat + start.outPos.toNat) 8 .write)
      ∧ outFits { start with outBase := 0xFFFFFFF8#32, outCap := 8#32 } 8 :=
  ⟨⟨by unfold outFits; decide, fun _ _ _ => rfl⟩, by unfold outFits; decide⟩

theorem witness_EmitIendWritesTheConstant :
    outFits start 12 ∧ admits start (start.outBase.toNat + start.outPos.toNat) 12 .write :=
  ⟨by unfold outFits; decide, fun _ _ _ => rfl⟩

theorem witness_EmitIhdrWritesTheHeader :
    imgCfg start.cfg = some g1 ∧ outFits start 25
      ∧ admits start (start.outBase.toNat + start.outPos.toNat) 25 .write :=
  ⟨by decide, by unfold outFits; decide, fun _ _ _ => rfl⟩

theorem witness_EmitPlteWritesThePalette :
    outFits start 15 ∧ admits start (start.outBase.toNat + start.outPos.toNat) 15 .write
      ∧ start.plat.plteEntry0.toList = [0x00#8, 0x00#8, 0x00#8] :=
  ⟨by unfold outFits; decide, fun _ _ _ => rfl, rfl⟩

/-- One configuration for each colour type, with the decided bytes. -/
theorem witness_EmitTrnsWritesTheTransparency :
    (imgCfg 0x00080001#32 = some ⟨1, 8, .truecolour⟩ ∧ imgCfg 0x01080010#32 = some ⟨16, 8, .greyscale⟩
        ∧ imgCfg 0x02080002#32 = some ⟨2, 8, .indexed⟩)
      ∧ (g1.ct, 6, List.replicate 6 0x00#8, 0x6EA60791#32)
          ∈ [(ColourType.truecolour, 6, start.plat.trnsBytes.truecolour.toList, 0x6EA60791#32),
            (.greyscale, 2, start.plat.trnsBytes.greyscale.toList, 0x7693CD38#32),
            (.indexed, 1, start.plat.trnsBytes.indexed.toList, 0x40E6D866#32)]
      ∧ outFits start (6 + 12) ∧ admits start (start.outBase.toNat + start.outPos.toNat) (6 + 12) .write :=
  ⟨by decide, by decide, by unfold outFits; decide, fun _ _ _ => rfl⟩

theorem witness_FixedCommandsCheckTheWindow :
    fixedBytes start .emitSig = some signature
      ∧ { start with outCap := 7#32 }.outCap.toNat < { start with outCap := 7#32 }.outPos.toNat + signature.length
      ∧ { start with outBase := 0xFFFFFFF9#32 }.outPos.toNat + signature.length ≤ start.outCap.toNat
      ∧ addrLimit < { start with outBase := 0xFFFFFFF9#32 }.outBase.toNat + start.outPos.toNat + signature.length := by
  decide

/-- The first byte refused, and the last one. -/
theorem witness_FixedCommandsStopAtARefusedByte :
    ∀ k ∈ [0, 7],
      fixedBytes (refusing (0x1000 + k) .write) .emitSig = some signature
        ∧ outFits (refusing (0x1000 + k) .write) signature.length ∧ k < signature.length
        ∧ admits (refusing (0x1000 + k) .write) 0x1000 k .write
        ∧ memOk (refusing (0x1000 + k) .write).plat (0x1000 + k) .write = false := by
  intro k hk
  simp only [List.mem_cons, List.not_mem_nil, or_false] at hk
  rcases hk with rfl | rfl
  · exact ⟨rfl, by unfold outFits; decide, by decide, fun _ h1 h2 => memOk_refusing rfl (by omega), by decide⟩
  · exact ⟨rfl, by unfold outFits; decide, by decide, fun _ h1 h2 => memOk_refusing rfl (by omega), by decide⟩

theorem witness_ImageConfigurationFields : imgCfg { start with cfg := 0x03080004#32 }.cfg = none := by decide

theorem witness_EmitChunkWritesTheChunk :
    validTag sourced.type = true ∧ sourced.srcAddr.toNat + sourced.srcLen.toNat ≤ addrLimit
      ∧ outFits sourced (sourced.srcLen.toNat + 12) ∧ admits sourced sourced.srcAddr.toNat sourced.srcLen.toNat .read
      ∧ admits sourced (sourced.outBase.toNat + sourced.outPos.toNat) (sourced.srcLen.toNat + 12) .write
      ∧ disjoint sourced.srcAddr.toNat sourced.srcLen.toNat (sourced.outBase.toNat + sourced.outPos.toNat)
          (sourced.srcLen.toNat + 12)
      ∧ unraced sourced sourced.srcAddr.toNat sourced.srcLen.toNat :=
  ⟨by decide, by decide, by unfold outFits; decide, fun _ _ _ => rfl, fun _ _ _ => rfl, disjoint_of (by decide),
    fun _ _ _ => List.not_mem_nil⟩

/-- A source window from 0x0FF0 to 0x100F, which reaches into the output range from 0x1000 to 0x102B. -/
def overlapping : State := { start with type := 0x74455874#32, srcAddr := 0x0FF0#32, srcLen := 0x20#32 }

/-- The chunk of `overlapping`. -/
def overlapped : Copied := ⟨0x74455874#32, 0x0FF0, 0x20⟩

/-- A scratch window from 0x0FF0 on, with a payload of 0x20 bytes that reaches into the output range. -/
def overlappingIdat : State :=
  { start with scrBase := 0x0FF0#32, idatLen := 0x20#32, status := { start.status with idatv := true } }

/-- The payload byte 8 lies outside the overlap at both ends; with a scratch window just past the tag of the chunk every
length and tag byte does. -/
theorem witness_CopiedChunkUnderOverlap :
    copied overlapping .emitChunk = some overlapped ∧ copied overlappingIdat .emitIdat = some ⟨tagIDAT, 0x0FF0, 0x20⟩
      ∧ overlapped.src + overlapped.len ≤ addrLimit ∧ outFits overlapping (overlapped.len + 12)
      ∧ admits overlapping overlapped.src overlapped.len .read
      ∧ admits overlapping (overlapping.outBase.toNat + overlapping.outPos.toNat) (overlapped.len + 12) .write
      ∧ 8 < overlapped.len ∧ overlapped.src + 8 ∉ overlapping.raced ∧ 0x1000 + 8 + 8 ∉ overlapping.raced
      ∧ overlapped.src + 8 < overlapping.outBase.toNat + overlapping.outPos.toNat
      ∧ overlapped.src + overlapped.len ≤ overlapping.outBase.toNat + overlapping.outPos.toNat + 8 + 8
      ∧ copied { overlappingIdat with scrBase := 0x1008#32 } .emitIdat = some ⟨tagIDAT, 0x1008, 0x20⟩
      ∧ (be32 (BitVec.ofNat 32 0x20) ++ tag tagIDAT)[7]? = some 0x54#8 ∧ 0x1000 + 7 < 0x1008 :=
  ⟨by decide, by decide, by decide, by unfold outFits; decide, fun _ _ _ => rfl, fun _ _ _ => rfl, by decide,
    List.not_mem_nil, List.not_mem_nil, by decide, by decide, by decide, by decide, by decide⟩

theorem witness_CopiedChunkChecksInOrder :
    validTag 0x41424344#32 = false
      ∧ (validTag sourced.type = true ∧ 0 < sourced.srcLen.toNat
          ∧ addrLimit < { sourced with srcAddr := 0xFFFFFFFE#32 }.srcAddr.toNat + sourced.srcLen.toNat)
      ∧ { sourced with outCap := 14#32 }.outCap.toNat < sourced.outPos.toNat + (sourced.srcLen.toNat + 12)
      ∧ (sourced.outPos.toNat + (sourced.srcLen.toNat + 12) ≤ sourced.outCap.toNat
          ∧ addrLimit < { sourced with outBase := 0xFFFFFFF2#32 }.outBase.toNat + sourced.outPos.toNat
            + (sourced.srcLen.toNat + 12))
      ∧ start.status.idatv = false
      ∧ (holding.status.idatv = true ∧ 0 < holding.idatLen.toNat
          ∧ addrLimit < { holding with scrBase := 0xFFFFFFF5#32 }.scrBase.toNat + holding.idatLen.toNat)
      ∧ { holding with outCap := 23#32 }.outCap.toNat < holding.outPos.toNat + (holding.idatLen.toNat + 12)
      ∧ (holding.outPos.toNat + (holding.idatLen.toNat + 12) ≤ holding.outCap.toNat
          ∧ addrLimit < { holding with outBase := 0xFFFFFFE9#32 }.outBase.toNat + holding.outPos.toNat
            + (holding.idatLen.toNat + 12)) := by decide

/-- `sourced` and `holding` with one access refused. -/
def halted (s : State) (a : Nat) (d : Dir) : State := { s with plat := (refusing a d).plat }

/-- The chunks of `sourced` and `holding`. -/
def text : Copied := ⟨0x74455874#32, 0x2000, 3⟩
def idat : Copied := ⟨tagIDAT, 0x3000, 12⟩

/-- EMIT_CHUNK with its second payload byte refused, at the write and at the read; EMIT_IDAT with its first byte, its
last byte and the read of its last payload byte refused. -/
theorem witness_CopiedChunkStopsAtARefusedByte :
    ∀ x ∈ [(Instr.emitChunk, halted sourced 0x1009 .write, text, 9), (.emitChunk, halted sourced 0x2001 .read, text, 9),
        (.emitIdat, halted holding 0x1000 .write, idat, 0), (.emitIdat, halted holding 0x1017 .write, idat, 23),
        (.emitIdat, halted holding 0x300B .read, idat, 19)],
      copied x.2.1 x.1 = some x.2.2.1 ∧ x.2.2.1.src + x.2.2.1.len ≤ addrLimit ∧ outFits x.2.1 (x.2.2.1.len + 12)
        ∧ disjoint x.2.2.1.src x.2.2.1.len (x.2.1.outBase.toNat + x.2.1.outPos.toNat) (x.2.2.1.len + 12)
        ∧ unraced x.2.1 x.2.2.1.src x.2.2.1.len ∧ x.2.2.2 < x.2.2.1.len + 12
        ∧ admits x.2.1 (x.2.1.outBase.toNat + x.2.1.outPos.toNat) x.2.2.2 .write
        ∧ admits x.2.1 x.2.2.1.src (min x.2.2.1.len (x.2.2.2 - 8)) .read
        ∧ (memOk x.2.1.plat (x.2.1.outBase.toNat + x.2.1.outPos.toNat + x.2.2.2) .write = false
          ∨ 8 ≤ x.2.2.2 ∧ x.2.2.2 < 8 + x.2.2.1.len
            ∧ memOk x.2.1.plat (x.2.2.1.src + (x.2.2.2 - 8)) .read = false) := by
  intro x hx
  simp only [List.mem_cons, List.not_mem_nil, or_false] at hx
  rcases hx with rfl | rfl | rfl | rfl | rfl <;>
    exact ⟨by decide, by decide, by unfold outFits; decide, disjoint_of (by decide), fun _ _ _ => List.not_mem_nil,
      by decide, admits_refusing rfl (by decide), admits_refusing rfl (by decide), by decide⟩

theorem witness_EmitIdatWritesThePayload :
    holding.status.idatv = true ∧ holding.scrBase.toNat + holding.idatLen.toNat ≤ addrLimit
      ∧ outFits holding (holding.idatLen.toNat + 12) ∧ admits holding holding.scrBase.toNat holding.idatLen.toNat .read
      ∧ admits holding (holding.outBase.toNat + holding.outPos.toNat) (holding.idatLen.toNat + 12) .write
      ∧ disjoint holding.scrBase.toNat holding.idatLen.toNat (holding.outBase.toNat + holding.outPos.toNat)
          (holding.idatLen.toNat + 12)
      ∧ unraced holding holding.scrBase.toNat holding.idatLen.toNat :=
  ⟨by decide, by decide, by unfold outFits; decide, fun _ _ _ => rfl, fun _ _ _ => rfl, disjoint_of (by decide),
    fun _ _ _ => List.not_mem_nil⟩

/-- One configuration for each colour type. -/
theorem witness_SizeResult :
    imgCfg 0x00080001#32 = some g1 ∧ imgCfg 0x01010003#32 = some ⟨3, 1, .greyscale⟩
      ∧ imgCfg 0x02010003#32 = some ⟨3, 1, .indexed⟩ := by decide

/-- The largest configuration and the smallest. -/
theorem witness_PixelSizeBounds :
    imgCfg 0x00100200#32 = some ⟨512, 16, .truecolour⟩ ∧ imgCfg 0x00010001#32 = some ⟨1, 1, .truecolour⟩ := by decide

theorem witness_CompressionConfiguration : cmpCfgOk start.plat { start with ccfg := 0#32 }.ccfg = false := by decide

/-- Provider A with the default level, provider A with an explicit strategy, provider B. -/
theorem witness_RequestCarriesTheConfiguration :
    cmpCfgOk plat 0x00000010#32 = true ∧ cmpCfgOk plat 0x00000C09#32 = true ∧ cmpCfgOk plat 0x0001000C#32 = true
      ∧ (request g1 0x00000C09#32).level = .explicit 9#4 := by decide

theorem witness_CompressHoldsThePayload :
    imgCfg asked.cfg = some g1 ∧ cmpCfgOk asked.plat asked.ccfg = true
      ∧ bound asked.plat (ccfgProv asked.ccfg) (pixSize g1) ≤ asked.scrCap.toNat
      ∧ asked.scrBase.toNat + bound asked.plat (ccfgProv asked.ccfg) (pixSize g1) ≤ addrLimit
      ∧ asked.answers = [.ok z12] ∧ z12 ≠ [] ∧ z12.length ≤ bound asked.plat (ccfgProv asked.ccfg) (pixSize g1)
      ∧ admits asked asked.scrBase.toNat z12.length .write :=
  ⟨by decide, by decide, by decide, by decide, rfl, by decide, by decide, fun _ _ _ => rfl⟩

theorem witness_CompressionErrors :
    imgCfg start.cfg = some g1 ∧ cmpCfgOk start.plat start.ccfg = true
      ∧ bound start.plat (ccfgProv start.ccfg) (pixSize g1) = 16
      ∧ { start with scrCap := 15#32 }.scrCap.toNat < 16
      ∧ (16 ≤ start.scrCap.toNat ∧ addrLimit < { start with scrBase := 0xFFFFFFF1#32 }.scrBase.toNat + 16)
      ∧ start.scrBase.toNat + 16 ≤ addrLimit ∧ { start with answers := [.fail] }.answers = [.fail]
      ∧ { start with answers := [.ok []] }.answers = [.ok []] := by decide

/-- `asked` with the write of 0x3004 refused. -/
def spilled : State := { asked with plat := (refusing 0x3004 .write).plat }

theorem witness_CompressionStopsAtARefusedByte :
    imgCfg spilled.cfg = some g1 ∧ cmpCfgOk spilled.plat spilled.ccfg = true
      ∧ bound spilled.plat (ccfgProv spilled.ccfg) (pixSize g1) ≤ spilled.scrCap.toNat
      ∧ spilled.scrBase.toNat + bound spilled.plat (ccfgProv spilled.ccfg) (pixSize g1) ≤ addrLimit
      ∧ spilled.answers = [.ok z12] ∧ z12.length ≤ bound spilled.plat (ccfgProv spilled.ccfg) (pixSize g1)
      ∧ 4 < z12.length ∧ admits spilled 0x3000 4 .write ∧ memOk spilled.plat (0x3000 + 4) .write = false :=
  ⟨by decide, by decide, by decide, by decide, rfl, by decide, by decide,
    fun _ h1 h2 => memOk_refusing rfl (by omega), by decide⟩

/-- A response one byte longer than the bound. -/
theorem witness_OverrunStopsCompression :
    imgCfg start.cfg = some g1 ∧ cmpCfgOk start.plat start.ccfg = true
      ∧ bound start.plat (ccfgProv start.ccfg) (pixSize g1) ≤ start.scrCap.toNat
      ∧ start.scrBase.toNat + bound start.plat (ccfgProv start.ccfg) (pixSize g1) ≤ addrLimit
      ∧ bound start.plat (ccfgProv start.ccfg) (pixSize g1) < (zeros 17).length
      ∧ { start with answers := [.ok (zeros 17)] }.answers = [.ok (zeros 17)] := by decide

theorem witness_PayloadInflatesToTheBlankBuffer :
    imgCfg asked.cfg = some g1 ∧ asked.answers = [.ok z12]
      ∧ answerAdmissible (fun _ _ => some (zeros 4)) asked.plat (request g1 asked.ccfg) (.ok z12)
      ∧ unraced asked asked.scrBase.toNat z12.length ∧ asked.status.err = false
      ∧ ∃ t, exec .compress asked = .next t ∧ t.status.err = false :=
  ⟨by decide, rfl, ⟨by decide, fun _ => rfl⟩, fun _ _ _ => List.not_mem_nil, rfl, _, rfl, rfl⟩

/-- `asked` with an output window that the 87-byte image fills exactly. -/
def fitting : State := { asked with outCap := 87#32 }

theorem witness_BuildWritesTheImage :
    imgCfg fitting.cfg = some g1 ∧ cmpCfgOk fitting.plat fitting.ccfg = true
      ∧ bound fitting.plat (ccfgProv fitting.ccfg) (pixSize g1) ≤ fitting.scrCap.toNat
      ∧ fitting.scrBase.toNat + bound fitting.plat (ccfgProv fitting.ccfg) (pixSize g1) ≤ addrLimit
      ∧ fitting.answers = [.ok z12] ∧ z12 ≠ [] ∧ z12.length ≤ bound fitting.plat (ccfgProv fitting.ccfg) (pixSize g1)
      ∧ outFits fitting (imageLen g1 z12.length) ∧ admits fitting fitting.scrBase.toNat z12.length .write
      ∧ admits fitting fitting.scrBase.toNat z12.length .read
      ∧ admits fitting (fitting.outBase.toNat + fitting.outPos.toNat) (imageLen g1 z12.length) .write
      ∧ disjoint fitting.scrBase.toNat fitting.scrCap.toNat (fitting.outBase.toNat + fitting.outPos.toNat)
          (imageLen g1 z12.length)
      ∧ unraced fitting fitting.scrBase.toNat z12.length :=
  ⟨by decide, by decide, by decide, by decide, rfl, by decide, by decide, by unfold outFits; decide, fun _ _ _ => rfl,
    fun _ _ _ => rfl, fun _ _ _ => rfl, disjoint_of (by decide), fun _ _ _ => List.not_mem_nil⟩

/-- A window one byte too small, and one that passes the last address by one byte. -/
theorem witness_BuildChecksTheWindowOnce :
    ∀ x ∈ [({ asked with outCap := 86#32 }, ErrCode.bounds), ({ asked with outBase := 0xFFFFFFAA#32 }, ErrCode.addr)],
      imgCfg x.1.cfg = some g1 ∧ cmpCfgOk x.1.plat x.1.ccfg = true
        ∧ bound x.1.plat (ccfgProv x.1.ccfg) (pixSize g1) ≤ x.1.scrCap.toNat
        ∧ x.1.scrBase.toNat + bound x.1.plat (ccfgProv x.1.ccfg) (pixSize g1) ≤ addrLimit
        ∧ x.1.answers = [.ok z12] ∧ z12 ≠ [] ∧ z12.length ≤ bound x.1.plat (ccfgProv x.1.ccfg) (pixSize g1)
        ∧ admits x.1 x.1.scrBase.toNat z12.length .write
        ∧ (x.1.outCap.toNat < x.1.outPos.toNat + imageLen g1 z12.length ∧ x.2 = .bounds
          ∨ x.1.outPos.toNat + imageLen g1 z12.length ≤ x.1.outCap.toNat
            ∧ addrLimit < x.1.outBase.toNat + x.1.outPos.toNat + imageLen g1 z12.length ∧ x.2 = .addr) := by
  intro x hx
  simp only [List.mem_cons, List.not_mem_nil, or_false] at hx
  rcases hx with rfl | rfl <;>
    exact ⟨by decide, by decide, by decide, by decide, rfl, by decide, by decide, fun _ _ _ => rfl, by decide⟩

/-- The first byte of the image, the last one, and the read-back of the last payload byte refused. -/
theorem witness_BuildStopsAtARefusedByte :
    ∀ x ∈ [(halted fitting 0x1000 .write, 0), (halted fitting 0x1056 .write, 86), (halted fitting 0x300B .read, 70)],
      imgCfg x.1.cfg = some g1 ∧ cmpCfgOk x.1.plat x.1.ccfg = true
        ∧ bound x.1.plat (ccfgProv x.1.ccfg) (pixSize g1) ≤ x.1.scrCap.toNat
        ∧ x.1.scrBase.toNat + bound x.1.plat (ccfgProv x.1.ccfg) (pixSize g1) ≤ addrLimit
        ∧ x.1.answers = [.ok z12] ∧ z12 ≠ [] ∧ z12.length ≤ bound x.1.plat (ccfgProv x.1.ccfg) (pixSize g1)
        ∧ outFits x.1 (imageLen g1 z12.length) ∧ admits x.1 x.1.scrBase.toNat z12.length .write
        ∧ disjoint x.1.scrBase.toNat x.1.scrCap.toNat (x.1.outBase.toNat + x.1.outPos.toNat)
            (imageLen g1 z12.length)
        ∧ unraced x.1 x.1.scrBase.toNat z12.length ∧ x.2 < imageLen g1 z12.length
        ∧ admits x.1 (x.1.outBase.toNat + x.1.outPos.toNat) x.2 .write
        ∧ admits x.1 x.1.scrBase.toNat (min z12.length (x.2 - payloadOffset g1)) .read
        ∧ (memOk x.1.plat (x.1.outBase.toNat + x.1.outPos.toNat + x.2) .write = false
          ∨ payloadOffset g1 ≤ x.2 ∧ x.2 < payloadOffset g1 + z12.length
            ∧ memOk x.1.plat (x.1.scrBase.toNat + (x.2 - payloadOffset g1)) .read = false) := by
  intro x hx
  simp only [List.mem_cons, List.not_mem_nil, or_false] at hx
  rcases hx with rfl | rfl | rfl <;>
    exact ⟨by decide, by decide, by decide, by decide, rfl, by decide, by decide, by unfold outFits; decide,
      admits_refusing rfl (by decide), disjoint_of (by decide), fun _ _ _ => List.not_mem_nil, by decide,
      admits_refusing rfl (by decide), admits_refusing rfl (by decide), by decide⟩

/-- The scratch window from 0x1030 on lies in the output range, which ends at 0x1056. -/
def crossing : State := { fitting with scrBase := 0x1030#32 }

/-- An image byte below the overlap; and with the scratch window from 0x1050 on, a payload byte of the scratch window
past the output range, and its place in the image below the window. -/
theorem witness_BuildUnderOverlap :
    ∀ x ∈ [crossing, { fitting with scrBase := 0x1050#32 }],
      imgCfg x.cfg = some g1 ∧ cmpCfgOk x.plat x.ccfg = true
        ∧ bound x.plat (ccfgProv x.ccfg) (pixSize g1) ≤ x.scrCap.toNat
        ∧ x.scrBase.toNat + bound x.plat (ccfgProv x.ccfg) (pixSize g1) ≤ addrLimit
        ∧ x.answers = [.ok z12] ∧ z12 ≠ [] ∧ z12.length ≤ bound x.plat (ccfgProv x.ccfg) (pixSize g1)
        ∧ outFits x (imageLen g1 z12.length) ∧ admits x x.scrBase.toNat z12.length .write
        ∧ admits x x.scrBase.toNat z12.length .read
        ∧ admits x (x.outBase.toNat + x.outPos.toNat) (imageLen g1 z12.length) .write
        ∧ (0 < payloadOffset g1 ∧ 0x1000 < x.scrBase.toNat)
        ∧ (0x1050 + 7 ≥ 0x1000 + imageLen g1 z12.length ∧ payloadOffset g1 + 7 < 0x50 ∧ z12[7]? = some 0x00#8) := by
  intro x hx
  simp only [List.mem_cons, List.not_mem_nil, or_false] at hx
  rcases hx with rfl | rfl <;>
    exact ⟨by decide, by decide, by decide, by decide, rfl, by decide, by decide, by unfold outFits; decide,
      fun _ _ _ => rfl, fun _ _ _ => rfl, fun _ _ _ => rfl, by decide, by decide⟩

theorem witness_SeparateCommandsBuildTheImage :
    imgCfg fitting.cfg = some g1 ∧ cmpCfgOk fitting.plat fitting.ccfg = true
      ∧ bound fitting.plat (ccfgProv fitting.ccfg) (pixSize g1) ≤ fitting.scrCap.toNat
      ∧ fitting.scrBase.toNat + bound fitting.plat (ccfgProv fitting.ccfg) (pixSize g1) ≤ addrLimit
      ∧ fitting.answers = [.ok z12] ∧ z12 ≠ [] ∧ z12.length ≤ bound fitting.plat (ccfgProv fitting.ccfg) (pixSize g1)
      ∧ outFits fitting (imageLen g1 z12.length) ∧ admits fitting fitting.scrBase.toNat z12.length .write
      ∧ admits fitting fitting.scrBase.toNat z12.length .read
      ∧ admits fitting (fitting.outBase.toNat + fitting.outPos.toNat) (imageLen g1 z12.length) .write
      ∧ disjoint fitting.scrBase.toNat fitting.scrCap.toNat (fitting.outBase.toNat + fitting.outPos.toNat)
          (imageLen g1 z12.length) :=
  ⟨by decide, by decide, by decide, by decide, rfl, by decide, by decide, by unfold outFits; decide, fun _ _ _ => rfl,
    fun _ _ _ => rfl, fun _ _ _ => rfl, disjoint_of (by decide)⟩

end Sys2Proof.Tests
end

section
/-! The step, branch by branch, and the two statements about whose turn it is. -/

namespace Sys2Proof.Machine

variable {s : State} {w : Word} {i : Instr} {e : DecodeReject} {x : Input} {rest : List Input}

theorem engineTurn_iff : engineTurn s = true ↔ s.busyLeft = 0 ∨ s.inputs = [] := by
  simp [engineTurn]

theorem inputTurn_of_nil (h : s.inputs = []) : inputTurn s = s := by
  unfold inputTurn
  rw [h]

theorem inputTurn_of_cons (h : s.inputs = x :: rest) :
    inputTurn s = performInput x { s with inputs := rest, busyLeft := s.busyLeft - 1 } := by
  unfold inputTurn
  rw [h]

theorem step_of_rst (h : s.rst = true) : step s = .next (inputTurn s) := by
  simp [step, h]

theorem step_of_pending_none (h : s.pending = none) : step s = .next (inputTurn s) := by
  simp [step, h]

/-- While the latency runs and the outside has more to do, the pending word waits (R296). -/
theorem step_of_not_engineTurn (h : engineTurn s = false) : step s = .next (inputTurn s) := by
  unfold step
  cases s.pending <;> simp [h]

theorem step_of_decode_ok (hrst : s.rst = false) (hpending : s.pending = some w) (hturn : engineTurn s = true)
    (hw : decode w = .ok i) : step s = exec i s := by
  simp [step, hrst, hpending, hturn, hw]

theorem step_of_decode_error (hrst : s.rst = false) (hpending : s.pending = some w) (hturn : engineTurn s = true)
    (hw : decode w = .error e) : step s = .next (illegalWord s) := by
  simp [step, hrst, hpending, hturn, hw]

/-- The three conditions of O5 under which the engine does not act, one after the other. -/
theorem step_eq_inputTurn (h : s.rst = true ∨ s.pending = none ∨ (s.busyLeft ≠ 0 ∧ s.inputs ≠ [])) :
    step s = .next (inputTurn s) := by
  obtain hrst | hnone | ⟨hleft, hinputs⟩ := h
  · exact step_of_rst hrst
  · exact step_of_pending_none hnone
  · have hwaits : engineTurn s = false := by simp [engineTurn, hleft, hinputs]
    exact step_of_not_engineTurn hwaits

/-- Settles O4: the branch of the step in which the engine runs a word that decodes. -/
theorem stepRunsThePendingCommand : Obligations.StepRunsThePendingCommand := by
  intro s w i hrst hpending hw hturn
  exact step_of_decode_ok hrst hpending (engineTurn_iff.mpr hturn) hw

/-- Settles O5: outside the engine's turn the step is the outside's turn, by whether an input is left. -/
theorem stepLetsTheOutsideAct : Obligations.StepLetsTheOutsideAct := by
  intro s hidle
  rw [step_eq_inputTurn hidle]
  constructor
  · intro x rest hcons
    rw [inputTurn_of_cons hcons]
  · intro hnil
    rw [inputTurn_of_nil hnil]

end Sys2Proof.Machine
end

section
/-! The register window: what a read returns, what a write stores, and what either leaves unchanged. -/

namespace Sys2Proof.Machine

variable {s : State} {r r' : Reg} {w : Word} {k : Nat}

/-! ### Reads -/

theorem readReg_of_idle (h : s.status.busy = false) : readReg s r = (regValue s r, 0) := by
  simp [readReg, h]

/-- A register that R45 does not leave open reads the value it holds, busy or not. -/
theorem readReg_of_stable (hopen : openWhileBusy r = false) (hr : r ≠ .status) : readReg s r = (regValue s r, 0) := by
  simp [readReg, hopen, hr]

theorem readReg_status_of_busy (h : s.status.busy = true) : readReg s .status = (busyStatus s, 1) := by
  simp [readReg, h, openWhileBusy]

/-- IDATV stands above the eight bits of STATUS that a busy engine shows (R26, R45). -/
theorem statusWord_getLsbD_idatv (t : Status) (b : Bool) (hk : k < 8) :
    (statusWord { t with idatv := b }).getLsbD k = (statusWord t).getLsbD k := by
  have hecode : k - 1 - 1 - 1 - 1 < 4 := by omega
  simp only [statusWord, BitVec.getLsbD_append, hecode, if_true]

/-! ### Writes -/

theorem writeReg_of_idle (h : s.status.busy = false) : writeReg r w s = storeReg r w s := by
  simp [writeReg, h]

theorem writeReg_of_not_operand (h : isOperandReg r = false) : writeReg r w s = storeReg r w s := by
  simp [writeReg, h]

theorem writeReg_of_busy (h : s.status.busy = true) (hr : isOperandReg r = true) : writeReg r w s = setOvr s := by
  simp [writeReg, h, hr]

/-- An accepted command word starts the command; only the latency and the count of draws depend on the word. -/
theorem acceptCommand_eq (w : Word) (s : State) :
    acceptCommand w s
      = { startCommand w s with busyLeft := (acceptCommand w s).busyLeft, draws := (acceptCommand w s).draws } := by
  unfold acceptCommand
  split <;> rfl

theorem acceptCommand_of_illegal (h : ∀ i, decode w ≠ .ok i) : acceptCommand w s = startCommand w s := by
  unfold acceptCommand
  split
  · rename_i i hi
    exact absurd hi (h i)
  · rfl

/-! ### Offsets -/

theorem readOffset_reserved (hk : 0x44 ≤ k) : readOffset s k = (0#32, 0) := by
  simp [readOffset, regAt_none hk]

theorem writeOffset_reserved (hk : 0x44 ≤ k) : writeOffset s k w = s := by
  simp [writeOffset, regAt_none hk]

theorem busAccess_word (p : Platform) (hk : k < 256) (hk4 : k % 4 = 0) :
    busAccess p (regBase p + k) 4 = .word k := by
  unfold busAccess regBase
  rw [if_neg (by omega), if_pos (by omega)]
  congr 1
  omega

/-- The non-reserved bits of a RW register (R23, R25, R33, R35). -/
def rwMask : Reg → Word
  | .ctrl => 0x00000003#32
  | .cfg => cfgMask
  | .ccfg => ccfgMask
  | _ => 0xFFFFFFFF#32

theorem ctrlWord_ctrlOfWord (w : Word) : ctrlWord (ctrlOfWord w) = w &&& 0x00000003#32 := by
  apply BitVec.eq_of_getLsbD_eq
  intro k hk
  rw [ctrlWord_bit, BitVec.getLsbD_and]
  interval_cases k <;> simp [ctrlOfWord]

/-- A RW register holds what was stored in it, its reserved bits 0. -/
theorem regValue_storeReg_same (hr : isOperandReg r = true ∨ r = .ctrl) (hcmd : r ≠ .cmd) :
    regValue (storeReg r w s) r = w &&& rwMask r := by
  have hones : w &&& 0xFFFFFFFF#32 = w := BitVec.and_allOnes
  cases r
  case ctrl => exact ctrlWord_ctrlOfWord w
  all_goals simp_all [isOperandReg, storeReg, regValue, rwMask]

theorem storeReg_status (hstatus : r ≠ .status) (hcmd : r ≠ .cmd) : (storeReg r w s).status = s.status := by
  cases r <;> simp_all [storeReg]

theorem regValue_storeReg_other (hne : r' ≠ r) (hcmd : r ≠ .cmd) :
    regValue (storeReg r w s) r' = regValue s r' := by
  cases r <;> cases r' <;> simp_all [storeReg, regValue]

/-- Settles O9: an idle engine stores the write, and its reads return what the registers hold. -/
theorem registerWriteReadsBack : Obligations.RegisterWriteReadsBack := by
  refine ⟨fun s r m w hidle hm => ?_, fun s hidle => ?_, fun s => ?_⟩
  · obtain ⟨hrw, hcmd, hstatus, rfl⟩ :
        (isOperandReg r = true ∨ r = .ctrl) ∧ r ≠ .cmd ∧ r ≠ .status ∧ m = rwMask r := by
      simp only [List.mem_cons, Prod.mk.injEq, List.not_mem_nil, or_false] at hm
      rcases hm with ⟨rfl, rfl⟩ | ⟨rfl, rfl⟩ | ⟨rfl, rfl⟩ | ⟨rfl, rfl⟩ | ⟨rfl, rfl⟩ | ⟨rfl, rfl⟩ | ⟨rfl, rfl⟩
        | ⟨rfl, rfl⟩ | ⟨rfl, rfl⟩ | ⟨rfl, rfl⟩ | ⟨rfl, rfl⟩ <;> decide
    have hidle' : (storeReg r w s).status.busy = false := by rw [storeReg_status hstatus hcmd, hidle]
    rw [writeReg_of_idle hidle]
    refine ⟨?_, fun r' hne => ?_⟩
    · rw [readReg_of_idle hidle', regValue_storeReg_same hrw hcmd]
    · rw [readReg_of_idle hidle', readReg_of_idle hidle, regValue_storeReg_other hne hcmd]
  · simp only [readReg_of_idle hidle, regValue, and_self]
  · have hctrl : readReg s .ctrl = (ctrlWord s.ctrl, 0) := readReg_of_stable rfl (by decide)
    rw [hctrl]
    exact ⟨readReg_of_stable rfl (by decide), rfl, ctrlWord_bit s.ctrl⟩

/-- Settles O10: the bus hands an aligned word access to the register at its offset, unless PNGE is in reset. -/
theorem busReachesEveryRegister : Obligations.BusReachesEveryRegister := by
  refine fun s w => ⟨fun hrst r => ?_, fun hrst k hk hk4 => ?_⟩
  · simp [performInput, busWrite, busRead, busAccess_reg, hrst, writeOffset, readOffset]
  · have hword := busAccess_word s.plat (k := k) (by omega) hk4
    simp [performInput, busWrite, busRead, hword, hrst]

/-- Settles O12: no register stands at an offset from 0x44 on. -/
theorem reservedOffsetsReadZero : Obligations.ReservedOffsetsReadZero := by
  intro s k w hk _ _
  exact ⟨readOffset_reserved hk, writeOffset_reserved hk⟩

/-- Settles O13: the bits are those of the status word, of which a busy engine leaves IDATV alone open. -/
theorem statusWriteClears : Obligations.StatusWriteClears := by
  intro s w
  have hwrite : writeReg .status w s = { s with status := statusClear w s.status } := writeReg_of_not_operand rfl
  obtain ⟨b, hread, hidatv⟩ := readReg_status s
  obtain ⟨hbusy, hdone, herr, hovr, hecode, hb, hreserved⟩ := statusWord_bits { s.status with idatv := b }
  rw [hwrite, hread]
  refine ⟨rfl, fun hinv hrun => ?_, hbusy, hdone, herr, hovr, ?_, hreserved, fun hidle => hb.trans (hidatv hidle)⟩
  · obtain ⟨hdone0, herr0⟩ := hinv.busyClear hrun
    have hcode0 : s.status.ecode = .noError := by
      by_contra hne
      simp [hinv.errCode.mpr hne] at herr0
    simp [statusClear, hdone0, herr0, hcode0]
  · rw [hecode]
    cases s.status.ecode <;> rfl

/-- Settles O14: an idle engine accepts every word, and one that decodes to nothing ends in the next step. -/
theorem commandWordsAreAccepted : Obligations.CommandWordsAreAccepted := by
  intro s w
  refine ⟨fun hidle => ?_, fun hbusy => writeReg_of_busy hbusy rfl, readReg_of_stable rfl (by decide)⟩
  have hwrite : writeReg .cmd w s = acceptCommand w s := writeReg_of_idle hidle
  rw [hwrite]
  refine ⟨acceptCommand_eq w s, fun hrst hillegal => ?_⟩
  rw [acceptCommand_of_illegal hillegal]
  cases hw : decode w with
  | ok i => exact absurd hw (hillegal i)
  | error e => exact step_of_decode_error (s := startCommand w s) hrst rfl (by simp [engineTurn]) hw

/-- Settles O15: which writes a busy engine drops, and which registers nothing can write. -/
theorem busyWritesAreDropped : Obligations.BusyWritesAreDropped := by
  intro s w
  refine ⟨fun hbusy r hr => writeReg_of_busy hbusy ?_, writeReg_of_not_operand rfl, writeReg_of_not_operand rfl,
    fun r hr => ?_, fun k hk _ => writeOffset_reserved hk⟩
  · revert r
    decide
  · simp only [List.mem_cons, List.not_mem_nil, or_false] at hr
    rcases hr with rfl | rfl | rfl | rfl <;> exact writeReg_of_not_operand rfl

/-- Settles O16: the registers a busy engine leaves readable, and the eight low bits of STATUS. -/
theorem busyReadsOfStableRegisters : Obligations.BusyReadsOfStableRegisters := by
  intro s hbusy
  refine ⟨fun r hpos hlen hresult hcrc hstatus => readReg_of_stable ?_ hstatus, fun k hk => ?_⟩
  · cases r <;> simp_all [openWhileBusy]
  · rw [readReg_status_of_busy hbusy]
    exact statusWord_getLsbD_idatv s.status _ hk

end Sys2Proof.Machine
end

section
/-! How a command that completes ends, by `exec_ends`: what it does to STATUS and to the other registers. -/

namespace Sys2Proof.Machine

variable {i : Instr} {s t u : State} {e : ErrCode} {p : Port}

theorem noError_not_mem_allowedErrors (i : Instr) : ErrCode.noError ∉ allowedErrors i := by
  cases i <;> decide

theorem ErrEnd.code_ne_noError (h : ErrEnd i s u e p) : e ≠ .noError := by
  rintro rfl
  exact noError_not_mem_allowedErrors i h.allowed

theorem usesOutput_eq_false_iff : usesOutput i = false ↔ i = .crc ∨ i = .size ∨ i = .compress := by
  cases i <;> simp [usesOutput]

/-- An error end, written over the state the command started in (R254, R255). -/
theorem ErrEnd.completion_eq (h : ErrEnd i s u e p) :
    errorCompletion u e p
      = { failed s e with mem := p.mem, draws := p.draws, answers := u.answers, sent := u.sent } := by
  rw [h.link]
  rfl

/-- A success end, written over the state the command started in (R256). -/
theorem OkEnd.completion_eq (h : OkEnd i s u p) :
    successCompletion u p
      = { s with
          outPos := u.outPos, result := u.result, crc := u.crc, idatLen := u.idatLen,
          status := { okStatus s with idatv := u.status.idatv }, pending := none, mem := p.mem, busyLeft := 0,
          raced := [], draws := p.draws, answers := u.answers, sent := u.sent } := by
  rw [h.regs]
  rfl

/-- The two ways a command that does not stop the machine ends. -/
theorem exec_next (h : exec i s = .next t) :
    (∃ u e p, ErrEnd i s u e p ∧ t = errorCompletion u e p) ∨ ∃ u p, OkEnd i s u p ∧ t = successCompletion u p := by
  have hends := exec_ends i s
  rw [h] at hends
  cases hends with
  | err herr => exact .inl ⟨_, _, _, herr, rfl⟩
  | ok hok => exact .inr ⟨_, _, hok, rfl⟩

/-- Settles O22: the accepted word clears the outcome, and each end sets one of DONE and ERR. -/
theorem completionSetsOneOutcome : Obligations.CompletionSetsOneOutcome := by
  intro i s t hidle h
  have hcleared : (writeReg .cmd (encode i) s).status
      = ⟨true, false, false, s.status.ovr, .noError, s.status.idatv⟩ := by
    rw [writeReg_of_idle hidle, storeReg, acceptCommand_eq]
    rfl
  refine ⟨hcleared, ?_⟩
  obtain ⟨u, e, p, hend, rfl⟩ | ⟨u, p, hend, rfl⟩ := exec_next h
  · rw [hend.completion_eq]
    simp [hcleared, hend.code_ne_noError]
  · rw [hend.completion_eq]
    simp [okStatus, hcleared]

/-- Settles O25: neither end writes a register that only the host writes. -/
theorem commandsKeepHostRegisters : Obligations.CommandsKeepHostRegisters := by
  intro i s t h
  obtain ⟨u, e, p, hend, rfl⟩ | ⟨u, p, hend, rfl⟩ := exec_next h
  · rw [hend.completion_eq]
    simp
  · rw [hend.completion_eq]
    simp [okStatus]

/-- No host write changes IDATV: STATUS clears other bits, and an accepted command word keeps it (R28, R29, R31). -/
theorem writeReg_idatv (r : Reg) (w : Word) (s : State) : (writeReg r w s).status.idatv = s.status.idatv := by
  by_cases hdropped : s.status.busy = true ∧ isOperandReg r = true
  · rw [writeReg_of_busy hdropped.1 hdropped.2, setOvr_status]
  · rw [writeReg, if_neg (by simpa using hdropped)]
    cases r
    case cmd => rw [storeReg, acceptCommand_eq]; rfl
    all_goals rfl

/-- Settles O26: the two ends of a command, and the host's writes. -/
theorem payloadOwnership : Obligations.PayloadOwnership := by
  refine ⟨fun i s t _ herr h => ?_, writeReg_idatv⟩
  obtain ⟨u, e, p, hend, rfl⟩ | ⟨u, p, hend, rfl⟩ := exec_next h
  · simp
  · have hok : u.status.err = false := by rw [hend.regs]; exact herr
    simp [hok, hend.idatv]

/-- Settles O27: an error end keeps OUT_POS, and a success end moves it exactly for the output commands. -/
theorem outPosMovesOnlyOnSuccess : Obligations.OutPosMovesOnlyOnSuccess := by
  intro i s t herr h
  obtain ⟨u, e, p, hend, rfl⟩ | ⟨u, p, hend, rfl⟩ := exec_next h
  · rw [hend.completion_eq]
    simp
  · have hok : u.status.err = false := by rw [hend.regs]; exact herr
    refine ⟨fun hfail => by simp [hok] at hfail, fun _ hi => ?_, fun _ hcrc hsize hcompress => ?_⟩
    · exact hend.outStays (usesOutput_eq_false_iff.mpr hi)
    · refine hend.outMoves (Bool.eq_true_of_not_eq_false fun hi => ?_)
      exact (usesOutput_eq_false_iff.mp hi).elim hcrc (Or.elim · hsize hcompress)

end Sys2Proof.Machine
end

section
/-! The invariant of the machine, kept by what the engine does and by what the outside does. -/

namespace Sys2Proof.Machine

variable {i : Instr} {s t u : State} {e : ErrCode} {p : Port} {w : Word} {r : Reg}

/-! ### The engine -/

/-- The invariant does not speak of the backend link. -/
theorem StateInv.of_linkOnly (h : StateInv s) (hlink : linkOnly s u) : StateInv u := by
  rw [hlink]
  exact { h with }

/-- A pending command is busy, and its outcome is still clear (R27, R28). -/
theorem StateInv.running (h : StateInv s) (hpending : s.pending = some w) :
    s.status.done = false ∧ s.status.err = false :=
  h.busyClear (by rw [h.busyPending, hpending]; rfl)

theorem errorCompletion_keeps_inv (h : StateInv s) (hrst : s.rst = false) (hdone : s.status.done = false)
    (he : e ≠ .noError) (hmem : Memory.wf p.mem = true) : StateInv (errorCompletion s e p) :=
  { h with
    memWf := hmem
    busyPending := rfl
    busyClear := nofun
    oneOutcome := by simp [hdone]
    errCode := by simp [he]
    payload := nofun
    idle := fun _ => ⟨rfl, rfl⟩
    inReset := by simp [hrst] }

/-- After a success a held payload is COMPRESS's own, or the one held before (R29, R207). -/
theorem OkEnd.payload_ne_zero (h : StateInv s) (hend : OkEnd i s u p) (hheld : u.status.idatv = true) :
    u.idatLen ≠ 0#32 := by
  rw [hend.idatv] at hheld
  by_cases hcompress : i = .compress
  · exact hend.payload hcompress
  · by_cases hreleases : i = .emitIdat ∨ i = .build
    · simp [hcompress, hreleases] at hheld
    · rw [hend.idatLen hcompress fun hbuild => hreleases (.inr hbuild)]
      exact h.payload (by simpa [hcompress, hreleases] using hheld)

theorem successCompletion_keeps_inv (h : StateInv s) (hrst : s.rst = false) (herr : s.status.err = false)
    (hend : OkEnd i s u p) : StateInv (successCompletion u p) := by
  rw [hend.completion_eq]
  exact { h with
    memWf := hend.port.wf h.memWf
    busyPending := rfl
    busyClear := nofun
    oneOutcome := by simp [okStatus, herr]
    payload := show u.status.idatv = true → u.idatLen ≠ 0#32 from hend.payload_ne_zero h
    idle := fun _ => ⟨rfl, rfl⟩
    inReset := by simp [hrst] }

theorem exec_keeps_inv (h : StateInv s) (hrst : s.rst = false) (hpending : s.pending = some w)
    (hexec : exec i s = .next t) : StateInv t := by
  obtain ⟨hdone, herr⟩ := h.running hpending
  obtain ⟨u, e, p, hend, rfl⟩ | ⟨u, p, hend, rfl⟩ := exec_next hexec
  · have hrst' : u.rst = false := by rw [hend.link, hrst]
    have hdone' : u.status.done = false := by rw [hend.link, hdone]
    exact errorCompletion_keeps_inv (h.of_linkOnly hend.link) hrst' hdone' hend.code_ne_noError
      (hend.port.wf h.memWf)
  · exact successCompletion_keeps_inv h hrst herr hend

theorem illegalWord_keeps_inv (h : StateInv s) (hrst : s.rst = false) (hpending : s.pending = some w) :
    StateInv (illegalWord s) :=
  errorCompletion_keeps_inv h hrst (h.running hpending).1 (by decide) h.memWf

/-! ### The register window -/

/-- What a write to STATUS clears keeps DONE and ERR apart, and ECODE in step with ERR (R31). -/
theorem statusClear_keeps_inv (h : StateInv s) (hrst : s.rst = false) :
    StateInv { s with status := statusClear w s.status } :=
  { h with
    busyClear := fun hbusy => by simp [statusClear, h.busyClear hbusy]
    oneOutcome := fun hboth => h.oneOutcome
      ⟨(Bool.and_eq_true_iff.mp hboth.1).1, (Bool.and_eq_true_iff.mp hboth.2).1⟩
    errCode := by
      simp only [statusClear]
      cases w.getLsbD 2
      · simpa using h.errCode
      · simp
    inReset := by simp [hrst] }

theorem acceptCommand_keeps_inv (h : StateInv s) (hrst : s.rst = false) : StateInv (acceptCommand w s) := by
  rw [acceptCommand_eq]
  exact { h with
    busyPending := rfl
    busyClear := fun _ => ⟨rfl, rfl⟩
    oneOutcome := by simp
    errCode := by simp
    idle := nofun
    inReset := by simp [hrst] }

theorem setOvr_keeps_inv (h : StateInv s) (hrst : s.rst = false) : StateInv (setOvr s) :=
  { h with inReset := by simp [hrst] }

theorem storeReg_keeps_inv (h : StateInv s) (hrst : s.rst = false) : StateInv (storeReg r w s) := by
  cases r
  case status => exact statusClear_keeps_inv h hrst
  case cmd => exact acceptCommand_keeps_inv h hrst
  case ctrl => exact { h with inReset := by simp [storeReg, hrst] }
  case cfg => exact { h with cfgReserved := by simp [storeReg, BitVec.and_assoc] }
  case ccfg => exact { h with ccfgReserved := by simp [storeReg, BitVec.and_assoc] }
  case id | idatLen | result | crc => exact h
  all_goals exact { h with }

theorem writeReg_keeps_inv (h : StateInv s) (hrst : s.rst = false) : StateInv (writeReg r w s) := by
  unfold writeReg
  split
  · exact setOvr_keeps_inv h hrst
  · exact storeReg_keeps_inv h hrst

theorem writeOffset_keeps_inv (h : StateInv s) (hrst : s.rst = false) (k : Nat) : StateInv (writeOffset s k w) := by
  unfold writeOffset
  split
  · exact writeReg_keeps_inv h hrst
  · exact h

/-! ### The outside -/

theorem busWrite_keeps_inv (h : StateInv s) (a size : Nat) : StateInv (busWrite s a size w) := by
  unfold busWrite
  split
  · exact { h with }
  · exact { h with }
  · split
    · exact { h with }
    · rename_i k _ hrst
      exact { writeOffset_keeps_inv (w := w) h (by simpa using hrst) k with }

theorem busRead_keeps_inv (h : StateInv s) (a size : Nat) : StateInv (busRead s a size) := by
  unfold busRead
  split
  · exact { h with }
  · exact { h with }
  · split <;> exact { h with }

theorem hostWrite_keeps_inv (h : StateInv s) (a : Word) (b : Byte) : StateInv (hostWrite s a b) :=
  { h with
    memWf := set_wf b h.memWf a.isLt
    idle := fun hidle => by simpa [hostWrite, show s.status.busy = false from hidle] using h.idle hidle }

theorem hostRead_keeps_inv (h : StateInv s) (a : Word) : StateInv (hostRead s a) := by
  unfold hostRead
  split <;> exact { h with }

theorem waitIdle_keeps_inv (h : StateInv s) : StateInv (waitIdle s) := by
  unfold waitIdle
  split
  · exact { h with }
  · split <;> exact { h with }

/-- Every register has its reset value, and an abandoned command leaves memory canonical (R280, R282). -/
theorem resetState_keeps_inv (h : StateInv s) : StateInv (resetState s) where
  memWf := abandon_wf h.memWf
  busyPending := rfl
  busyClear := nofun
  oneOutcome := nofun
  errCode := by simp [resetState, State.reset]
  cfgReserved := BitVec.zero_and
  ccfgReserved := BitVec.zero_and
  payload := nofun
  idle := fun _ => ⟨rfl, rfl⟩
  inReset := fun _ => ⟨rfl, rfl⟩

theorem performInput_keeps_inv (h : StateInv s) (x : Input) : StateInv (performInput x s) := by
  cases x with
  | busWrite a size w => exact busWrite_keeps_inv h a size
  | busRead a size => exact busRead_keeps_inv h a size
  | memWrite a b => exact hostWrite_keeps_inv h a b
  | memRead a => exact hostRead_keeps_inv h a
  | waitIdle => exact waitIdle_keeps_inv h
  | assertReset => exact resetState_keeps_inv h
  | releaseReset => exact { h with inReset := nofun }

theorem inputTurn_keeps_inv (h : StateInv s) : StateInv (inputTurn s) := by
  cases hinputs : s.inputs with
  | nil => rwa [inputTurn_of_nil hinputs]
  | cons x rest =>
    have hpopped : StateInv { s with inputs := rest, busyLeft := s.busyLeft - 1 } :=
      { h with idle := fun hidle => ⟨(h.idle hidle).1, by simp [(h.idle hidle).2]⟩ }
    rw [inputTurn_of_cons hinputs]
    exact performInput_keeps_inv hpopped x

/-- Settles O20: a step is the outside's turn, the run of a command, or the end of an illegal word. -/
theorem stepKeepsInv : Obligations.StepKeepsInv := by
  intro s t h hstep
  by_cases houtside : s.rst = true ∨ s.pending = none ∨ (s.busyLeft ≠ 0 ∧ s.inputs ≠ [])
  · rw [step_eq_inputTurn houtside, Host.Outcome.next.injEq] at hstep
    exact hstep ▸ inputTurn_keeps_inv h
  · simp only [not_or, not_and_or, not_not, Bool.not_eq_true] at houtside
    obtain ⟨hrst, hpending, hturn⟩ := houtside
    obtain ⟨w, hw⟩ := Option.ne_none_iff_exists'.mp hpending
    cases hdecode : decode w with
    | ok i =>
      rw [step_of_decode_ok hrst hw (engineTurn_iff.mpr hturn) hdecode] at hstep
      exact exec_keeps_inv h hrst hw hstep
    | error e =>
      rw [step_of_decode_error hrst hw (engineTurn_iff.mpr hturn) hdecode, Host.Outcome.next.injEq] at hstep
      exact hstep ▸ illegalWord_keeps_inv h hrst hw

end Sys2Proof.Machine
end

section
/-! The host's own path to memory, and WAIT. -/

namespace Sys2Proof.Machine

variable {s : State} {a : Word} {b : Byte} {base n x : Nat}

theorem inRange_eq_false (h : x < base ∨ base + n ≤ x) : inRange base n x = false := by
  simp only [inRange, decide_eq_false_iff_not]
  omega

theorem hostReadOpen_of_pending_none (h : s.pending = none) (x : Nat) : hostReadOpen s x = false := by
  simp [hostReadOpen, h]

/-- No command opens a read outside the output window and the scratch window (R87). -/
theorem hostReadOpen_of_outside (hout : x < s.outBase.toNat ∨ s.outBase.toNat + s.outCap.toNat ≤ x)
    (hscr : x < s.scrBase.toNat ∨ s.scrBase.toNat + max s.scrCap.toNat s.idatLen.toNat ≤ x) :
    hostReadOpen s x = false := by
  unfold hostReadOpen
  split
  · rfl
  · split
    · rfl
    · simp [inRange_eq_false hout, inRange_eq_false hscr]

theorem hostRead_of_closed (h : hostReadOpen s a.toNat = false) :
    hostRead s a = { s with resp := .byte (s.peek a.toNat) } := by
  simp [hostRead, h]

/-- A host read changes nothing but the answer and the count of draws. -/
theorem hostRead_eq (s : State) (a : Word) :
    hostRead s a = { s with resp := (hostRead s a).resp, draws := (hostRead s a).draws } := by
  unfold hostRead
  split <;> rfl

theorem hostWrite_peek_same : (hostWrite s a b).peek a.toNat = b := byteAt_set_same s.mem a.toNat b

theorem hostWrite_peek_other (h : x ≠ a.toNat) : (hostWrite s a b).peek x = s.peek x := byteAt_set_other s.mem b h

/-- WAIT out of reset is one read of STATUS, and polls again exactly while BUSY is 1 (R107). -/
theorem waitIdle_of_rst_false (hrst : s.rst = false) :
    waitIdle s
      = { s with
          resp := .data (readReg s .status).1, draws := s.draws + (readReg s .status).2,
          inputs := if s.status.busy then .waitIdle :: s.inputs else s.inputs } := by
  cases hbusy : s.status.busy
  · simp [waitIdle, hrst, hbusy, readReg_of_idle hbusy, regValue]
  · simp [waitIdle, hrst, hbusy, readReg_status_of_busy hbusy]

/-- Settles O18: a host write is one byte of memory, a host read is open in a running command's windows only. -/
theorem hostReachesMemory : Obligations.HostReachesMemory := by
  intro s a b
  refine ⟨rfl, hostWrite_peek_same, fun x hx => hostWrite_peek_other hx, hostRead_eq s a, fun hnone => ⟨?_, ?_⟩,
    fun hout hscr => ?_, waitIdle_of_rst_false, fun hrst => ?_⟩
  · exact hostRead_of_closed (hostReadOpen_of_pending_none hnone _)
  · have hclosed : hostReadOpen (hostWrite s a b) a.toNat = false := hostReadOpen_of_pending_none hnone _
    show (hostRead (hostWrite s a b) a).resp = .byte b
    rw [hostRead_of_closed hclosed, hostWrite_peek_same]
  · exact hostRead_of_closed (hostReadOpen_of_outside hout hscr)
  · simp [performInput, waitIdle, hrst]

end Sys2Proof.Machine
end

section
/-! The accesses the register window refuses (R79). -/

namespace Sys2Proof.Machine

/-- An access that touches the window and is no aligned word is a bus error, whichever side it reaches in from. -/
theorem busAccess_error {p : Platform} {a size : Nat} (hsize : 0 < size) (hbelow : a < regBase p + 256)
    (habove : regBase p < a + size) (hshape : size ≠ 4 ∨ a % 4 ≠ 0) : busAccess p a size = .error := by
  unfold busAccess
  rw [if_neg (by omega), if_neg (by omega)]

/-- Settles O11: neither direction does more with a refused access than answer it. -/
theorem busErrorsChangeNothing : Obligations.BusErrorsChangeNothing := by
  intro s a size w hsize hbelow habove hshape
  have herror := busAccess_error hsize hbelow habove hshape
  simp [performInput, busWrite, busRead, herror]

end Sys2Proof.Machine
end

section
/-! What the output commands leave in memory: the bytes outside their ranges, a run of writes that a refusal stops,
and a copied chunk whose windows overlap. -/

namespace Sys2Proof.Machine

variable {i : Instr} {s t : State} {p q : Port} {e : ErrCode} {bs : List Byte} {a k n x : Nat}

/-! ### Bytes that are as before -/

theorem peek_eq_of_get (h : t.mem.get x = s.mem.get x) : t.peek x = s.peek x := by
  simp only [State.peek, Memory.byteAt, h]

theorem peek_eq_of_mem_get {b : Byte} (h : t.mem.get x = some b) : t.peek x = b := by
  simp only [State.peek, Memory.byteAt, h, Option.getD_some]

/-- Every command, however it ends, keeps the bytes outside its two ranges (R70, R210). -/
theorem exec_frame (h : exec i s = .next t) (hout : a < s.outAddr ∨ s.outAddr + outRangeLen s i ≤ a)
    (hscr : a < s.scrBase.toNat ∨ s.scrBase.toNat + scrRangeLen s i ≤ a) : t.mem.get a = s.mem.get a := by
  obtain ⟨u, e, p, hend, rfl⟩ | ⟨u, p, hend, rfl⟩ := exec_next h <;> exact hend.port.frame a hout hscr

/-- Settles O28: the frame of a command, read as bytes. -/
theorem commandsWriteOnlyTheirRanges : Obligations.CommandsWriteOnlyTheirRanges := by
  intro i s t a h hout hscr
  exact peek_eq_of_get (exec_frame h hout hscr)

/-! ### The fixed-content commands -/

theorem emit_of_outCheck {d : State} (h : outCheck s bs.length = some e) : emit s bs d = .next (failed s e) := by
  simp [emit, h]

/-- Settles O38: `emit` raises what the output check finds before it writes. -/
theorem fixedCommandsCheckTheWindow : Obligations.FixedCommandsCheckTheWindow := by
  intro i s bs hfixed
  obtain ⟨hpos, d, hexec, -⟩ := exec_fixed hfixed
  rw [hexec]
  exact ⟨fun hcap => emit_of_outCheck (outCheck_bounds hcap),
    fun hcap hend => emit_of_outCheck (outCheck_addr hpos hcap hend)⟩

/-- `emit` where its byte `k` is the first that the memory port refuses (R72). -/
theorem emit_stops {d : State} (hf : outFits s bs.length) (hk : k < bs.length)
    (hw : admits s s.outAddr k .write) (hno : memOk s.plat (s.outAddr + k) .write = false) :
    ∃ q, emit s bs d = .next (errorCompletion s .mem q)
      ∧ writeBytes (s.env noOverlap) s.outAddr (bs.take k) s.port = .done () q := by
  obtain ⟨q, hstop, hdone⟩ := writeBytes_refused (e := s.env noOverlap) s.port hk hw hno
  refine ⟨q, ?_, hdone⟩
  simp only [emit, (outCheck_none (by omega)).2 hf, hstop]

/-- The end with MEM after a run of writes: STATUS, the written bytes, and nothing else (R254, R255). -/
theorem errorCompletion_of_writes {ovl : Nat → Bool} (h : writeBytes (s.env ovl) a bs s.port = .done () q)
    (hovl : ∀ x, a ≤ x → x < a + bs.length → ovl x = false) :
    errorCompletion s .mem q
        = { failed s .mem with mem := (errorCompletion s .mem q).mem, draws := (errorCompletion s .mem q).draws }
      ∧ standsAt s (errorCompletion s .mem q) a bs ∧ sameOutside s (errorCompletion s .mem q) a bs.length := by
  refine ⟨rfl, standsAt_of_writes h rfl hovl, fun x hx => ?_⟩
  have hframe := writeBytes_frame (s.env ovl) bs a s.port hx
  rw [h] at hframe
  exact peek_eq_of_get hframe

/-- Settles O39: the writes before the refused one are a run of their own. -/
theorem fixedCommandsStopAtARefusedByte : Obligations.FixedCommandsStopAtARefusedByte := by
  intro i s bs k hfixed hf hk hw hno
  obtain ⟨-, d, hexec, -⟩ := exec_fixed hfixed
  obtain ⟨q, hemit, hwrites⟩ := emit_stops (d := d) hf hk hw hno
  have hlen : (bs.take k).length = k := List.length_take_of_le hk.le
  have hend := errorCompletion_of_writes hwrites fun _ _ _ => rfl
  rw [hlen] at hend
  exact ⟨_, hexec.trans hemit, hend⟩

/-! ### The copied chunks -/

/-- An address that the host did not race for and that lies outside one of the windows is not open (R85, R87). -/
theorem env_inBoth_closed {b1 n1 b2 n2 : Nat} (hr : x ∉ s.raced)
    (h : (x < b1 ∨ b1 + n1 ≤ x) ∨ (x < b2 ∨ b2 + n2 ≤ x)) : (s.env (inBoth b1 n1 b2 n2)).isOpen x = false := by
  have hboth : inBoth b1 n1 b2 n2 x = false := by
    obtain h | h := h <;> simp [inBoth, inRange_eq_false h]
  simpa [hboth] using hr

/-- The source of a copied chunk that lies outside the output range and was not raced for is not open (R85, R87). -/
theorem env_disjoint_closed {src len o : Nat} (hd : disjoint src len o n) (hr : unraced s src len) (h1 : src ≤ x)
    (h2 : x < src + len) : (s.env (inBoth src len o n)).isOpen x = false := by
  simpa [inBoth_left hd h1 h2] using hr x h1 h2

/-- Settles O44: the accesses before the refused one write the first bytes of the chunk. -/
theorem copiedChunkStopsAtARefusedByte : Obligations.CopiedChunkStopsAtARefusedByte := by
  intro i s c k hcopied hsrc hf hd hr hk hw hread hno
  obtain ⟨q, hstop, hwrites⟩ := copyChunk_stops (e := s.env (inBoth c.src c.len s.outAddr (c.len + 12))) (t := c.tag)
    s.port hk hread hw (fun x h1 h2 => env_disjoint_closed hd hr h1 h2) hd hno
  rw [port_mem] at hwrites
  have hlen : ((chunk c.tag (memBytes s.mem c.src c.len)).take k).length = k :=
    List.length_take_of_le (by rw [chunk_length, memBytes_length]; exact hk.le)
  have hend := errorCompletion_of_writes hwrites fun x h1 h2 => by
    rw [hlen] at h2
    exact inBoth_right hd h1 (h2.trans (Nat.add_lt_add_left hk _))
  rw [hlen] at hend
  exact ⟨_, (exec_copied hcopied hsrc hf).1 q hstop, hend⟩

/-- The success completion of a copying command that wrote only its output range (R151, R155, R170). -/
theorem outputDone_of_frame {c : Word} {v : Bool} (hf : outFits s n)
    (hframe : ∀ x, x < s.outAddr ∨ s.outAddr + n ≤ x → q.mem.get x = s.mem.get x) :
    outputDone s (successCompletion (writeIdatv (advanceOut (writeCrc s c) n) v) q) n c v := by
  obtain ⟨hpos, hresult⟩ := outFits_toNat hf
  exact ⟨rfl, hpos, hresult, fun x hx => peek_eq_of_get (hframe x hx)⟩

/-- A copying command whose checks pass and whose accesses are all admitted ends as its copy does (R155, R170). -/
theorem exec_copied_done {c : Copied} (h : copied s i = some c) (hsrc : c.len = 0 ∨ c.src + c.len ≤ addrLimit)
    (hf : outFits s (c.len + 12)) (hr : admits s c.src c.len .read) (hw : admits s s.outAddr (c.len + 12) .write) :
    ∃ t x q, exec i s = .next t
      ∧ copyChunk (s.env (inBoth c.src c.len s.outAddr (c.len + 12))) c.tag c.src c.len s.outAddr s.port = .done x q
      ∧ t.mem = q.mem ∧ outputDone s t (c.len + 12) x (if i = .emitIdat then false else s.status.idatv) := by
  obtain ⟨x, q, hcopy⟩ := copyChunk_done (e := s.env (inBoth c.src c.len s.outAddr (c.len + 12))) (t := c.tag)
    s.port hr hw
  have hframe := fun y => copyChunk_frame (s.env (inBoth c.src c.len s.outAddr (c.len + 12))) c.tag c.src c.len
    s.outAddr s.port (x := y)
  rw [hcopy] at hframe
  exact ⟨_, x, q, (exec_copied h hsrc hf).2 x q hcopy, hcopy, rfl, outputDone_of_frame hf hframe⟩

/-- Settles O42: a byte that is not open holds what the completed copy wrote there. -/
theorem copiedChunkUnderOverlap : Obligations.CopiedChunkUnderOverlap := by
  intro i s c hcopied hsrc hf hr hw
  obtain ⟨t, x, q, hexec, hcopy, hmem, hdone⟩ := exec_copied_done hcopied hsrc hf hr hw
  have hcrc : t.crc = x := by rw [hdone.1]
  refine ⟨t, hexec, hcrc ▸ hdone, fun k b hk hraced hout => ?_, fun k hk hsraced hdraced hsout hdout => ?_⟩
  · have hstands := copyChunk_header hcopy hk (env_inBoth_closed hraced (.inl hout))
    exact peek_eq_of_mem_get (by rw [hmem]; exact hstands)
  · have hpayload := copyChunk_payload hcopy hk (env_inBoth_closed hsraced (.inr hsout))
      (env_inBoth_closed hdraced (.inl hdout)) hsout
    rw [State.peek, hmem]
    exact hpayload

end Sys2Proof.Machine
end

section
/-! BUILD where its checks pass and its accesses are admitted: what it leaves, with the windows overlapping or not. -/

namespace Sys2Proof.Machine

variable {s : State} {g : ImgCfg} {z : List Byte} {rest : List Answer}

/-- The conditions under which BUILD runs to its end: the configuration passes, the backend answers `Ok(z)` within the
bound, both windows are large enough, and the memory port admits every access (R201, R204, R209, R231). The state of
`witness_BuildUnderOverlap` meets them. -/
structure BuildPasses (s : State) (g : ImgCfg) (z : List Byte) (rest : List Answer) : Prop where
  cfg : imgCfg s.cfg = some g
  ccfg : cmpCfgOk s.plat s.ccfg = true
  scrFits : bound s.plat (ccfgProv s.ccfg) (pixSize g) ≤ s.scrCap.toNat
  scrEnds : s.scrBase.toNat + bound s.plat (ccfgProv s.ccfg) (pixSize g) ≤ addrLimit
  answer : s.answers = .ok z :: rest
  nonempty : z ≠ []
  bounded : z.length ≤ bound s.plat (ccfgProv s.ccfg) (pixSize g)
  outEnds : outFits s (imageLen g z.length)
  scrWrites : admits s s.scrBase.toNat z.length .write
  scrReads : admits s s.scrBase.toNat z.length .read
  outWrites : admits s s.outAddr (imageLen g z.length) .write

/-- What a BUILD that ran to its end has done: the registers of R232, and, from the memory `p` that the compression
phase left, the writing of the image to the memory `q` it ends with. -/
structure Built (s : State) (g : ImgCfg) (z : List Byte) (rest : List Answer) (t : State) (p q : Port) : Prop where
  regs : t = { s with
    outPos := t.outPos, result := t.result, idatLen := t.idatLen, crc := t.crc,
    status := { okStatus s with idatv := false },
    pending := none, busyLeft := 0, raced := [], mem := t.mem, draws := t.draws,
    answers := rest, sent := s.sent ++ [request g s.ccfg] }
  outPos : t.outPos.toNat = s.outPos.toNat + imageLen g z.length
  result : t.result.toNat = imageLen g z.length
  idatLen : t.idatLen.toNat = z.length
  compressed : ∀ x, x < s.scrBase.toNat ∨ s.scrBase.toNat + bound s.plat (ccfgProv s.ccfg) (pixSize g) ≤ x →
    p.mem.get x = s.mem.get x
  payload : ∀ k b, z[k]? = some b → s.scrBase.toNat + k ∉ s.raced → p.mem.get (s.scrBase.toNat + k) = some b
  written : writeImage (s.env (buildOverlap s (imageLen g z.length))) g s.scrBase.toNat z.length s.outAddr
    (openOverlap s (bound s.plat (ccfgProv s.ccfg) (pixSize g)) (imageLen g z.length) p) = .done () q
  crc : t.crc = (buildCrc (bothLen s.scrBase.toNat s.scrCap.toNat s.outAddr (imageLen g z.length)) q).1
  mem : t.mem = q.mem

theorem buildCrc_mem (n : Nat) (p : Port) : (buildCrc n p).2.mem = p.mem := by
  unfold buildCrc
  split <;> rfl

theorem exec_build_of_compressed {u : State} {len bnd : Nat} {p : Port} (hg : imgCfg s.cfg = some g)
    (h : runCompress s = .done len bnd u p) : exec .build s = assemble g len bnd u p := by
  simp only [exec, execBuild, hg, h]

/-- Phases 2 and 3 of BUILD, where the image fits and is written to its last byte (R231, R232). -/
theorem assemble_done {u : State} {len bnd : Nat} {p q : Port} (hf : outFits u (imageLen g len))
    (hlen : len < 4294967296)
    (hw : writeImage (u.env (buildOverlap u (imageLen g len))) g u.scrBase.toNat len u.outAddr
      (openOverlap u bnd (imageLen g len) p) = .done () q) :
    ∃ t, assemble g len bnd u p = .next t
      ∧ t = { u with
          outPos := t.outPos, result := t.result, idatLen := t.idatLen, crc := t.crc,
          status := { okStatus u with idatv := false },
          pending := none, busyLeft := 0, raced := [], mem := t.mem, draws := t.draws }
      ∧ t.outPos.toNat = u.outPos.toNat + imageLen g len ∧ t.result.toNat = imageLen g len ∧ t.idatLen.toNat = len
      ∧ t.crc = (buildCrc (bothLen u.scrBase.toNat u.scrCap.toNat u.outAddr (imageLen g len)) q).1
      ∧ t.mem = q.mem := by
  have hcheck : outCheck u (imageLen g len) = none := (outCheck_none (by simp [imageLen])).2 hf
  obtain ⟨hpos, hresult⟩ := outFits_toNat hf
  simp only [assemble, hcheck, hw]
  refine ⟨_, rfl, ?_, hpos, hresult, toNat_ofNat_lt hlen, rfl, buildCrc_mem _ _⟩
  simp only [successCompletion, writeIdatv, writeCrc, writeIdatLen, advanceOut, okStatus]

/-- BUILD runs the compression phase, and then the image to its last byte (R231, R232). -/
theorem exec_build_done (h : BuildPasses s g z rest) : ∃ t p q, exec .build s = .next t ∧ Built s g z rest t p q := by
  obtain ⟨p, hrun, hcompressed, hpayload⟩ := runCompress_done h.cfg h.ccfg h.scrFits h.scrEnds h.answer h.nonempty
    h.bounded h.scrWrites
  obtain ⟨q, himage⟩ := writeImage_done (e := s.env (buildOverlap s (imageLen g z.length)))
    (openOverlap s (bound s.plat (ccfgProv s.ccfg) (pixSize g)) (imageLen g z.length) p) h.scrReads h.outWrites
  have hlen : z.length < 4294967296 := h.bounded.trans_lt (h.scrFits.trans_lt s.scrCap.isLt)
  obtain ⟨t, hassemble, hregs, hpos, hresult, hidat, hcrc, hmem⟩ := assemble_done
    (u := { s with answers := rest, sent := s.sent ++ [request g s.ccfg] }) h.outEnds hlen himage
  exact ⟨t, p, q, (exec_build_of_compressed h.cfg hrun).trans hassemble, hregs, hpos, hresult, hidat, hcompressed,
    hpayload, himage, hcrc, hmem⟩

/-! ### The bytes of a completed BUILD -/

section
variable {t : State} {p q : Port} {k x : Nat} {b : Byte}

/-- Outside the image, BUILD ends with the memory the compression phase left. -/
theorem Built.get_outside (h : Built s g z rest t p q)
    (hx : x < s.outAddr ∨ s.outAddr + imageLen g z.length ≤ x) : t.mem.get x = p.mem.get x := by
  have hframe := writeImage_frame (s.env (buildOverlap s (imageLen g z.length))) g s.scrBase.toNat z.length s.outAddr
    (openOverlap s (bound s.plat (ccfgProv s.ccfg) (pixSize g)) (imageLen g z.length) p) hx
  rw [h.written, Access.port_done, openOverlap_frame _ _ _ _ (by omega)] at hframe
  rw [h.mem, hframe]

/-- What the image reads back of the payload outside the output range is the backend's (R231). -/
theorem Built.byteAt_source (h : Built s g z rest t p q) (hk : z[k]? = some b) (hr : s.scrBase.toNat + k ∉ s.raced)
    (hout : s.scrBase.toNat + k < s.outAddr ∨ s.outAddr + imageLen g z.length ≤ s.scrBase.toNat + k) :
    (openOverlap s (bound s.plat (ccfgProv s.ccfg) (pixSize g)) (imageLen g z.length) p).mem.byteAt
      (s.scrBase.toNat + k) = b := by
  rw [Memory.byteAt, openOverlap_frame _ _ _ _ (by omega), h.payload k b hk hr, Option.getD_some]

/-- Outside both ranges memory is as before. -/
theorem Built.peek_frame (h : Built s g z rest t p q) (hout : x < s.outAddr ∨ s.outAddr + imageLen g z.length ≤ x)
    (hscr : x < s.scrBase.toNat ∨ s.scrBase.toNat + bound s.plat (ccfgProv s.ccfg) (pixSize g) ≤ x) :
    t.peek x = s.peek x :=
  peek_eq_of_get ((h.get_outside hout).trans (h.compressed x hscr))

/-- A payload byte in the scratch window, outside the output range, is the backend's. -/
theorem Built.peek_scratch (h : Built s g z rest t p q) (hk : z[k]? = some b) (hr : s.scrBase.toNat + k ∉ s.raced)
    (hout : s.scrBase.toNat + k < s.outAddr ∨ s.outAddr + imageLen g z.length ≤ s.scrBase.toNat + k) :
    t.peek (s.scrBase.toNat + k) = b :=
  peek_eq_of_mem_get ((h.get_outside hout).trans (h.payload k b hk hr))

/-- A byte of the image outside the scratch window, the payload and its CRC apart. -/
theorem Built.peek_fixed (h : Built s g z rest t p q) (hk : (image s.plat g z)[k]? = some b)
    (hr : s.outAddr + k ∉ s.raced)
    (hscr : s.outAddr + k < s.scrBase.toNat ∨ s.scrBase.toNat + s.scrCap.toNat ≤ s.outAddr + k)
    (hpart : k < payloadOffset g ∨ payloadOffset g + z.length + 4 ≤ k) : t.peek (s.outAddr + k) = b := by
  have hstands := writeImage_fixed h.written hk hpart (env_inBoth_closed hr (.inl hscr))
  exact peek_eq_of_mem_get (by rw [h.mem]; exact hstands)

/-- A byte of an image in its payload is a byte of the payload. -/
theorem image_getElem_payload (pl : Platform) (h1 : payloadOffset g ≤ k) (h2 : k < payloadOffset g + z.length) :
    (image pl g z)[k]? = z[k - payloadOffset g]? := by
  have hsplit : image pl g z = (imageHead pl g ++ be32 (BitVec.ofNat 32 z.length) ++ tag tagIDAT)
      ++ (z ++ (be32 (chunkCrc tagIDAT z) ++ iendBytes)) := by
    simp only [image, chunk, List.append_assoc]
  have hlen : (imageHead pl g ++ be32 (BitVec.ofNat 32 z.length) ++ tag tagIDAT).length = payloadOffset g := by
    simp [payloadOffset_eq pl]
  rw [hsplit, List.getElem?_append_right (by omega), hlen, List.getElem?_append_left (by omega)]

/-- A payload byte of the image outside the scratch window, read back from outside the output range. -/
theorem Built.peek_payload (h : Built s g z rest t p q) (hk : (image s.plat g z)[k]? = some b)
    (hr : s.outAddr + k ∉ s.raced)
    (hscr : s.outAddr + k < s.scrBase.toNat ∨ s.scrBase.toNat + s.scrCap.toNat ≤ s.outAddr + k)
    (h1 : payloadOffset g ≤ k) (h2 : k < payloadOffset g + z.length)
    (hsr : s.scrBase.toNat + (k - payloadOffset g) ∉ s.raced)
    (hsout : s.scrBase.toNat + (k - payloadOffset g) < s.outAddr
      ∨ s.outAddr + imageLen g z.length ≤ s.scrBase.toNat + (k - payloadOffset g)) :
    t.peek (s.outAddr + k) = b := by
  have hplace : s.outAddr + payloadOffset g + (k - payloadOffset g) = s.outAddr + k := by omega
  have hcopied := writeImage_payload h.written (k := k - payloadOffset g) (by omega)
    (env_inBoth_closed hsr (.inr hsout)) (by rw [hplace]; exact env_inBoth_closed hr (.inl hscr)) hsout
  rw [image_getElem_payload _ h1 h2] at hk
  rw [hplace, h.byteAt_source hk hsr hsout] at hcopied
  rw [State.peek, h.mem]
  exact hcopied

/-- Where the whole payload lies outside the output range and the host raced for none of it, the image is written as
it is (R230), whatever else of the scratch window the image covers. -/
theorem Built.writes_image (h : Built s g z rest t p q) (hpass : BuildPasses s g z rest)
    (hr : unraced s s.scrBase.toNat z.length)
    (hd : disjoint s.scrBase.toNat z.length s.outAddr (imageLen g z.length)) :
    ∃ r, writeBytes (s.env (buildOverlap s (imageLen g z.length))) s.outAddr (image s.plat g z) r = .done () q := by
  have hout : ∀ x, s.scrBase.toNat ≤ x → x < s.scrBase.toNat + z.length →
      x < s.outAddr ∨ s.outAddr + imageLen g z.length ≤ x := fun x h1 h2 => by
    by_contra hcon
    exact hd x ⟨⟨h1, h2⟩, by omega, by omega⟩
  have hbytes : memBytes (openOverlap s (bound s.plat (ccfgProv s.ccfg) (pixSize g)) (imageLen g z.length) p).mem
      s.scrBase.toNat z.length = z := by
    apply memBytes_of_stands
    intro k b hk
    obtain ⟨hlt, -⟩ := List.getElem?_eq_some_iff.1 hk
    exact h.byteAt_source hk (hr _ (by omega) (by omega)) (hout _ (by omega) (by omega))
  have heq := writeImage_eq (e := s.env (buildOverlap s (imageLen g z.length))) (g := g)
    (openOverlap s (bound s.plat (ccfgProv s.ccfg) (pixSize g)) (imageLen g z.length) p) hpass.scrReads
    (fun x h1 h2 => env_inBoth_closed (hr x h1 h2) (.inr (hout x h1 h2))) hd
  rw [hbytes, env_plat] at heq
  exact ⟨_, heq.symm.trans h.written⟩

/-- Any byte of the image outside the scratch window, where the whole payload lies outside the output range. -/
theorem Built.peek_image (h : Built s g z rest t p q) (hpass : BuildPasses s g z rest)
    (hk : (image s.plat g z)[k]? = some b) (hr : s.outAddr + k ∉ s.raced)
    (hscr : s.outAddr + k < s.scrBase.toNat ∨ s.scrBase.toNat + s.scrCap.toNat ≤ s.outAddr + k)
    (hpr : unraced s s.scrBase.toNat z.length)
    (hd : disjoint s.scrBase.toNat z.length s.outAddr (imageLen g z.length)) : t.peek (s.outAddr + k) = b := by
  obtain ⟨r, hwrites⟩ := h.writes_image hpass hpr hd
  have hstands := writeBytes_stands hwrites hk (env_inBoth_closed hr (.inl hscr))
  exact peek_eq_of_mem_get (by rw [h.mem]; exact hstands)

end

/-- Settles O59: the four clauses on a byte of the image, then the scratch window, then every other byte. -/
theorem buildUnderOverlap : Obligations.BuildUnderOverlap := by
  intro s g z rest hg hc hcap hend ha hz hlen hf hsw hsr how
  have hpass : BuildPasses s g z rest := ⟨hg, hc, hcap, hend, ha, hz, hlen, hf, hsw, hsr, how⟩
  obtain ⟨t, p, q, hexec, hbuilt⟩ := exec_build_done hpass
  refine ⟨t, hexec, hbuilt.regs, hbuilt.outPos, hbuilt.result, hbuilt.idatLen, fun k b hk hr hscr hpart => ?_,
    fun k b hk hr hout => hbuilt.peek_scratch hk hr hout, fun a hout hscr => hbuilt.peek_frame hout hscr⟩
  obtain hbefore | hafter | ⟨hlast, hsraced, hsout⟩ | ⟨hpr, hd⟩ := hpart
  · exact hbuilt.peek_fixed hk hr hscr (.inl hbefore)
  · exact hbuilt.peek_fixed hk hr hscr (.inr hafter)
  · by_cases hfirst : payloadOffset g ≤ k
    · exact hbuilt.peek_payload hk hr hscr hfirst hlast hsraced hsout
    · exact hbuilt.peek_fixed hk hr hscr (.inl (by omega))
  · exact hbuilt.peek_image hpass hk hr hscr hpr hd

end Sys2Proof.Machine
end

section
/-! The command words: which of them decode (R101, R102), and the end of those that do not (R104). -/

namespace Sys2Proof.Machine

variable {s : State} {w : Word} {i : Instr}

theorem eq_encode_iff : w = encode i ↔ w.toNat = opcode i := by
  rw [← BitVec.toNat_inj, encode_toNat]

/-- Settles O2: both sides say that the word's number is the opcode. -/
theorem decodeIsExactlyTheTable : Obligations.DecodeIsExactlyTheTable := by
  intro w i
  rw [decode_ok_iff, eq_encode_iff]

/-- The words of R104, by their fields OP and MBZ. -/
theorem decode_illegal_iff :
    (∀ i, decode w ≠ .ok i) ↔ w.toNat % 256 = 0 ∨ 0x0C ≤ w.toNat % 256 ∨ w.toNat / 256 ≠ 0 := by
  rw [← not_exists, decode_ok_wellFormed]
  omega

/-- Settles O1: the first five words are the encodings of their commands. -/
theorem tableWordsDecode : Obligations.TableWordsDecode := by
  have hillegal : decode 0x00000000#32 = .error .noSuchOpcode ∧ decode 0x0000000C#32 = .error .noSuchOpcode
      ∧ decode 0x00000101#32 = .error .mustBeZero := by decide
  exact ⟨decode_encode .crc, decode_encode .emitChunk, decode_encode .size, decode_encode .compress,
    decode_encode .build, hillegal⟩

/-- In the engine's turn a pending word that selects no command is the error completion with ILLEGAL (R101, R254). -/
theorem step_of_illegal (hrst : s.rst = false) (hpending : s.pending = some w) (hturn : engineTurn s = true)
    (h : ∀ i, decode w ≠ .ok i) : step s = .next (failed s .illegal) := by
  cases hw : decode w with
  | ok i => exact absurd hw (h i)
  | error e =>
    rw [step_of_decode_error hrst hpending hturn hw, illegalWord, errorCompletion_port]

/-- Settles O3: the illegal words by their fields, and the engine's turn on one of them. -/
theorem illegalWordsComplete : Obligations.IllegalWordsComplete := by
  intro s w
  exact ⟨decode_illegal_iff, fun hrst hpending hturn => step_of_illegal hrst hpending (engineTurn_iff.mpr hturn)⟩

end Sys2Proof.Machine
end

section
/-! The checks of EMIT_CHUNK and EMIT_IDAT, each before any access (R155, R170, R253). -/

namespace Sys2Proof.Machine

variable {i : Instr} {s : State} {c : Copied} {e : ErrCode}

theorem copied_emitChunk (h : validTag s.type = true) :
    copied s .emitChunk = some ⟨s.type, s.srcAddr.toNat, s.srcLen.toNat⟩ := by
  simp [copied, h]

theorem copied_emitIdat (h : s.status.idatv = true) :
    copied s .emitIdat = some ⟨tagIDAT, s.scrBase.toNat, s.idatLen.toNat⟩ := by
  simp [copied, h]

/-- The commands that copy a chunk are two, and what each has checked when it does (R155, R170). -/
theorem copied_eq_some (h : copied s i = some c) :
    i = .emitChunk ∧ validTag s.type = true ∧ c = ⟨s.type, s.srcAddr.toNat, s.srcLen.toNat⟩
      ∨ i = .emitIdat ∧ s.status.idatv = true ∧ c = ⟨tagIDAT, s.scrBase.toNat, s.idatLen.toNat⟩ := by
  cases i <;> simp [copied] at h
  case emitChunk => exact .inl ⟨rfl, h.1, h.2.symm⟩
  case emitIdat => exact .inr ⟨rfl, h.1, h.2.symm⟩

/-- A payload that passes address 0xFFFFFFFF ends a copying command before its output check (R81, R170). -/
theorem exec_copied_of_source_past_end (h : copied s i = some c) (hpos : 0 < c.len) (hend : addrLimit < c.src + c.len) :
    exec i s = .next (failed s .addr) := by
  obtain ⟨rfl, htag, rfl⟩ | ⟨rfl, hheld, rfl⟩ := copied_eq_some h
  · simp [exec, execEmitChunk, htag, srcCheck_addr hpos hend]
  · simp [exec, execEmitIdat, hheld, pastEnd_eq_true.2 ⟨hpos, hend⟩]

/-- A copying command whose payload lies in the memory space raises what the output check finds (R80). -/
theorem exec_copied_of_outCheck (h : copied s i = some c) (hsrc : c.len = 0 ∨ c.src + c.len ≤ addrLimit)
    (hout : outCheck s (c.len + 12) = some e) : exec i s = .next (failed s e) := by
  obtain ⟨rfl, htag, rfl⟩ | ⟨rfl, hheld, rfl⟩ := copied_eq_some h
  · simp [exec, execEmitChunk, htag, srcCheck_none.2 hsrc, hout]
  · simp [exec, execEmitIdat, hheld, pastEnd_eq_false.2 hsrc, hout]

/-- Settles O43: the first check of each command is its own, and the later ones are those of a copied chunk. -/
theorem copiedChunkChecksInOrder : Obligations.CopiedChunkChecksInOrder := by
  refine ⟨fun t => List.contains_iff_mem, fun s => ⟨fun hno => ?_, fun htag => ?_, fun htag hsrc hcap => ?_,
    fun htag hsrc hcap hend => ?_, fun hno => ?_, fun hheld => ?_, fun hheld hsrc hcap => ?_,
    fun hheld hsrc hcap hend => ?_⟩⟩
  · simp [exec, execEmitChunk, hno]
  · exact exec_copied_of_source_past_end (copied_emitChunk htag)
  · exact exec_copied_of_outCheck (copied_emitChunk htag) hsrc (outCheck_bounds hcap)
  · exact exec_copied_of_outCheck (copied_emitChunk htag) hsrc (outCheck_addr (Nat.succ_pos _) hcap hend)
  · simp [exec, execEmitIdat, hno]
  · exact exec_copied_of_source_past_end (copied_emitIdat hheld)
  · exact exec_copied_of_outCheck (copied_emitIdat hheld) hsrc (outCheck_bounds hcap)
  · exact exec_copied_of_outCheck (copied_emitIdat hheld) hsrc (outCheck_addr (Nat.succ_pos _) hcap hend)

end Sys2Proof.Machine
end

section
/-! Accepted output commands, one after the other: what they have emitted into the output window (R151, R153). -/

namespace Sys2Proof.Machine

variable {s t u : State} {w : Word} {i : Instr} {g : ImgCfg} {bs cs : List Byte} {v v' : Bool} {m n : Nat}

/-! ### The output window, and what has been emitted into it -/

/-- The output window takes `n` more bytes: the check of R80 passes and the memory port admits the writes. -/
structure OutTakes (s : State) (n : Nat) : Prop where
  fits : outFits s n
  writes : admits s s.outAddr n .write

theorem OutTakes.mono (h : OutTakes s n) (hle : m ≤ n) : OutTakes s m := by
  obtain ⟨⟨hcap, hend⟩, hw⟩ := h
  exact ⟨⟨by omega, by omega⟩, fun a h1 h2 => hw a h1 (by omega)⟩

/-- Accepted output commands have emitted `bs` between `s` and `t`, and left IDATV at `v` (R151, R256): the bytes stand
where OUT_POS was, OUT_POS is past them, and nothing else has changed but RESULT, CRC and STATUS. -/
structure Emits (s t : State) (bs : List Byte) (v : Bool) : Prop where
  regs : t = { s with
    outPos := t.outPos, result := t.result, crc := t.crc,
    status := { okStatus s with err := false, ecode := .noError, idatv := v },
    pending := none, busyLeft := 0, raced := [], mem := t.mem, draws := t.draws }
  outPos : t.outPos.toNat = s.outPos.toNat + bs.length
  stands : ∀ k b, bs[k]? = some b → t.peek (s.outAddr + k) = b
  frame : sameOutside s t s.outAddr bs.length

theorem Emits.outBase (h : Emits s t bs v) : t.outBase = s.outBase := (congrArg State.outBase h.regs :)

theorem Emits.outCap (h : Emits s t bs v) : t.outCap = s.outCap := (congrArg State.outCap h.regs :)

theorem Emits.plat (h : Emits s t bs v) : t.plat = s.plat := (congrArg State.plat h.regs :)

theorem Emits.ccfg (h : Emits s t bs v) : t.ccfg = s.ccfg := (congrArg State.ccfg h.regs :)

theorem Emits.scrBase (h : Emits s t bs v) : t.scrBase = s.scrBase := (congrArg State.scrBase h.regs :)

theorem Emits.idatv (h : Emits s t bs v) : t.status.idatv = v := (congrArg (·.status.idatv) h.regs :)

theorem Emits.outAddr (h : Emits s t bs v) : t.outAddr = s.outAddr + bs.length := by
  rw [State.outAddr, State.outAddr, h.outBase, h.outPos, Nat.add_assoc]

theorem Emits.fixedBytes (h : Emits s t bs v) (i : Instr) : fixedBytes t i = fixedBytes s i := by
  rw [h.regs]
  cases i <;> rfl

/-- What is left of the output window (R80, R153). -/
theorem Emits.outTakes (h : Emits s t bs v) (hs : OutTakes s (bs.length + n)) : OutTakes t n := by
  obtain ⟨⟨hcap, hend⟩, hw⟩ := hs
  refine ⟨⟨?_, ?_⟩, fun a h1 h2 => ?_⟩
  · rw [h.outPos, h.outCap]; omega
  · rw [h.outPos, h.outBase]; omega
  · rw [h.outAddr] at h1 h2
    rw [h.plat]
    exact hw a (by omega) (by omega)

theorem Emits.trans (h : Emits s t bs v) (h' : Emits t u cs v') : Emits s u (bs ++ cs) v' := by
  have haddr := h.outAddr
  refine ⟨?_, ?_, fun k b hk => ?_, fun a ha => ?_⟩
  · have hregs := h'.regs
    rw [h.regs] at hregs
    exact hregs
  · rw [h'.outPos, h.outPos, List.length_append, Nat.add_assoc]
  · by_cases hfirst : k < bs.length
    · rw [List.getElem?_append_left hfirst] at hk
      rw [h'.frame _ (.inl (by omega)), h.stands k b hk]
    · rw [List.getElem?_append_right (by omega)] at hk
      have hstands := h'.stands _ b hk
      rwa [haddr, show s.outAddr + bs.length + (k - bs.length) = s.outAddr + k by omega] at hstands
  · rw [List.length_append] at ha
    rw [h'.frame a (by omega), h.frame a (by omega)]

/-- An accepted output command that completes emits its bytes: the word accepted leaves no race behind (R87). -/
theorem Emits.of_outputDone {c : Word} (hdone : outputDone (startCommand w s) t bs.length c v)
    (hstands : standsAt (startCommand w s) t s.outAddr bs) : Emits s t bs v ∧ t.crc = c := by
  obtain ⟨hregs, hpos, -, hframe⟩ := hdone
  have hcrc : t.crc = c := congrArg State.crc hregs
  exact ⟨⟨hcrc ▸ hregs, hpos, fun k b hk => hstands k b hk List.not_mem_nil, hframe⟩, hcrc⟩

/-! ### One command after the other -/

theorem runAll_cons {l : List Instr} (h : exec i (startCommand (encode i) s) = .next t) :
    runAll (i :: l) s = runAll l t := by
  simp only [runAll, h]

theorem runAll_append {l m : List Instr} (h : runAll l s = .next t) : runAll (l ++ m) s = runAll m t := by
  induction l generalizing s with
  | nil =>
    simp only [runAll, Host.Outcome.next.injEq] at h
    rw [h, List.nil_append]
  | cons i l ih =>
    rw [List.cons_append]
    simp only [runAll] at h ⊢
    split at h
    · exact ih h
    · cases h
    · cases h

/-- An accepted command that is an `emit` and writes no other register than CRC (R151). -/
theorem exec_emits_of_emit {d : State} (hpos : 0 < bs.length)
    (hexec : exec i (startCommand (encode i) s) = emit (startCommand (encode i) s) bs d)
    (hd : d = { startCommand (encode i) s with crc := d.crc }) (hs : OutTakes s bs.length) :
    ∃ t, exec i (startCommand (encode i) s) = .next t ∧ Emits s t bs s.status.idatv ∧ t.crc = d.crc := by
  obtain ⟨t, hemit, hdone, hstands⟩ := emit_done (s := startCommand (encode i) s) hpos hs.fits hs.writes hd
  exact ⟨t, hexec.trans hemit, Emits.of_outputDone hdone hstands⟩

/-- An accepted fixed-content command. -/
theorem exec_emits_fixed (hbs : fixedBytes s i = some bs) (hs : OutTakes s bs.length) :
    ∃ t, exec i (startCommand (encode i) s) = .next t ∧ Emits s t bs s.status.idatv := by
  have hstart : fixedBytes (startCommand (encode i) s) i = some bs := by
    rw [← hbs]
    cases i <;> rfl
  obtain ⟨hpos, d, hexec, hd⟩ := exec_fixed hstart
  obtain ⟨t, hnext, hemits, -⟩ := exec_emits_of_emit hpos hexec hd hs
  exact ⟨t, hnext, hemits⟩

/-- Fixed-content commands in a row emit their bytes in a row. -/
theorem runAll_emits_fixed {l : List Instr} {bss : List (List Byte)}
    (hl : List.Forall₂ (fun i b => fixedBytes s i = some b) l bss) (h : Emits s t bs v)
    (hs : OutTakes s (bs ++ bss.flatten).length) : ∃ u, runAll l t = .next u ∧ Emits s u (bs ++ bss.flatten) v := by
  induction hl generalizing t bs with
  | nil => exact ⟨t, rfl, by simpa using h⟩
  | @cons i b l bss hi _ ih =>
    rw [List.flatten_cons, ← List.append_assoc] at hs ⊢
    have htakes : OutTakes t b.length := h.outTakes (hs.mono (by simp))
    obtain ⟨t', hexec, hemits⟩ := exec_emits_fixed ((h.fixedBytes i).trans hi) htakes
    rw [h.idatv] at hemits
    obtain ⟨u, hrun, hu⟩ := ih (h.trans hemits) hs
    exact ⟨u, (runAll_cons hexec).trans hrun, hu⟩

/-! ### The chunks before IDAT -/

/-- The commands that write an image up to its IDAT chunk, in the order of R117. -/
def headCommands (g : ImgCfg) : List Instr :=
  [.emitSig, .emitIhdr] ++ (if g.ct = .indexed then [Instr.emitPlte] else []) ++ [.emitTrns]

/-- The fixed-content commands of an image write its part before IDAT (R230). -/
theorem runAll_headCommands (hg : imgCfg s.cfg = some g) (hs : OutTakes s (imageHead s.plat g).length) :
    ∃ t, runAll (headCommands g) s = .next t ∧ Emits s t (imageHead s.plat g) s.status.idatv := by
  have hihdr : fixedBytes s .emitIhdr = some (chunk tagIHDR (ihdrPayload g)) := by simp [fixedBytes, hg]
  have hplte : fixedBytes s .emitPlte = some (chunk tagPLTE (plteEntry0 s.plat)) := rfl
  have htrns : fixedBytes s .emitTrns = some (chunk tagTRNS (trnsPayload s.plat g)) := by simp [fixedBytes, hg]
  have hchunks : ∃ l bss, headCommands g = .emitSig :: l ∧ List.Forall₂ (fun i b => fixedBytes s i = some b) l bss
      ∧ imageHead s.plat g = signature ++ bss.flatten := by
    by_cases hct : g.ct = .indexed
    · exact ⟨_, _, by rw [headCommands, if_pos hct]; rfl, .cons hihdr (.cons hplte (.cons htrns .nil)),
        by simp [imageHead, ImgCfg.palette, hct]⟩
    · exact ⟨_, _, by rw [headCommands, if_neg hct]; rfl, .cons hihdr (.cons htrns .nil),
        by simp [imageHead, ImgCfg.palette, hct]⟩
  obtain ⟨l, bss, hcommands, hbss, hhead⟩ := hchunks
  rw [hcommands, hhead]
  rw [hhead] at hs
  obtain ⟨t, hsig, hemits⟩ := exec_emits_fixed (s := s) (i := .emitSig) rfl (hs.mono (by simp))
  obtain ⟨u, hrun, hu⟩ := runAll_emits_fixed hbss hemits hs
  exact ⟨u, (runAll_cons hsig).trans hrun, hu⟩

end Sys2Proof.Machine
end

section
/-! The payload of an image: COMPRESS, which holds it, and EMIT_IDAT, which emits it (R170, R212). -/

namespace Sys2Proof.Machine

variable {s t : State} {i : Instr} {g : ImgCfg} {z bs : List Byte} {rest : List Answer} {v : Bool} {a n : Nat}

/-! ### COMPRESS -/

/-- The conditions under which COMPRESS holds a payload (R201, R204, R209, R212). The state of
`witness_CompressHoldsThePayload` meets them. -/
structure CompressPasses (s : State) (g : ImgCfg) (z : List Byte) (rest : List Answer) : Prop where
  cfg : imgCfg s.cfg = some g
  ccfg : cmpCfgOk s.plat s.ccfg = true
  scrFits : bound s.plat (ccfgProv s.ccfg) (pixSize g) ≤ s.scrCap.toNat
  scrEnds : s.scrBase.toNat + bound s.plat (ccfgProv s.ccfg) (pixSize g) ≤ addrLimit
  answer : s.answers = .ok z :: rest
  nonempty : z ≠ []
  bounded : z.length ≤ bound s.plat (ccfgProv s.ccfg) (pixSize g)
  scrWrites : admits s s.scrBase.toNat z.length .write

/-- COMPRESS as its compression phase leaves it: the register writes of R212, and the memory of R210. -/
theorem exec_compress_done (h : CompressPasses s g z rest) :
    ∃ p, exec .compress s = .next (successCompletion (writeIdatv (writeResult (writeIdatLen
          { s with answers := rest, sent := s.sent ++ [request g s.ccfg] } z.length) (BitVec.ofNat 32 z.length)) true) p)
      ∧ (∀ x, x < s.scrBase.toNat ∨ s.scrBase.toNat + bound s.plat (ccfgProv s.ccfg) (pixSize g) ≤ x →
          p.mem.get x = s.mem.get x)
      ∧ (∀ k b, z[k]? = some b → s.scrBase.toNat + k ∉ s.raced → p.mem.get (s.scrBase.toNat + k) = some b) := by
  obtain ⟨p, hrun, hframe, hpayload⟩ := runCompress_done h.cfg h.ccfg h.scrFits h.scrEnds h.answer h.nonempty
    h.bounded h.scrWrites
  exact ⟨p, by simp only [exec, execCompress, hrun], hframe, hpayload⟩

/-- An accepted COMPRESS has led from `s` to `t`, put `z` in the scratch window and holds it (R212). -/
structure HoldsPayload (s t : State) (g : ImgCfg) (z : List Byte) (rest : List Answer) : Prop where
  regs : t = { s with
    idatLen := BitVec.ofNat 32 z.length, result := t.result,
    status := { okStatus s with err := false, ecode := .noError, idatv := true },
    pending := none, busyLeft := 0, raced := [], mem := t.mem, draws := t.draws,
    answers := rest, sent := s.sent ++ [request g s.ccfg] }
  payload : ∀ k b, z[k]? = some b → t.peek (s.scrBase.toNat + k) = b
  frame : sameOutside s t s.scrBase.toNat (bound s.plat (ccfgProv s.ccfg) (pixSize g))

/-- The length of a payload is a value of IDAT_LEN. -/
theorem CompressPasses.length_lt (h : CompressPasses s g z rest) : z.length < 4294967296 :=
  h.bounded.trans_lt (h.scrFits.trans_lt s.scrCap.isLt)

theorem BuildPasses.compressPasses (h : BuildPasses s g z rest) : CompressPasses s g z rest :=
  ⟨h.cfg, h.ccfg, h.scrFits, h.scrEnds, h.answer, h.nonempty, h.bounded, h.scrWrites⟩

theorem BuildPasses.length_le_scrCap (h : BuildPasses s g z rest) : z.length ≤ s.scrCap.toNat :=
  h.bounded.trans h.scrFits

/-- Output commands leave what COMPRESS needs as it was. -/
theorem Emits.compressPasses (h : Emits s t bs v) (hs : CompressPasses s g z rest) : CompressPasses t g z rest := by
  rw [h.regs]
  exact ⟨hs.cfg, hs.ccfg, hs.scrFits, hs.scrEnds, hs.answer, hs.nonempty, hs.bounded, hs.scrWrites⟩

theorem HoldsPayload.scrBase (h : HoldsPayload s t g z rest) : t.scrBase = s.scrBase :=
  (congrArg State.scrBase h.regs :)

theorem HoldsPayload.plat (h : HoldsPayload s t g z rest) : t.plat = s.plat := (congrArg State.plat h.regs :)

theorem HoldsPayload.outAddr (h : HoldsPayload s t g z rest) : t.outAddr = s.outAddr :=
  (congrArg State.outAddr h.regs :)

theorem HoldsPayload.idatv (h : HoldsPayload s t g z rest) : t.status.idatv = true :=
  (congrArg (·.status.idatv) h.regs :)

theorem HoldsPayload.idatLen (h : HoldsPayload s t g z rest) : t.idatLen = BitVec.ofNat 32 z.length :=
  (congrArg State.idatLen h.regs :)

theorem HoldsPayload.outTakes (h : HoldsPayload s t g z rest) (hs : OutTakes s n) : OutTakes t n := by
  rw [h.regs]
  exact ⟨hs.fits, hs.writes⟩

/-- The word accepted leaves no race behind, so the whole payload is the backend's (R87, R210). -/
theorem exec_compress_holds (h : CompressPasses s g z rest) :
    ∃ t, exec .compress (startCommand (encode .compress) s) = .next t ∧ HoldsPayload s t g z rest := by
  obtain ⟨p, hexec, hframe, hpayload⟩ := exec_compress_done (s := startCommand (encode .compress) s)
    ⟨h.cfg, h.ccfg, h.scrFits, h.scrEnds, h.answer, h.nonempty, h.bounded, h.scrWrites⟩
  exact ⟨_, hexec, rfl, fun k b hk => peek_eq_of_mem_get (hpayload k b hk List.not_mem_nil),
    fun x hx => peek_eq_of_get (hframe x hx)⟩

/-! ### EMIT_IDAT -/

/-- A copying command whose windows do not overlap and whose payload the host did not race for writes the chunk of the
payload memory holds, and reports its CRC (R155, R170). -/
theorem exec_copied_writes {c : Copied} (h : copied s i = some c) (hsrc : c.len = 0 ∨ c.src + c.len ≤ addrLimit)
    (hf : outFits s (c.len + 12)) (hr : admits s c.src c.len .read) (hw : admits s s.outAddr (c.len + 12) .write)
    (hd : disjoint c.src c.len s.outAddr (c.len + 12)) (hraced : unraced s c.src c.len) :
    ∃ t, exec i s = .next t
      ∧ outputDone s t (c.len + 12) (chunkCrc c.tag (bytesAt s c.src c.len))
          (if i = .emitIdat then false else s.status.idatv)
      ∧ standsAt s t s.outAddr (chunk c.tag (bytesAt s c.src c.len)) := by
  obtain ⟨t, x, q, hexec, hcopy, hmem, hdone⟩ := exec_copied_done h hsrc hf hr hw
  obtain ⟨r, hwrites⟩ := writeBytes_done (e := s.env (inBoth c.src c.len s.outAddr (c.len + 12)))
    (chunk c.tag (bytesAt s c.src c.len)) (a := s.outAddr) s.port
    (fun y h1 h2 => hw y h1 (by simpa [bytesAt_eq] using h2))
  have heq := copyChunk_eq (e := s.env (inBoth c.src c.len s.outAddr (c.len + 12))) (t := c.tag) s.port hr
    (fun y h1 h2 => env_disjoint_closed hd hraced h1 h2) hd
  rw [port_mem, ← bytesAt_eq, hwrites, hcopy, andThen_done, Access.done.injEq] at heq
  obtain ⟨rfl, rfl⟩ := heq
  exact ⟨t, hexec, hdone, standsAt_of_writes hwrites hmem fun y h1 h2 =>
    inBoth_right hd h1 (by simpa [bytesAt_eq] using h2)⟩

theorem bytesAt_of_stands (h : ∀ k b, bs[k]? = some b → s.peek (a + k) = b) :
    bytesAt s a bs.length = bs :=
  memBytes_of_stands h

/-- An accepted EMIT_IDAT that has `z` to emit (R170). -/
theorem exec_emits_idat (hheld : s.status.idatv = true) (hlen : s.idatLen.toNat = z.length)
    (hz : ∀ k b, z[k]? = some b → s.peek (s.scrBase.toNat + k) = b) (hend : s.scrBase.toNat + z.length ≤ addrLimit)
    (hr : admits s s.scrBase.toNat z.length .read) (hs : OutTakes s (z.length + 12))
    (hd : disjoint s.scrBase.toNat z.length s.outAddr (z.length + 12)) :
    ∃ t, exec .emitIdat (startCommand (encode .emitIdat) s) = .next t ∧ Emits s t (chunk tagIDAT z) false := by
  have hcopied : copied (startCommand (encode .emitIdat) s) .emitIdat
      = some ⟨tagIDAT, s.scrBase.toNat, z.length⟩ := by
    rw [copied_emitIdat (s := startCommand (encode .emitIdat) s) hheld, startCommand_scrBase, startCommand_idatLen,
      hlen]
  obtain ⟨t, hexec, hdone, hstands⟩ := exec_copied_writes hcopied (.inr hend) hs.fits hr hs.writes hd
    fun _ _ _ => List.not_mem_nil
  have hbytes : bytesAt (startCommand (encode .emitIdat) s) s.scrBase.toNat z.length = z := bytesAt_of_stands hz
  simp only [hbytes] at hdone hstands
  rw [← chunk_length tagIDAT z] at hdone
  exact ⟨t, hexec, (Emits.of_outputDone hdone hstands).1⟩

/-- COMPRESS and the two chunks after the head of an image (R117, R170, R212). -/
theorem runAll_compress_idat_iend (h : CompressPasses s g z rest) (hs : OutTakes s (z.length + 12 + 12))
    (hr : admits s s.scrBase.toNat z.length .read)
    (hd : disjoint s.scrBase.toNat z.length s.outAddr (z.length + 12)) :
    ∃ t u, runAll [.compress, .emitIdat, .emitIend] s = .next u ∧ HoldsPayload s t g z rest
      ∧ Emits t u (chunk tagIDAT z ++ iendBytes) false ∧ u.crc = iendCrc := by
  obtain ⟨t, hcompress, hheld⟩ := exec_compress_holds h
  have htakes : OutTakes t (z.length + 12 + 12) := hheld.outTakes hs
  have hlen : t.idatLen.toNat = z.length := by
    rw [hheld.idatLen, toNat_ofNat_lt h.length_lt]
  have hend : s.scrBase.toNat + z.length ≤ addrLimit := (Nat.add_le_add_left h.bounded _).trans h.scrEnds
  obtain ⟨t', hidat, hchunk⟩ := exec_emits_idat hheld.idatv hlen (by rw [hheld.scrBase]; exact hheld.payload)
    (by rwa [hheld.scrBase]) (by unfold admits; rwa [hheld.scrBase, hheld.plat]) (htakes.mono (by omega))
    (by rwa [hheld.scrBase, hheld.outAddr])
  have htakes' : OutTakes t' iendBytes.length := hchunk.outTakes (by rwa [chunk_length])
  obtain ⟨u, hiend, htrailer, hcrc⟩ := exec_emits_of_emit (i := .emitIend)
    (d := writeCrc (startCommand (encode .emitIend) t') iendCrc) (by decide) rfl rfl htakes'
  rw [hchunk.idatv] at htrailer
  refine ⟨t, u, ?_, hheld, hchunk.trans htrailer, hcrc⟩
  rw [runAll_cons hcompress, runAll_cons hidat, runAll_cons hiend, runAll]

end Sys2Proof.Machine
end

section
/-! The two ways to an image: the separate commands in its order, and BUILD (R117, R232). -/

namespace Sys2Proof.Machine

variable {s t : State} {g : ImgCfg} {z : List Byte} {rest : List Answer} {b1 n1 b2 n2 x : Nat}

/-! ### Ranges -/

theorem outside_of_disjoint (h : disjoint b1 n1 b2 n2) (h1 : b2 ≤ x) (h2 : x < b2 + n2) : x < b1 ∨ b1 + n1 ≤ x := by
  have := h x
  omega

/-- A part of a range that lies apart from another lies apart from a part of it. -/
theorem disjoint_mono {b n c m : Nat} (h : disjoint b1 n1 b2 n2) (h1 : b1 ≤ b ∧ b + n ≤ b1 + n1)
    (h2 : b2 ≤ c ∧ c + m ≤ b2 + n2) : disjoint b n c m := fun a ha => h a (by omega)

/-! ### The image as either way leaves it -/

/-- The image of `z` has been written since `s` (R117, R232): its bytes stand where OUT_POS was, and OUT_POS, IDAT_LEN,
CRC, STATUS and the requests sent are as a success leaves them. -/
structure ImageWritten (s t : State) (g : ImgCfg) (z : List Byte) : Prop where
  stands : ∀ k b, (image s.plat g z)[k]? = some b → t.peek (s.outAddr + k) = b
  outPos : t.outPos.toNat = s.outPos.toNat + imageLen g z.length
  idatLen : t.idatLen.toNat = z.length
  crc : t.crc = iendCrc
  status : t.status = { okStatus s with err := false, ecode := .noError, idatv := false }
  sent : t.sent = s.sent ++ [request g s.ccfg]

theorem ImageWritten.bytesAt_eq (h : ImageWritten s t g z) :
    bytesAt t s.outAddr (imageLen g z.length) = image s.plat g z := by
  rw [← image_length s.plat]
  exact bytesAt_of_stands h.stands

/-! ### The separate commands -/

/-- The head of an image, the payload held, and the two chunks after it are an image (R230): the scratch window, which
COMPRESS writes in between, lies apart from it. -/
theorem ImageWritten.of_parts {a b : State} {v : Bool} (h : BuildPasses s g z rest)
    (hd : disjoint s.scrBase.toNat s.scrCap.toNat s.outAddr (imageLen g z.length))
    (hhead : Emits s a (imageHead s.plat g) v) (hheld : HoldsPayload a b g z rest)
    (htail : Emits b t (chunk tagIDAT z ++ iendBytes) false) (hcrc : t.crc = iendCrc) : ImageWritten s t g z := by
  have hlen := imageLen_eq s.plat g z.length
  have haddr : b.outAddr = s.outAddr + (imageHead s.plat g).length := hheld.outAddr.trans hhead.outAddr
  have hlast : (chunk tagIDAT z ++ iendBytes).length = z.length + 12 + 12 := by
    rw [List.length_append, chunk_length, iendBytes_length]
  refine ⟨fun k x hk => ?_, ?_, ?_, hcrc, ?_, ?_⟩
  · rw [image, List.append_assoc] at hk
    by_cases hfirst : k < (imageHead s.plat g).length
    · rw [List.getElem?_append_left hfirst] at hk
      have hapart := outside_of_disjoint hd (x := s.outAddr + k) (by omega) (by omega)
      have hfits := h.scrFits
      calc t.peek (s.outAddr + k) = b.peek (s.outAddr + k) := htail.frame _ (.inl (by omega))
        _ = a.peek (s.outAddr + k) := hheld.frame _ (by
            rw [hhead.scrBase, hhead.plat, hhead.ccfg]
            omega)
        _ = x := hhead.stands k x hk
    · rw [List.getElem?_append_right (by omega)] at hk
      have hstands := htail.stands _ x hk
      rwa [haddr, Nat.add_assoc, Nat.add_sub_cancel' (by omega)] at hstands
  · have hpos : b.outPos = a.outPos := (congrArg State.outPos hheld.regs :)
    rw [htail.outPos, hpos, hhead.outPos]
    omega
  · have hidat : t.idatLen = b.idatLen := (congrArg State.idatLen htail.regs :)
    rw [hidat, hheld.idatLen, toNat_ofNat_lt h.compressPasses.length_lt]
  · rw [htail.regs, hheld.regs, hhead.regs]
    rfl
  · have hsent : t.sent = b.sent := (congrArg State.sent htail.regs :)
    have hsent' : b.sent = a.sent ++ [request g a.ccfg] := (congrArg State.sent hheld.regs :)
    have hsent'' : a.sent = s.sent := (congrArg State.sent hhead.regs :)
    rw [hsent, hsent', hsent'', hhead.ccfg]

theorem runAll_writes_image (h : BuildPasses s g z rest)
    (hd : disjoint s.scrBase.toNat s.scrCap.toNat s.outAddr (imageLen g z.length)) :
    ∃ t, runAll (headCommands g ++ [.compress, .emitIdat, .emitIend]) s = .next t ∧ ImageWritten s t g z := by
  have hlen := imageLen_eq s.plat g z.length
  have hzcap := h.length_le_scrCap
  have htakes : OutTakes s ((imageHead s.plat g).length + (z.length + 12 + 12)) := by
    rw [← Nat.add_assoc, ← hlen]
    exact ⟨h.outEnds, h.outWrites⟩
  obtain ⟨a, hrun, hhead⟩ := runAll_headCommands h.cfg (htakes.mono (by omega))
  obtain ⟨b, t, hrun', hheld, htail, hcrc⟩ := runAll_compress_idat_iend (hhead.compressPasses h.compressPasses)
    (hhead.outTakes htakes) (by unfold admits; rw [hhead.scrBase, hhead.plat]; exact h.scrReads)
    (by rw [hhead.scrBase, hhead.outAddr]; exact disjoint_mono hd (by omega) (by omega))
  exact ⟨t, (runAll_append hrun).trans hrun', .of_parts h hd hhead hheld htail hcrc⟩

/-! ### BUILD -/

/-- BUILD reports the trailer of IEND where its windows lie apart (R232). -/
theorem Built.crc_of_disjoint {p q : Port} (h : Built s g z rest t p q)
    (hd : disjoint s.scrBase.toNat s.scrCap.toNat s.outAddr (imageLen g z.length)) : t.crc = iendCrc := by
  have hnone : bothLen s.scrBase.toNat s.scrCap.toNat s.outAddr (imageLen g z.length) = 0 := by
    have := hd (max s.scrBase.toNat s.outAddr)
    unfold bothLen
    omega
  rw [h.crc, hnone, buildCrc, if_pos rfl]

/-- BUILD writes the image where its windows lie apart and the host did not race for the payload (R230, R231). -/
theorem Built.standsAt_image {p q : Port} (h : Built s g z rest t p q) (hpass : BuildPasses s g z rest)
    (hd : disjoint s.scrBase.toNat s.scrCap.toNat s.outAddr (imageLen g z.length))
    (hr : unraced s s.scrBase.toNat z.length) : standsAt s t s.outAddr (image s.plat g z) := by
  intro k b hk hraced
  obtain ⟨hlt, -⟩ := List.getElem?_eq_some_iff.1 hk
  rw [image_length] at hlt
  have hapart := outside_of_disjoint hd (x := s.outAddr + k) (by omega) (by omega)
  have hzcap := hpass.length_le_scrCap
  exact h.peek_image hpass hk hraced hapart hr (disjoint_mono hd (by omega) (by omega))

theorem runAll_build_writes_image (h : BuildPasses s g z rest)
    (hd : disjoint s.scrBase.toNat s.scrCap.toNat s.outAddr (imageLen g z.length)) :
    ∃ t, runAll [.build] s = .next t ∧ ImageWritten s t g z := by
  have hstart : BuildPasses (startCommand (encode .build) s) g z rest := ⟨h.cfg, h.ccfg, h.scrFits, h.scrEnds,
    h.answer, h.nonempty, h.bounded, h.outEnds, h.scrWrites, h.scrReads, h.outWrites⟩
  obtain ⟨t, p, q, hexec, hbuilt⟩ := exec_build_done hstart
  have hstands := hbuilt.standsAt_image hstart hd fun _ _ _ => List.not_mem_nil
  exact ⟨t, runAll_cons hexec, fun k b hk => hstands k b hk List.not_mem_nil, hbuilt.outPos, hbuilt.idatLen,
    hbuilt.crc_of_disjoint hd, (congrArg State.status hbuilt.regs :), (congrArg State.sent hbuilt.regs :)⟩

/-- Settles O60: either way leaves what `ImageWritten` says. -/
theorem separateCommandsBuildTheImage : Obligations.SeparateCommandsBuildTheImage := by
  intro s g z rest hg hc hcap hend ha hz hlen hf hsw hsr how hd
  have hpass : BuildPasses s g z rest := ⟨hg, hc, hcap, hend, ha, hz, hlen, hf, hsw, hsr, how⟩
  obtain ⟨t, hrun, ht⟩ := runAll_writes_image hpass hd
  obtain ⟨u, hbuild, hu⟩ := runAll_build_writes_image hpass hd
  refine ⟨t, u, ?_, hbuild, ht.bytesAt_eq, hu.bytesAt_eq, ?_, ?_, ?_, ?_, ?_⟩
  · rw [← hrun, headCommands, List.append_assoc, List.append_assoc]
    rfl
  · exact BitVec.eq_of_toNat_eq (ht.outPos.trans hu.outPos.symm)
  · exact BitVec.eq_of_toNat_eq (ht.idatLen.trans hu.idatLen.symm)
  · exact ht.crc.trans hu.crc.symm
  · exact ht.status.trans hu.status.symm
  · exact ht.sent.trans hu.sent.symm

end Sys2Proof.Machine
end

section
/-! The CRC32 engine a byte at a time (R134), and the ends of the command CRC (R132). -/

namespace Sys2Proof.Machine

/-! ### The engine -/

theorem getLsbD_low_byte_mask {k : Nat} (hk : k < 8) : (0x000000FF#32).getLsbD k = true := by
  interval_cases k <;> rfl

/-- In eight shifts only the low byte meets the feedback; the bits above it move down. -/
theorem crcShift_eight (c : Word) : crcShift 8 c = (c >>> 8) ^^^ crcShift 8 (c &&& 0x000000FF#32) := by
  have hsplit : c = (c ^^^ (c &&& 0x000000FF#32)) ^^^ (c &&& 0x000000FF#32) := by
    rw [BitVec.xor_assoc, BitVec.xor_self, BitVec.xor_zero]
  have hlow : ∀ k, k < 8 → (c ^^^ (c &&& 0x000000FF#32)).getLsbD k = false := fun k hk => by
    rw [BitVec.getLsbD_xor, BitVec.getLsbD_and, getLsbD_low_byte_mask hk, Bool.and_true, Bool.xor_self]
  have hhigh : (c ^^^ (c &&& 0x000000FF#32)) >>> 8 = c >>> 8 := by
    simp [BitVec.ushiftRight_xor_distrib, BitVec.ushiftRight_and_distrib]
  calc crcShift 8 c
      = crcShift 8 ((c ^^^ (c &&& 0x000000FF#32)) ^^^ (c &&& 0x000000FF#32)) := congrArg _ hsplit
    _ = crcShift 8 (c ^^^ (c &&& 0x000000FF#32)) ^^^ crcShift 8 (c &&& 0x000000FF#32) := crcShift_xor ..
    _ = (c >>> 8) ^^^ crcShift 8 (c &&& 0x000000FF#32) := by rw [crcShift_high 8 _ hlow, hhigh]

theorem setWidth_byte_ushiftRight_eight (b : Byte) : b.setWidth 32 >>> 8 = 0#32 := by
  apply BitVec.eq_of_toNat_eq
  have := b.isLt
  simp
  omega

/-- Settles O30: the byte enters below bit 8, so the bits above are those of the accumulator. -/
theorem crcByTable : Obligations.CrcByTable := by
  intro c b
  rw [crcByte, crcShift_eight, BitVec.ushiftRight_xor_distrib, setWidth_byte_ushiftRight_eight, BitVec.xor_zero]

/-! ### The command -/

/-- Settles O31: the reads return what memory holds in the window, and CRC and RESULT receive its chunk CRC. -/
theorem crcCommandResult : Obligations.CrcCommandResult := by
  intro s hend hreads hraced
  have hread := readBytes_closed (e := s.env noOverlap) s.port hreads fun _ h1 h2 => env_closed hraced h1 h2
  simp only [exec, execCrc, srcCheck_none.2 hend, hread, bytesAt_eq]
  rfl

/-- Settles O32: the source check stands before every read, and reads, refused or not, leave memory as it was. -/
theorem crcCommandErrors : Obligations.CrcCommandErrors := by
  intro s
  refine ⟨fun hpos hend => ?_, fun a hlo hhi hend hno => ?_⟩
  · simp only [exec, execCrc, srcCheck_addr hpos hend, errorCompletion_port]
  · obtain ⟨q, hread⟩ := readBytes_refused (e := s.env noOverlap) s.port hlo hhi hno
    have hmem : q.mem = s.mem := by
      simpa [hread] using readBytes_mem (s.env noOverlap) s.srcLen.toNat s.srcAddr.toNat s.port
    refine ⟨errorCompletion s .mem q, ?_, ?_⟩
    · simp only [exec, execCrc, srcCheck_none.2 (.inr hend), hread]
    · simp only [errorCompletion, failed, hmem]

end Sys2Proof.Machine
end

section
/-! The serializer where its checks pass: the bytes each output command writes, written out, and the CRC it reports
(R150 to R170). -/

namespace Sys2Proof.Machine

variable {i : Instr} {s : State} {g : ImgCfg} {t : Word} {p : List Byte} {n : Nat}

/-! ### Chunks written out -/

theorem tag_tagIHDR : tag tagIHDR = [0x49#8, 0x48#8, 0x44#8, 0x52#8] := rfl

theorem tag_tagPLTE : tag tagPLTE = [0x50#8, 0x4C#8, 0x54#8, 0x45#8] := rfl

theorem tag_tagTRNS : tag tagTRNS = [0x74#8, 0x52#8, 0x4E#8, 0x53#8] := rfl

theorem tag_tagIDAT : tag tagIDAT = [0x49#8, 0x44#8, 0x41#8, 0x54#8] := rfl

theorem iendBytes_eq_chunk : iendBytes = chunk tagIEND [] := by decide +kernel

/-- The 25 bytes of the IHDR chunk (R113). -/
theorem chunk_ihdrPayload (g : ImgCfg) :
    chunk tagIHDR (ihdrPayload g) = [0x00#8, 0x00#8, 0x00#8, 0x0D#8, 0x49#8, 0x48#8, 0x44#8, 0x52#8]
      ++ be32 (BitVec.ofNat 32 g.width) ++ be32 (BitVec.ofNat 32 g.width)
      ++ [BitVec.ofNat 8 g.depth, colourCode g.ct, 0x00#8, 0x00#8, 0x00#8]
      ++ be32 (chunkCrc tagIHDR (ihdrPayload g)) := by
  rw [chunk, ihdrPayload_length, tag_tagIHDR]
  rfl

/-- The 15 bytes of the one-entry PLTE chunk (R114). -/
theorem chunk_plteEntry0 (pl : Platform) :
    chunk tagPLTE (plteEntry0 pl) = [0x00#8, 0x00#8, 0x00#8, 0x03#8, 0x50#8, 0x4C#8, 0x54#8, 0x45#8] ++ plteEntry0 pl
      ++ be32 (chunkCrc tagPLTE (plteEntry0 pl)) := by
  rw [chunk, plteEntry0_length, tag_tagPLTE]
  rfl

/-- A chunk whose payload is as long as a register says carries that register as its length (R110). -/
theorem chunk_of_length {len : Word} (h : p.length = len.toNat) :
    chunk t p = be32 len ++ tag t ++ p ++ be32 (chunkCrc t p) := by
  rw [chunk, h, BitVec.ofNat_toNat, BitVec.setWidth_eq]

/-! ### The fixed-content commands -/

/-- A command that emits a chunk and reports its trailer (R151). -/
theorem exec_writes_chunk (hexec : exec i s = emit s (chunk t p) (writeCrc s (chunkCrc t p)))
    (hn : p.length + 12 = n) (hf : outFits s n) (hw : admits s s.outAddr n .write) :
    ∃ u, exec i s = .next u ∧ outputDone s u n (chunkCrc t p) s.status.idatv ∧ standsAt s u s.outAddr (chunk t p) := by
  rw [← hn, ← chunk_length t p] at hf hw ⊢
  rw [hexec]
  exact emit_done (d := writeCrc s (chunkCrc t p)) (by simp) hf hw rfl

theorem exec_emitIhdr (h : imgCfg s.cfg = some g) :
    exec .emitIhdr s = emit s (chunk tagIHDR (ihdrPayload g)) (writeCrc s (chunkCrc tagIHDR (ihdrPayload g))) := by
  simp only [exec, execEmitIhdr, h]

theorem exec_emitTrns (h : imgCfg s.cfg = some g) :
    exec .emitTrns s
      = emit s (chunk tagTRNS (trnsPayload s.plat g)) (writeCrc s (chunkCrc tagTRNS (trnsPayload s.plat g))) := by
  simp only [exec, execEmitTrns, h]

/-- Settles O33: EMIT_SIG is an `emit` that leaves CRC as it is. -/
theorem emitSigWritesTheSignature : Obligations.EmitSigWritesTheSignature := by
  intro s hf hw
  exact emit_done (bs := signature) (d := s) (by decide) hf hw rfl

/-- Settles O34: an `emit` of the constant and its trailer; that the constant is a chunk is computed. -/
theorem emitIendWritesTheConstant : Obligations.EmitIendWritesTheConstant := by
  refine ⟨fun s hf hw => ?_, iendBytes_eq_chunk, iendBytes_eq_chunk⟩
  exact emit_done (bs := iendBytes) (d := writeCrc s iendCrc) (by decide) hf hw rfl

/-- Settles O35: the configuration passes, so the command is an `emit` of the header chunk. -/
theorem emitIhdrWritesTheHeader : Obligations.EmitIhdrWritesTheHeader := by
  intro s g hg hf hw
  obtain ⟨u, hexec, hdone, hstands⟩ := exec_writes_chunk (exec_emitIhdr hg) rfl hf hw
  rw [chunk_ihdrPayload] at hstands
  exact ⟨u, hexec, hdone, hstands⟩

/-- Settles O36: the command reads no CFG; the CRC of the decided entry is computed. -/
theorem emitPlteWritesThePalette : Obligations.EmitPlteWritesThePalette := by
  intro s hf hw
  obtain ⟨u, hexec, hdone, hstands⟩ := exec_writes_chunk (i := .emitPlte) (t := tagPLTE) (p := plteEntry0 s.plat) rfl
    (by rw [plteEntry0_length]) hf hw
  rw [chunk_plteEntry0] at hstands
  refine ⟨u, hexec, hdone, hstands, fun hzeros => ?_⟩
  have hcrc : u.crc = chunkCrc tagPLTE (plteEntry0 s.plat) := congrArg State.crc hdone.1
  rw [hcrc, plteEntry0, hzeros]
  decide +kernel

/-- Settles O37: each row has the payload of its colour type, and the CRC of as many zeros. -/
theorem emitTrnsWritesTheTransparency : Obligations.EmitTrnsWritesTheTransparency := by
  intro s g k p c hg hrow hf hw
  have hpayload : trnsPayload s.plat g = p ∧ p.length = k ∧ chunkCrc tagTRNS (List.replicate k 0x00#8) = c := by
    simp only [List.mem_cons, Prod.mk.injEq, List.not_mem_nil, or_false] at hrow
    obtain ⟨hct, rfl, rfl, rfl⟩ | ⟨hct, rfl, rfl, rfl⟩ | ⟨hct, rfl, rfl, rfl⟩ := hrow <;>
      exact ⟨by rw [trnsPayload, hct], Vector.length_toList, by decide +kernel⟩
  obtain ⟨rfl, rfl, hzeros⟩ := hpayload
  obtain ⟨u, hexec, hdone, hstands⟩ := exec_writes_chunk (exec_emitTrns hg) rfl hf hw
  rw [chunk, tag_tagTRNS] at hstands
  refine ⟨rfl, u, hexec, hdone, hstands, fun hp => ?_⟩
  have hcrc : u.crc = chunkCrc tagTRNS (trnsPayload s.plat g) := congrArg State.crc hdone.1
  rw [hcrc, hp]
  exact hzeros

/-! ### The copying commands -/

theorem bytesAt_length (s : State) (a n : Nat) : (bytesAt s a n).length = n := memBytes_length s.mem a n

/-- Settles O41: SRC_LEN is the length the chunk carries. -/
theorem emitChunkWritesTheChunk : Obligations.EmitChunkWritesTheChunk := by
  intro s htag hsrc hf hr hw hd hraced
  obtain ⟨u, hexec, hdone, hstands⟩ := exec_copied_writes (copied_emitChunk htag) hsrc hf hr hw hd hraced
  rw [chunk_of_length (bytesAt_length s _ _)] at hstands
  exact ⟨u, hexec, hdone, hstands⟩

/-- Settles O45: IDAT_LEN is the length the chunk carries. -/
theorem emitIdatWritesThePayload : Obligations.EmitIdatWritesThePayload := by
  intro s hheld hsrc hf hr hw hd hraced
  obtain ⟨u, hexec, hdone, hstands⟩ := exec_copied_writes (copied_emitIdat hheld) hsrc hf hr hw hd hraced
  rw [chunk_of_length (bytesAt_length s _ _), tag_tagIDAT] at hstands
  exact ⟨u, hexec, hdone, hstands⟩

end Sys2Proof.Machine
end

section
/-! The image configuration by the numbers of its fields (R191), the command SIZE (R193), and the bounds of the pixel
buffer size (R192). -/

namespace Sys2Proof.Machine

variable {i : Instr} {s : State} {c : Word} {g : ImgCfg} {ct : ColourType}

/-! ### The image check -/

/-- The colour type by its number in the IHDR chunk; GREY and IDX together select none: the table of
R34, row by row. -/
theorem colourType_eq_some_iff :
    colourType c = some ct ↔
      ¬(cfgGrey c = true ∧ cfgIdx c = true)
        ∧ (colourCode ct).toNat = (if cfgGrey c = true then 0 else if cfgIdx c = true then 3 else 2) := by
  unfold colourType
  cases cfgGrey c <;> cases cfgIdx c <;> cases ct <;> decide

theorem imgCfg_eq_some_iff_fields :
    imgCfg c = some g ↔
      1 ≤ c.toNat % 1024 ∧ c.toNat % 1024 ≤ 512
        ∧ (c.toNat / 65536 % 32 = 1 ∨ c.toNat / 65536 % 32 = 2 ∨ c.toNat / 65536 % 32 = 4
            ∨ c.toNat / 65536 % 32 = 8 ∨ c.toNat / 65536 % 32 = 16)
        ∧ ¬(c.toNat / 16777216 % 2 = 1 ∧ c.toNat / 33554432 % 2 = 1)
        ∧ g.width = c.toNat % 1024 ∧ g.depth = c.toNat / 65536 % 32
        ∧ (colourCode g.ct).toNat
            = (if c.toNat / 16777216 % 2 = 1 then 0 else if c.toNat / 33554432 % 2 = 1 then 3 else 2) := by
  rw [imgCfg_eq_some, colourType_eq_some_iff]
  simp only [cfgWidth_eq, cfgDepth_eq, cfgGrey_eq, cfgIdx_eq, decide_eq_true_eq, List.mem_cons, List.not_mem_nil,
    or_false]
  constructor
  · rintro ⟨⟨hpos, hmax⟩, hdepth, ⟨hboth, hcode⟩, hw, hd⟩
    exact ⟨hpos, hmax, hdepth, hboth, hw, hd, hcode⟩
  · rintro ⟨hpos, hmax, hdepth, hboth, hw, hd, hcode⟩
    exact ⟨⟨hpos, hmax⟩, hdepth, ⟨hboth, hcode⟩, hw, hd⟩

theorem runCompress_of_imgCfg_none (h : imgCfg s.cfg = none) : runCompress s = .err .cfgInvalid s s.port := by
  simp only [runCompress, h]

/-- The five commands that read CFG check it before anything else. -/
theorem exec_of_imgCfg_none (h : imgCfg s.cfg = none)
    (hi : i = .emitIhdr ∨ i = .emitTrns ∨ i = .size ∨ i = .compress ∨ i = .build) :
    exec i s = .next (failed s .cfgInvalid) := by
  obtain rfl | rfl | rfl | rfl | rfl := hi
  · simp only [exec, execEmitIhdr, h, errorCompletion_port]
  · simp only [exec, execEmitTrns, h, errorCompletion_port]
  · simp only [exec, execSize, h, errorCompletion_port]
  · simp only [exec, execCompress, runCompress_of_imgCfg_none h, errorCompletion_port]
  · simp only [exec, execBuild, h, errorCompletion_port]

/-- Settles O40: the check field by field, and its failure in each command that makes it. -/
theorem imageConfigurationFields : Obligations.ImageConfigurationFields :=
  ⟨fun _ _ => imgCfg_eq_some_iff_fields, fun _ _ => exec_of_imgCfg_none⟩

/-! ### The pixel buffer size -/

/-- The ranges of R7 that the bounds of R192 rest on. -/
theorem imgCfg_ranges (h : imgCfg c = some g) : 1 ≤ g.width ∧ g.width ≤ 512 ∧ g.depth ≤ 16 := by
  obtain ⟨hpos, hmax, hdepth, -, hw, hd, -⟩ := imgCfg_eq_some_iff_fields.1 h
  omega

theorem pixSize_pos (hpos : 1 ≤ g.width) : 1 ≤ pixSize g := by
  unfold pixSize
  split
  · omega
  · exact Nat.mul_pos (Nat.succ_pos _) hpos
  · omega

theorem width_mul_width_mul_depth_le (hw : g.width ≤ 512) (hd : g.depth ≤ 16) :
    g.width * g.width * g.depth ≤ 4194304 :=
  Nat.mul_le_mul (Nat.mul_le_mul hw hw) hd

theorem width_mul_width_mul_three_mul_depth_le (hw : g.width ≤ 512) (hd : g.depth ≤ 16) :
    g.width * g.width * 3 * g.depth ≤ 12582912 :=
  Nat.mul_le_mul (Nat.mul_le_mul_right 3 (Nat.mul_le_mul hw hw)) hd

theorem width_mul_depth_le (hw : g.width ≤ 512) (hd : g.depth ≤ 16) : g.width * g.depth ≤ 8192 :=
  Nat.mul_le_mul hw hd

/-- All rows of a greyscale image, each with its filter byte. -/
theorem greyscale_rows_le (hw : g.width ≤ 512) (hd : g.depth ≤ 16) :
    ((g.width * g.depth + 7) / 8 + 1) * g.width ≤ 524800 := by
  have hrow : (g.width * g.depth + 7) / 8 + 1 ≤ 1025 := by
    have := width_mul_depth_le hw hd
    omega
  exact Nat.mul_le_mul hrow hw

theorem pixSize_le (hw : g.width ≤ 512) (hd : g.depth ≤ 16) : pixSize g ≤ 1573376 := by
  unfold pixSize
  split
  · have := width_mul_width_mul_three_mul_depth_le hw hd
    omega
  · exact (greyscale_rows_le hw hd).trans (by decide)
  · have := width_mul_width_mul_depth_le hw hd
    omega

/-- The size fits a register. -/
theorem toNat_ofNat_pixSize (h : imgCfg c = some g) : (BitVec.ofNat 32 (pixSize g)).toNat = pixSize g := by
  obtain ⟨-, hw, hd⟩ := imgCfg_ranges h
  exact toNat_ofNat_lt ((pixSize_le hw hd).trans_lt (by decide))

/-- Settles O47: each product is bounded by its value at width 512 and depth 16. -/
theorem pixelSizeBounds : Obligations.PixelSizeBounds := by
  refine ⟨fun c g h => ?_, rfl, rfl, rfl⟩
  obtain ⟨hpos, hw, hd⟩ := imgCfg_ranges h
  have hindexed := width_mul_width_mul_depth_le hw hd
  have hrow := width_mul_depth_le hw hd
  have hgrey := greyscale_rows_le hw hd
  exact ⟨width_mul_width_mul_three_mul_depth_le hw hd, by omega, by omega, by omega, by decide,
    toNat_ofNat_pixSize h, pixSize_pos hpos, pixSize_le hw hd⟩

/-! ### The command -/

theorem exec_size (h : imgCfg s.cfg = some g) :
    exec .size s = .next (successCompletion (writeResult s (BitVec.ofNat 32 (pixSize g))) s.port) := by
  simp only [exec, execSize, h]

/-- Settles O46: the completion writes RESULT, and the size does not wrap there. -/
theorem sizeResult : Obligations.SizeResult := by
  intro s g h
  have hresult := toNat_ofNat_pixSize h
  unfold pixSize ceilDiv8 at hresult
  exact ⟨_, exec_size h, rfl, hresult⟩

end Sys2Proof.Machine
end

section
/-! The compression phase (R200 to R212): the check of CCFG and the request by the numbers of their fields, the ways the
phase can end before a payload is held, the same for COMPRESS and BUILD, and the payload that COMPRESS holds. -/

namespace Sys2Proof.Machine

variable {i : Instr} {s t u : State} {e : ErrCode} {p : Port} {pl : Platform} {c : Word} {g : ImgCfg} {a : Answer}
  {z : List Byte} {rest : List Answer} {env : Env} {b base k x : Nat}

/-! ### The fields of CCFG -/

theorem ccfgProv_eq_a_iff : ccfgProv c = .a ↔ c.toNat / 65536 % 2 = 0 := by
  simp [ccfgProv_eq]

theorem ccfgProv_eq_b_iff : ccfgProv c = .b ↔ c.toNat / 65536 % 2 = 1 := by
  simp [ccfgProv_eq]

/-- The row of R201 for provider A. -/
theorem cmpCfgOk_iff_of_prov_a (h : ccfgProv c = .a) :
    cmpCfgOk pl c = true ↔
      (c.toNat / 16 % 2 = 1 ∨ (1 ≤ c.toNat % 16 ∧ c.toNat % 16 ≤ 9))
        ∧ (c.toNat / 2048 % 2 = 0 ∨ c.toNat / 256 % 8 ≤ 4) := by
  simp only [cmpCfgOk, h, ccfgLdef_eq, ccfgLevel_eq, ccfgStrato_eq, ccfgStrat_eq, Bool.and_eq_true, Bool.or_eq_true,
    Bool.not_eq_true', decide_eq_true_eq, decide_eq_false_iff_not, Nat.mod_two_ne_one]

/-- The row of R201 for provider B. -/
theorem cmpCfgOk_iff_of_prov_b (h : ccfgProv c = .b) :
    cmpCfgOk pl c = true ↔
      c.toNat / 16 % 2 = 0 ∧ levelBMin pl ≤ c.toNat % 16 ∧ c.toNat % 16 ≤ levelBMax pl
        ∧ c.toNat / 2048 % 2 = 0 := by
  simp only [cmpCfgOk, h, ccfgLdef_eq, ccfgLevel_eq, ccfgStrato_eq, Bool.and_eq_true, Bool.not_eq_true',
    decide_eq_true_eq, decide_eq_false_iff_not, Nat.mod_two_ne_one, and_assoc]

theorem cmpCfgOk_iff_fields :
    cmpCfgOk pl c = true ↔
      (c.toNat / 65536 % 2 = 0 →
          (c.toNat / 16 % 2 = 1 ∨ (1 ≤ c.toNat % 16 ∧ c.toNat % 16 ≤ 9))
            ∧ (c.toNat / 2048 % 2 = 0 ∨ c.toNat / 256 % 8 ≤ 4))
        ∧ (c.toNat / 65536 % 2 = 1 →
          c.toNat / 16 % 2 = 0 ∧ levelBMin pl ≤ c.toNat % 16 ∧ c.toNat % 16 ≤ levelBMax pl
            ∧ c.toNat / 2048 % 2 = 0) := by
  cases hp : ccfgProv c with
  | a =>
    have h0 := ccfgProv_eq_a_iff.1 hp
    simp only [cmpCfgOk_iff_of_prov_a hp, h0, true_imp_iff, zero_ne_one, false_imp_iff, and_true]
  | b =>
    have h1 := ccfgProv_eq_b_iff.1 hp
    simp only [cmpCfgOk_iff_of_prov_b hp, h1, true_imp_iff, one_ne_zero, false_imp_iff, true_and]

theorem levelB_range (pl : Platform) : levelBMin pl ≤ levelBMax pl ∧ levelBMax pl ≤ 15 := by
  have hmin := pl.levelBMin.isLt
  unfold levelBMin levelBMax
  omega

/-! ### The request -/

/-- Only provider A has a default level (R202). -/
theorem requestLevel_eq_dflt_iff : requestLevel c = .dflt ↔ ccfgProv c = .a ∧ ccfgLdef c = true := by
  unfold requestLevel
  cases ccfgProv c <;> cases ccfgLdef c <;> simp

theorem requestLevel_explicit {l : BitVec 4} (h : requestLevel c = .explicit l) : l = ccfgLevel c := by
  unfold requestLevel at h
  split at h
  · simp at h
  · simpa using h.symm

/-- A CCFG that passes the check asks for a strategy only by one of the five codes of R112. -/
theorem strat_le_of_cmpCfgOk (hc : cmpCfgOk pl c = true) (hs : c.toNat / 2048 % 2 = 1) : c.toNat / 256 % 8 ≤ 4 := by
  obtain ⟨ha, hb⟩ := cmpCfgOk_iff_fields.1 hc
  omega

/-- The table of R112, read by code. -/
theorem strategyOfCode_mem_table {n : Nat} (h : n ≤ 4) :
    (strategyOfCode n, n) ∈ [(some Strategy.dflt, 0), (some .filtered, 1), (some .huffmanOnly, 2), (some .fixed, 3),
      (some .runLength, 4)] := by
  interval_cases n <;> decide

theorem requestStrat_eq :
    requestStrat c = if c.toNat / 2048 % 2 = 1 then strategyOfCode (c.toNat / 256 % 8) else none := by
  simp only [requestStrat, ccfgStrato_eq, ccfgStrat_eq, decide_eq_true_eq]

/-- Settles O49: field by field; the check leaves the strategy codes of R112 only. -/
theorem requestCarriesTheConfiguration : Obligations.RequestCarriesTheConfiguration := by
  intro pl g c hc
  refine ⟨rfl, ccfgProv_eq_a_iff, ?_, fun l hl => ?_, fun h0 => ?_, fun h1 => ?_, rfl⟩
  · exact requestLevel_eq_dflt_iff.trans (by rw [ccfgProv_eq_a_iff, ccfgLdef_eq, decide_eq_true_eq])
  · rw [requestLevel_explicit hl, ccfgLevel_eq]
  · exact requestStrat_eq.trans (if_neg (by omega))
  · have hstrat : (request g c).strat = strategyOfCode (c.toNat / 256 % 8) := requestStrat_eq.trans (if_pos h1)
    rw [hstrat]
    exact strategyOfCode_mem_table (strat_le_of_cmpCfgOk hc h1)

/-! ### The ends of the phase that hold no payload -/

theorem runCompress_of_cmpCfgOk_false (hg : imgCfg s.cfg = some g) (hc : cmpCfgOk s.plat s.ccfg = false) :
    runCompress s = .err .cfgInvalid s s.port := by
  simp [runCompress, hg, hc]

theorem runCompress_of_scrCheck (hg : imgCfg s.cfg = some g) (hc : cmpCfgOk s.plat s.ccfg = true)
    (he : scrCheck s (bound s.plat (ccfgProv s.ccfg) (pixSize g)) = some e) : runCompress s = .err e s s.port := by
  simp only [runCompress, hg, hc, if_true, he]

/-- `Fail` and an empty payload are the same to the engine (R206, R207). -/
theorem takeAnswer_of_no_payload (h : a = .fail ∨ a = .ok []) : takeAnswer s b a = .err .backend s s.port := by
  obtain rfl | rfl := h <;> rfl

theorem takeAnswer_of_overrun (h : b < z.length) : takeAnswer s b (.ok z) = .overrun := by
  cases z with
  | nil => simp at h
  | cons z0 z => exact if_neg (by omega)

theorem takeAnswer_of_refused (hl : z.length ≤ b)
    (hw : writeBytes (s.env noOverlap) s.scrBase.toNat z s.port = .refused p) :
    takeAnswer s b (.ok z) = .err .mem s p := by
  cases z with
  | nil => simp [writeBytes] at hw
  | cons z0 z => simp only [takeAnswer, hl, if_true, hw]

/-- An answer whose byte `k` is the first that the memory port refuses (R72, R254). -/
theorem takeAnswer_stops (hl : z.length ≤ b) (hk : k < z.length) (hw : admits s s.scrBase.toNat k .write)
    (hno : memOk s.plat (s.scrBase.toNat + k) .write = false) :
    ∃ q, takeAnswer s b (.ok z) = .err .mem s q
      ∧ writeBytes (s.env noOverlap) s.scrBase.toNat (z.take k) s.port = .done () q := by
  obtain ⟨q, hstop, hdone⟩ := writeBytes_refused (e := s.env noOverlap) s.port hk hw hno
  exact ⟨q, takeAnswer_of_refused hl hstop, hdone⟩

/-- COMPRESS and BUILD end as the compression phase does where it raises an error (R211, R231). -/
theorem exec_of_compress_err (hi : i = .compress ∨ i = .build) (hg : imgCfg s.cfg = some g)
    (h : runCompress s = .err e u p) : exec i s = .next (errorCompletion u e p) := by
  obtain rfl | rfl := hi
  · simp only [exec, execCompress, h]
  · simp only [exec, execBuild, hg, h]

theorem exec_of_compress_overrun (hi : i = .compress ∨ i = .build) (hg : imgCfg s.cfg = some g)
    (h : runCompress s = .overrun) : exec i s = .fault .backendOverrun := by
  obtain rfl | rfl := hi
  · simp only [exec, execCompress, h]
  · simp only [exec, execBuild, hg, h]

/-- The image check comes first, and either check that fails ends the command with CFG_INVALID (R201, R253). -/
theorem exec_of_cmpCfgOk_false (hc : cmpCfgOk s.plat s.ccfg = false) (hi : i = .compress ∨ i = .build) :
    exec i s = .next (failed s .cfgInvalid) := by
  cases hg : imgCfg s.cfg with
  | none => exact exec_of_imgCfg_none hg (.inr (.inr (.inr hi)))
  | some g => exact exec_of_compress_err hi hg (runCompress_of_cmpCfgOk_false hg hc)

/-- Settles O48: the check provider by provider, and its failure in the two commands that make it. -/
theorem compressionConfiguration : Obligations.CompressionConfiguration :=
  ⟨fun _ _ => cmpCfgOk_iff_fields, levelB_range, fun _ _ => exec_of_cmpCfgOk_false⟩

/-- Settles O51: the two errors of the scratch check, and the two answers that hold no payload. -/
theorem compressionErrors : Obligations.CompressionErrors := by
  intro i s g hi hg hc
  have hcheck : ∀ e, scrCheck s (bound s.plat (ccfgProv s.ccfg) (pixSize g)) = some e →
      exec i s = .next (failed s e) :=
    fun e he => exec_of_compress_err hi hg (runCompress_of_scrCheck hg hc he)
  refine ⟨fun hcap => hcheck .alloc (scrCheck_alloc hcap),
    fun hcap hpos hend => hcheck .addr (scrCheck_addr hcap hpos hend), fun a rest hcap hend ha hnone => ?_⟩
  have hasked := runCompress_asked hg hc (scrCheck_none.2 ⟨hcap, hend⟩) ha
  exact exec_of_compress_err hi hg (hasked.trans (takeAnswer_of_no_payload hnone))

/-- Settles O52: the writes before the refused one are a run of their own. -/
theorem compressionStopsAtARefusedByte : Obligations.CompressionStopsAtARefusedByte := by
  intro i s g z rest k hi hg hc hcap hend ha hl hk hw hno
  have hasked := runCompress_asked hg hc (scrCheck_none.2 ⟨hcap, .inr hend⟩) ha
  obtain ⟨q, hstop, hwrites⟩ := takeAnswer_stops (s := { s with answers := rest, sent := s.sent ++ [request g s.ccfg] })
    hl hk hw hno
  have hstops := errorCompletion_of_writes hwrites fun _ _ _ => rfl
  rw [List.length_take_of_le hk.le] at hstops
  exact ⟨_, exec_of_compress_err hi hg (hasked.trans hstop), hstops⟩

/-- Settles O53: the phase stops before it writes a byte. -/
theorem overrunStopsCompression : Obligations.OverrunStopsCompression := by
  intro i s g z rest hi hg hc hcap hend ha hlong
  have hasked := runCompress_asked hg hc (scrCheck_none.2 ⟨hcap, hend⟩) ha
  exact exec_of_compress_overrun hi hg (hasked.trans (takeAnswer_of_overrun hlong))

/-! ### The payload that COMPRESS holds -/

/-- Settles O50: the registers and the memory that `exec_compress_done` gives. -/
theorem compressHoldsThePayload : Obligations.CompressHoldsThePayload := by
  intro s g z rest hg hc hcap hend ha hne hl hw
  have hpasses : CompressPasses s g z rest := ⟨hg, hc, hcap, hend, ha, hne, hl, hw⟩
  obtain ⟨p, hexec, hframe, hpayload⟩ := exec_compress_done hpasses
  have hlen := toNat_ofNat_lt hpasses.length_lt
  exact ⟨_, hexec, rfl, hlen, hlen, fun k b hk hr => peek_eq_of_mem_get (hpayload k b hk hr),
    fun x hx => peek_eq_of_get (hframe x hx)⟩

/-- A run of writes that completes was admitted at every address. -/
theorem memOk_of_writeBytes_done {q : Port} (h : writeBytes env base z p = .done () q) (h1 : base ≤ x)
    (h2 : x < base + z.length) : memOk env.plat x .write = true := by
  induction z generalizing base p with
  | nil => simp only [List.length_nil] at h2; omega
  | cons z0 z ih =>
    simp only [writeBytes] at h
    cases hw : writeByte env base z0 p with
    | refused r => simp [hw] at h
    | done v r =>
      simp only [hw, andThen_done] at h
      obtain rfl | hlt := h1.eq_or_lt
      · by_contra hno
        simp [writeByte, hno] at hw
      · exact ih h hlt (by simp only [List.length_cons] at h2; omega)

/-- Where an answer within the bound does not end the phase with MEM, each write of it is admitted (R72, R210). -/
theorem admits_of_takeAnswer_ne_err (hl : z.length ≤ b) (h : ∀ p, takeAnswer s b (.ok z) ≠ .err .mem s p) :
    admits s s.scrBase.toNat z.length .write := by
  cases hw : writeBytes (s.env noOverlap) s.scrBase.toNat z s.port with
  | refused p => exact absurd (takeAnswer_of_refused hl hw) (h p)
  | done v p => exact fun x h1 h2 => memOk_of_writeBytes_done hw h1 h2

theorem runCompress_ne_err (h : exec .compress s = .next t) (herr : t.status.err = false) :
    runCompress s ≠ .err e u p := by
  intro hrun
  simp only [exec, execCompress, hrun, Host.Outcome.next.injEq] at h
  simp [← h] at herr

/-- A COMPRESS that completes without an error has passed every check and had every write admitted. -/
theorem CompressPasses.of_exec (hg : imgCfg s.cfg = some g) (ha : s.answers = .ok z :: rest)
    (hl : z.length ≤ bound s.plat (ccfgProv s.ccfg) (pixSize g)) (h : exec .compress s = .next t)
    (herr : t.status.err = false) : CompressPasses s g z rest := by
  have hok : ∀ {e u p}, runCompress s ≠ .err e u p := runCompress_ne_err h herr
  have hc : cmpCfgOk s.plat s.ccfg = true := by
    by_contra hno
    exact hok (runCompress_of_cmpCfgOk_false hg (by simpa using hno))
  have hs : scrCheck s (bound s.plat (ccfgProv s.ccfg) (pixSize g)) = none := by
    rw [Option.eq_none_iff_forall_ne_some]
    exact fun e he => hok (runCompress_of_scrCheck hg hc he)
  have hasked := runCompress_asked hg hc hs ha
  have hne : z ≠ [] := by
    rintro rfl
    exact hok (hasked.trans (takeAnswer_of_no_payload (.inr rfl)))
  obtain ⟨hcap, hend⟩ := scrCheck_none.1 hs
  have hw := admits_of_takeAnswer_ne_err hl fun p hmem => hok (hasked.trans hmem)
  have hpos : 0 < z.length := List.length_pos_iff.2 hne
  exact ⟨hg, hc, hcap, hend.resolve_left (by omega), ha, hne, hl, hw⟩

/-- Settles O54: what a successful COMPRESS holds is the answer, byte for byte. -/
theorem payloadInflatesToTheBlankBuffer : Obligations.PayloadInflatesToTheBlankBuffer := by
  intro inflate s t g z rest hg ha hadm hraced _ hexec herr
  obtain ⟨hl, hinflates⟩ := hadm
  have h := CompressPasses.of_exec hg ha hl hexec herr
  obtain ⟨t', hdone, hregs, hlen, -, hstands, -⟩ := compressHoldsThePayload s g z rest h.cfg h.ccfg h.scrFits
    h.scrEnds h.answer h.nonempty h.bounded h.scrWrites
  obtain rfl := Host.Outcome.next.inj (hexec.symm.trans hdone)
  have hscr : t.scrBase = s.scrBase := (congrArg State.scrBase hregs :)
  have hbytes : ∀ k b, z[k]? = some b → t.peek (s.scrBase.toNat + k) = b := by
    intro k b hk
    have hlt := (List.getElem?_eq_some_iff.1 hk).1
    exact hstands k b hk (hraced _ (by omega) (by omega))
  rw [hscr, hlen, bytesAt_of_stands hbytes]
  exact hinflates h.nonempty

end Sys2Proof.Machine
end

section
/-! BUILD from the end of its compression phase on: the one output check, the image that a refused byte cuts short, and
the image written out (R230 to R233). -/

namespace Sys2Proof.Machine

variable {s : State} {g : ImgCfg} {z : List Byte} {rest : List Answer} {e : ErrCode} {p q : Port}
  {len bnd k b1 n1 b2 n2 : Nat}

/-! ### The image written out -/

theorem palette_eq_true_iff : g.palette = true ↔ g.ct = .indexed := by
  simp [ImgCfg.palette]

/-- An image as its signature and its chunks (R117, R230). -/
theorem image_eq_chunks (pl : Platform) (g : ImgCfg) (z : List Byte) :
    image pl g z = signature ++ chunk tagIHDR (ihdrPayload g)
      ++ (if g.ct = .indexed then chunk tagPLTE (plteEntry0 pl) else [])
      ++ chunk tagTRNS (trnsPayload pl g) ++ chunk tagIDAT z ++ chunk tagIEND [] := by
  simp only [image, imageHead, palette_eq_true_iff, iendBytes_eq_chunk]

/-- The length of an image as the sum of its parts (R233). -/
theorem imageLen_eq_parts (g : ImgCfg) (len : Nat) :
    imageLen g len = 8 + 25 + (if g.ct = .indexed then 15 else 0) + (trnsLen g.ct + 12) + (len + 12) + 12 := by
  simp only [imageLen, palette_eq_true_iff]

/-- Settles O55: the sum of the parts, and its value for each colour type. -/
theorem imageLength : Obligations.ImageLength := by
  intro pl g z
  rw [image_length]
  refine ⟨rfl, imageLen_eq_parts g z.length, ?_⟩
  rw [imageLen_eq_parts]
  cases g.ct <;> simp only [trnsLen, reduceCtorEq, if_true, if_false] <;> omega

/-! ### Windows that lie apart -/

theorem disjoint_symm (h : disjoint b1 n1 b2 n2) : disjoint b2 n2 b1 n1 := fun a ha => h a ha.symm

theorem bothLen_eq_zero_of_disjoint (h : disjoint b1 n1 b2 n2) : bothLen b1 n1 b2 n2 = 0 := by
  have := h (max b1 b2)
  unfold bothLen
  omega

/-- Where the windows lie apart, no scratch byte is left open before the image is written (R85). -/
theorem openOverlap_of_disjoint {T : Nat} (h : disjoint s.scrBase.toNat bnd s.outAddr T) :
    openOverlap s bnd T p = p := by
  rw [openOverlap, bothLen_eq_zero_of_disjoint h, havoc]

/-! ### Success -/

/-- Settles O56: what `Built` says of a completed BUILD, where its windows lie apart. -/
theorem buildWritesTheImage : Obligations.BuildWritesTheImage := by
  intro s g z rest hg hc hcap hend ha hz hlen hf hsw hsr how hd hr
  have hpass : BuildPasses s g z rest := ⟨hg, hc, hcap, hend, ha, hz, hlen, hf, hsw, hsr, how⟩
  obtain ⟨t, p, q, hexec, hbuilt⟩ := exec_build_done hpass
  have hregs := hbuilt.regs
  rw [hbuilt.crc_of_disjoint hd] at hregs
  have himage := hbuilt.standsAt_image hpass hd hr
  rw [image_eq_chunks] at himage
  refine ⟨t, hexec, hregs, hbuilt.outPos, hbuilt.result, hbuilt.idatLen, himage, fun k b hk hraced => ?_,
    fun a hout hscr => hbuilt.peek_frame hout hscr⟩
  obtain ⟨hlt, -⟩ := List.getElem?_eq_some_iff.1 hk
  have hzcap := hpass.length_le_scrCap
  exact hbuilt.peek_scratch hk hraced (outside_of_disjoint (disjoint_symm hd) (by omega) (by omega))

/-! ### The ends after compression that hold no image -/

/-- The compression phase from `s` has left the payload `z` in the scratch window, and no byte outside the bound-sized
scratch range changed (R210). -/
structure PayloadWritten (s : State) (g : ImgCfg) (z : List Byte) (p : Port) : Prop where
  frame : ∀ x, x < s.scrBase.toNat ∨ s.scrBase.toNat + bound s.plat (ccfgProv s.ccfg) (pixSize g) ≤ x →
    p.mem.get x = s.mem.get x
  payload : ∀ j b, z[j]? = some b → s.scrBase.toNat + j ∉ s.raced → p.mem.get (s.scrBase.toNat + j) = some b

/-- A payload that the host did not race for is what the engine reads back (R87, R231). -/
theorem PayloadWritten.memBytes_eq (h : PayloadWritten s g z p) (hr : unraced s s.scrBase.toNat z.length) :
    memBytes p.mem s.scrBase.toNat z.length = z := by
  refine memBytes_of_stands fun j b hj => ?_
  obtain ⟨hlt, -⟩ := List.getElem?_eq_some_iff.1 hj
  rw [Memory.byteAt, h.payload j b hj (hr _ (by omega) (by omega)), Option.getD_some]

/-- BUILD whose compression phase holds the payload goes on with the assembly. -/
theorem exec_build_assembles (h : CompressPasses s g z rest) :
    ∃ p, exec .build s = assemble g z.length (bound s.plat (ccfgProv s.ccfg) (pixSize g))
          { s with answers := rest, sent := s.sent ++ [request g s.ccfg] } p
      ∧ PayloadWritten s g z p := by
  obtain ⟨p, hrun, hframe, hpayload⟩ := runCompress_done h.cfg h.ccfg h.scrFits h.scrEnds h.answer h.nonempty
    h.bounded h.scrWrites
  exact ⟨p, exec_build_of_compressed h.cfg hrun, hframe, hpayload⟩

theorem assemble_of_outCheck (h : outCheck s (imageLen g len) = some e) :
    assemble g len bnd s p = .next (errorCompletion s e p) := by
  simp only [assemble, h]

/-- Settles O57: the output check fails on the memory that the compression phase left. -/
theorem buildChecksTheWindowOnce : Obligations.BuildChecksTheWindowOnce := by
  intro s g z rest e hg hc hcap hend ha hz hlen hsw hwindow
  obtain ⟨p, hexec, hpayload⟩ := exec_build_assembles ⟨hg, hc, hcap, hend, ha, hz, hlen, hsw⟩
  have hcheck : outCheck { s with answers := rest, sent := s.sent ++ [request g s.ccfg] } (imageLen g z.length)
      = some e := by
    obtain ⟨hshort, rfl⟩ | ⟨hfits, hpast, rfl⟩ := hwindow
    · exact outCheck_bounds hshort
    · exact outCheck_addr (by simp [imageLen]) hfits hpast
  rw [assemble_of_outCheck hcheck] at hexec
  exact ⟨_, hexec, rfl, fun k b hk hraced => peek_eq_of_mem_get (hpayload.payload k b hk hraced),
    fun x hx => peek_eq_of_get (hpayload.frame x hx)⟩

/-- The assembly whose image has byte `k` as the first that the memory port refuses, written or read back: the bytes
before it are a run of writes of their own (R231, R254). -/
theorem assemble_stops (hf : outFits s (imageLen g z.length)) (hbnd : z.length ≤ bnd) (hcap : bnd ≤ s.scrCap.toNat)
    (hd : disjoint s.scrBase.toNat s.scrCap.toNat s.outAddr (imageLen g z.length))
    (hr : unraced s s.scrBase.toNat z.length) (hz : memBytes p.mem s.scrBase.toNat z.length = z)
    (hk : k < imageLen g z.length) (hw : admits s s.outAddr k .write)
    (hread : admits s s.scrBase.toNat (min z.length (k - payloadOffset g)) .read)
    (hno : memOk s.plat (s.outAddr + k) .write = false
      ∨ payloadOffset g ≤ k ∧ k < payloadOffset g + z.length
        ∧ memOk s.plat (s.scrBase.toNat + (k - payloadOffset g)) .read = false) :
    ∃ q, assemble g z.length bnd s p = .next (errorCompletion s .mem q)
      ∧ writeBytes (s.env (buildOverlap s (imageLen g z.length))) s.outAddr ((image s.plat g z).take k) p
          = .done () q := by
  have hpart : disjoint s.scrBase.toNat z.length s.outAddr (imageLen g z.length) :=
    disjoint_mono hd (by omega) (by omega)
  have hclosed : ∀ x, s.scrBase.toNat ≤ x → x < s.scrBase.toNat + z.length →
      (s.env (buildOverlap s (imageLen g z.length))).isOpen x = false := fun x h1 h2 =>
    env_inBoth_closed (hr x h1 h2) (.inr (outside_of_disjoint (disjoint_symm hpart) h1 h2))
  have hkept : openOverlap s bnd (imageLen g z.length) p = p :=
    openOverlap_of_disjoint (disjoint_mono hd (by omega) (by omega))
  obtain ⟨q, hstop, hwrites⟩ := writeImage_stops (e := s.env (buildOverlap s (imageLen g z.length))) p hk hread hw
    hclosed hpart hno
  rw [hz] at hwrites
  refine ⟨q, ?_, hwrites⟩
  simp only [assemble, (outCheck_none (by simp [imageLen])).2 hf, hkept, hstop]

/-- BUILD as such an assembly ends it: the run of writes starts from the memory that the compression phase left. -/
theorem exec_build_stops (h : CompressPasses s g z rest) (hf : outFits s (imageLen g z.length))
    (hd : disjoint s.scrBase.toNat s.scrCap.toNat s.outAddr (imageLen g z.length))
    (hr : unraced s s.scrBase.toNat z.length) (hk : k < imageLen g z.length) (hw : admits s s.outAddr k .write)
    (hread : admits s s.scrBase.toNat (min z.length (k - payloadOffset g)) .read)
    (hno : memOk s.plat (s.outAddr + k) .write = false
      ∨ payloadOffset g ≤ k ∧ k < payloadOffset g + z.length
        ∧ memOk s.plat (s.scrBase.toNat + (k - payloadOffset g)) .read = false) :
    ∃ p q, exec .build s
          = .next (errorCompletion { s with answers := rest, sent := s.sent ++ [request g s.ccfg] } .mem q)
      ∧ PayloadWritten s g z p
      ∧ writeBytes (s.env (buildOverlap s (imageLen g z.length))) s.outAddr ((image s.plat g z).take k) p
          = .done () q := by
  obtain ⟨p, hexec, hpayload⟩ := exec_build_assembles h
  obtain ⟨q, hstops, hwrites⟩ := assemble_stops
    (s := { s with answers := rest, sent := s.sent ++ [request g s.ccfg] })
    hf h.bounded h.scrFits hd hr (hpayload.memBytes_eq hr) hk hw hread hno
  exact ⟨p, q, hexec.trans hstops, hpayload, hwrites⟩

/-- Settles O58: the writes before the refused access, and the frame of their run. -/
theorem buildStopsAtARefusedByte : Obligations.BuildStopsAtARefusedByte := by
  intro s g z rest k hg hc hcap hend ha hz hlen hf hsw hd hr hk hw hread hno
  obtain ⟨p, q, hexec, hpayload, hwrites⟩ :=
    exec_build_stops ⟨hg, hc, hcap, hend, ha, hz, hlen, hsw⟩ hf hd hr hk hw hread hno
  have htake : ((image s.plat g z).take k).length = k :=
    List.length_take_of_le (by rw [image_length]; exact hk.le)
  have hframe : ∀ x, x < s.outAddr ∨ s.outAddr + k ≤ x → q.mem.get x = p.mem.get x := fun x hx => by
    have hwritten := writeBytes_frame (s.env (buildOverlap s (imageLen g z.length))) ((image s.plat g z).take k)
      s.outAddr p (x := x) (by rwa [htake])
    rwa [hwrites] at hwritten
  refine ⟨_, hexec, rfl, ?_, fun j b hj hraced => ?_, fun a hout hscr => ?_⟩
  · refine standsAt_of_writes hwrites rfl fun x h1 h2 => inBoth_right hd h1 ?_
    rw [htake] at h2
    exact h2.trans (Nat.add_lt_add_left hk _)
  · obtain ⟨hlt, -⟩ := List.getElem?_eq_some_iff.1 hj
    have hapart : s.scrBase.toNat + j < s.outAddr ∨ s.outAddr + imageLen g z.length ≤ s.scrBase.toNat + j :=
      outside_of_disjoint (disjoint_symm hd) (by omega) (by omega)
    exact peek_eq_of_mem_get ((hframe _ (by omega)).trans (hpayload.payload j b hj hraced))
  · exact peek_eq_of_get ((hframe a hout).trans (hpayload.frame a hscr))

end Sys2Proof.Machine
end

section
/-! The exceptions: the error end of a command by `exec_ends`, and the interrupt output. -/

namespace Sys2Proof.Machine

variable {i : Instr} {s t : State} {w : Word}

/-! ### The error completion -/

/-- A command started with ERR clear and ended with ERR set took its error end. -/
theorem exec_next_err (hclear : s.status.err = false) (h : exec i s = .next t) (herr : t.status.err = true) :
    ∃ u e p, ErrEnd i s u e p ∧ t = errorCompletion u e p := by
  obtain herrEnd | ⟨u, p, hend, rfl⟩ := exec_next h
  · exact herrEnd
  · have hok : u.status.err = false := by rw [hend.regs]; exact hclear
    simp [hok] at herr

/-- Settles O21: a command has two ends besides the fault, and none of the three is a refusal. -/
theorem everyCommandCompletes : Obligations.EveryCommandCompletes := by
  intro i s
  have hends := exec_ends i s
  generalize exec i s = o at hends ⊢
  cases hends with
  | err _ => exact .inl ⟨_, rfl⟩
  | ok _ => exact .inl ⟨_, rfl⟩
  | fault hi hg ha hz => exact .inr ⟨rfl, hi, _, _, _, hg, ha, hz⟩

/-- Settles O23: the error end, written over the state the command started in. -/
theorem errorsArePrecise : Obligations.ErrorsArePrecise := by
  intro i s t hclear h herr
  obtain ⟨u, e, p, hend, rfl⟩ := exec_next_err hclear h herr
  exact ⟨hend.completion_eq, hend.code_ne_noError⟩

/-- Settles O24: the code of an error end is one of the command's row of R252. -/
theorem errorsOfEachCommand : Obligations.ErrorsOfEachCommand := by
  intro i s t hclear h herr
  obtain ⟨u, e, p, hend, rfl⟩ := exec_next_err hclear h herr
  have hrow : e ∈ allowedErrors i := hend.allowed
  cases i <;> exact hrow

/-- Settles O29: an error end with an early code keeps the memory the command started with. -/
theorem earlyErrorsLeaveMemory : Obligations.EarlyErrorsLeaveMemory := by
  intro i s t hclear h herr hcode
  obtain ⟨u, e, p, hend, rfl⟩ := exec_next_err hclear h herr
  exact hend.early (by simpa [or_assoc] using hcode)

/-! ### The interrupt output -/

/-- With DONE and ERR both clear nothing asserts `irq`, whatever CTRL enables (R260). -/
theorem irq_of_no_outcome (hdone : s.status.done = false) (herr : s.status.err = false) : s.irq = false := by
  simp [State.irq, hdone, herr]

/-- An accepted command word clears DONE and ERR, and `irq` with them (R28, R261). -/
theorem acceptCommand_irq (w : Word) (s : State) : (acceptCommand w s).irq = false := by
  rw [acceptCommand_eq]
  exact irq_of_no_outcome rfl rfl

/-- Settles O17: each write, and reset, by what it leaves of CTRL and STATUS. -/
theorem interruptFollowsStatus : Obligations.InterruptFollowsStatus := by
  intro s
  refine ⟨rfl, fun w => ?_, fun hidle w => ?_, irq_of_no_outcome rfl rfl, fun w => ?_⟩
  · rw [writeReg_of_not_operand rfl]
    rfl
  · rw [writeReg_of_idle hidle]
    exact acceptCommand_irq w s
  · rw [writeReg_of_not_operand rfl]
    rfl

end Sys2Proof.Machine
end

section
/-! A pending command on its way to its end (R297): what the outside cannot take from it, and the end the engine gives
it. -/

namespace Sys2Proof.Machine

variable {i : Instr} {s t : State} {v w : Word} {r : Reg} {n : Nat}

/-- The command word `w` is pending, with `n` more inputs before the engine's turn, its outcome still clear, and no
reset on the way. -/
structure Running (w : Word) (n : Nat) (s : State) : Prop where
  outOfReset : s.rst = false
  pending : s.pending = some w
  busy : s.status.busy = true
  done : s.status.done = false
  err : s.status.err = false
  noReset : .assertReset ∉ s.inputs
  left : s.busyLeft = n

/-- The end of a command: one of DONE and ERR is set with nothing pending (R28), or the backend overran its bound
(R270). -/
def Finished (o : Host.Outcome State Fault Refusal) : Prop :=
  (∃ t, o = .next t ∧ t.status.busy = false ∧ t.pending = none ∧ t.status.done = !t.status.err)
    ∨ o = .fault .backendOverrun

/-! ### The outside -/

/-- A busy engine drops the writes of CMD and of the operands, and a write to STATUS only clears (R31, R44). -/
theorem writeReg_keeps_running (h : Running w n s) : Running w n (writeReg r v s) := by
  cases hr : isOperandReg r with
  | true =>
    rw [writeReg_of_busy h.busy hr]
    exact { h with }
  | false =>
    rw [writeReg_of_not_operand hr]
    cases r
    case ctrl => exact { h with }
    case status =>
      exact { h with
        done := by simp [storeReg, statusClear, h.done]
        err := by simp [storeReg, statusClear, h.err] }
    case id | idatLen | result | crc => exact h
    all_goals cases hr

theorem writeOffset_keeps_running (h : Running w n s) (k : Nat) : Running w n (writeOffset s k v) := by
  unfold writeOffset
  split
  · exact writeReg_keeps_running h
  · exact h

theorem busWrite_keeps_running (h : Running w n s) (a size : Nat) : Running w n (busWrite s a size v) := by
  unfold busWrite
  split
  · exact { h with }
  · exact { h with }
  · split
    · exact { h with }
    · exact { writeOffset_keeps_running h _ with }

theorem busRead_keeps_running (h : Running w n s) (a size : Nat) : Running w n (busRead s a size) := by
  unfold busRead
  split
  · exact { h with }
  · exact { h with }
  · split <;> exact { h with }

/-- While BUSY is 1 a WAIT stays the next input, and brings no reset with it (R107). -/
theorem waitIdle_keeps_running (h : Running w n s) : Running w n (waitIdle s) := by
  rw [waitIdle_of_rst_false h.outOfReset]
  exact { h with noReset := by simp [h.busy, h.noReset] }

theorem performInput_keeps_running (h : Running w n s) {x : Input} (hx : x ≠ .assertReset) :
    Running w n (performInput x s) := by
  cases x with
  | busWrite a size v => exact busWrite_keeps_running h a size
  | busRead a size => exact busRead_keeps_running h a size
  | memWrite a b => exact { h with }
  | memRead a =>
    rw [performInput, hostRead_eq]
    exact { h with }
  | waitIdle => exact waitIdle_keeps_running h
  | assertReset => exact absurd rfl hx
  | releaseReset => exact { h with outOfReset := rfl }

/-- An input uses up one of the latency, and leaves the command running. -/
theorem inputTurn_keeps_running (h : Running w (n + 1) s) (hinputs : s.inputs ≠ []) : Running w n (inputTurn s) := by
  obtain ⟨x, rest, hcons⟩ := List.exists_cons_of_ne_nil hinputs
  have hnoReset := h.noReset
  rw [hcons, List.mem_cons, not_or] at hnoReset
  rw [inputTurn_of_cons hcons]
  have hpopped : Running w n { s with inputs := rest, busyLeft := s.busyLeft - 1 } :=
    { h with noReset := hnoReset.2, left := by simp [h.left] }
  exact performInput_keeps_running hpopped (Ne.symm hnoReset.1)

/-! ### The engine -/

/-- Each end of a command sets one of DONE and ERR where both were clear, and the fault is the overrun. -/
theorem exec_finished (hdone : s.status.done = false) (herr : s.status.err = false) : Finished (exec i s) := by
  have hends := exec_ends i s
  generalize exec i s = o at hends ⊢
  cases hends with
  | err hend =>
    refine .inl ⟨_, rfl, rfl, rfl, ?_⟩
    rw [hend.completion_eq]
    exact hdone
  | ok hend =>
    refine .inl ⟨_, rfl, rfl, rfl, ?_⟩
    rw [hend.completion_eq]
    simp [okStatus, herr]
  | fault => exact .inr rfl

theorem illegalWord_finished (hdone : s.status.done = false) : Finished (.next (illegalWord s)) :=
  .inl ⟨_, rfl, rfl, rfl, hdone⟩

theorem step_finished (h : Running w n s) (hturn : engineTurn s = true) : Finished (step s) := by
  cases hdecode : decode w with
  | ok i =>
    rw [step_of_decode_ok h.outOfReset h.pending hturn hdecode]
    exact exec_finished h.done h.err
  | error e =>
    rw [step_of_decode_error h.outOfReset h.pending hturn hdecode]
    exact illegalWord_finished h.done

/-! ### The run -/

theorem run_one (M : Host.Core) (s : M.State) : M.run 1 s = M.step s := by
  simp only [Host.Core.run]
  cases M.step s <;> rfl

theorem run_succ_of_next {M : Host.Core} {s t : M.State} (h : M.step s = .next t) (k : Nat) :
    M.run (k + 1) s = M.run k t := by
  simp only [Host.Core.run, h]

theorem run_one_finished (h : Running w n s) (hturn : engineTurn s = true) : Finished (core.run 1 s) := by
  rw [run_one core s]
  exact step_finished h hturn

/-- The engine's turn comes when the latency is used up, or sooner where the outside has no more to do (R296). -/
theorem Running.finishes (h : Running w n s) : ∃ k, k ≤ n + 1 ∧ Finished (core.run k s) := by
  induction n generalizing s with
  | zero => exact ⟨1, le_rfl, run_one_finished h (engineTurn_iff.mpr (.inl h.left))⟩
  | succ n ih =>
    by_cases hinputs : s.inputs = []
    · exact ⟨1, by omega, run_one_finished h (engineTurn_iff.mpr (.inr hinputs))⟩
    · have hstep : core.step s = .next (inputTurn s) :=
        step_eq_inputTurn (.inr (.inr ⟨by simp [h.left], hinputs⟩))
      obtain ⟨k, hk, hfinished⟩ := ih (inputTurn_keeps_running h hinputs)
      rw [← run_succ_of_next hstep] at hfinished
      exact ⟨k + 1, by omega, hfinished⟩

/-- Settles O6: the accepted command runs, and a running command finishes. -/
theorem acceptedCommandFinishes : Obligations.AcceptedCommandFinishes := by
  intro s w hrst hpending hbusy hdone herr hnoReset
  exact Running.finishes ⟨hrst, hpending, hbusy, hdone, herr, hnoReset, rfl⟩

end Sys2Proof.Machine
end

section
/-! The state after reset, and what asserting `rst` leaves of memory (R280 to R285). -/

namespace Sys2Proof.Machine

variable {i : Instr} {s : State} {r : Reg} {k n x base : Nat} {p : Port}

/-! ### The values after reset -/

theorem regValue_reset (hr : r ≠ .id) : regValue State.reset r = 0#32 := by
  cases r
  case id => exact absurd rfl hr
  all_goals rfl

theorem regOffset_of_regAt (h : regAt k = some r) : regOffset r = k := by
  simpa using List.find?_some h

/-- After reset the register ID, at offset 0, is the only one that does not read 0 (R280). -/
theorem readOffset_reset (hk : 0 < k) : readOffset State.reset k = (0#32, 0) := by
  unfold readOffset
  split
  · rename_i r hat
    have hr : r ≠ .id := by
      rintro rfl
      exact hk.ne (regOffset_of_regAt hat)
    rw [readReg_of_idle rfl, regValue_reset hr]
  · rfl

/-- A CFG of 0 has width 0, which is no legal width (R191). -/
theorem imgCfg_zero : imgCfg 0#32 = none := by decide

/-- Settles O7: register by register, and CFG 0 for the commands that need it. -/
theorem resetValues : Obligations.ResetValues :=
  ⟨rfl, fun _ => readOffset_reset, rfl, rfl, irq_of_no_outcome rfl rfl, fun _ => exec_of_imgCfg_none imgCfg_zero,
    rfl, rfl, rfl, rfl⟩

/-- Settles O19: memory lists nothing, the engine is idle, and every register is 0. -/
theorem resetMeetsInv : Obligations.ResetMeetsInv where
  memWf := rfl
  busyPending := rfl
  busyClear := nofun
  oneOutcome := nofun
  errCode := by simp [State.reset]
  cfgReserved := BitVec.zero_and
  ccfgReserved := BitVec.zero_and
  payload := nofun
  idle := fun _ => ⟨rfl, rfl⟩
  inReset := nofun

/-! ### The reset input -/

theorem abandon_of_idle (h : s.pending = none) : abandon s = s.port := by
  simp only [abandon, h]

theorem abandon_of_encode (h : s.pending = some (encode i)) :
    abandon s = havoc s.scrBase.toNat (clipLen s.scrBase.toNat (scrRangeLen s i))
      (havoc s.outAddr (clipLen s.outAddr (outRangeLen s i)) s.port) := by
  simp only [abandon, h, decode_encode]

/-- The part of a range that lies in the memory space is no longer than the range. -/
theorem havoc_clip_frame (h : x < base ∨ base + n ≤ x) :
    (havoc base (clipLen base n) p).mem.get x = p.mem.get x := by
  have hclip : clipLen base n ≤ n := Nat.min_le_left ..
  exact havoc_frame _ _ _ (by omega)

/-- An abandoned command leaves the bytes outside its two ranges (R282). -/
theorem abandon_frame (h : s.pending = some (encode i)) (hout : x < s.outAddr ∨ s.outAddr + outRangeLen s i ≤ x)
    (hscr : x < s.scrBase.toNat ∨ s.scrBase.toNat + scrRangeLen s i ≤ x) :
    (abandon s).mem.get x = s.mem.get x := by
  rw [abandon_of_encode h, havoc_clip_frame hscr, havoc_clip_frame hout, State.port]

/-- Settles O8: the registers as `resetState` writes them, and memory by whether a command is abandoned. -/
theorem resetInputResets : Obligations.ResetInputResets := by
  intro s
  refine ⟨rfl, fun hnone => ?_, fun i a hpending hout hscr => ?_, rfl⟩
  · show (abandon s).mem = s.mem
    rw [abandon_of_idle hnone, State.port]
  · exact peek_eq_of_get (abandon_frame hpending hout hscr)

end Sys2Proof.Machine
end
